-- ==== Sys2Proof/Word.lean ====
section
/-! DEFINITION. The word types of the CCB: 32-bit registers (10_state R22), 16-bit samples (00_scope R6
SAMPLE_W), FP formats and the 64-bit patterns of their values (00_scope R6 FP_FMT; logs 1, 29), the three lanes R, G, B (00_scope R9) and the
64-bit register pair (10_state R47). -/

namespace Sys2Proof

/-- A register word, REG_W = 32 bits (00_scope R6). -/
abbrev Word := BitVec 32

/-- A sample, SAMPLE_W = 16 bits (00_scope R6). -/
abbrev Sample := BitVec 16

namespace Machine

/-- FP_FMT, the format of every float value: binary64, or binary32 for a build in that format (00_scope R6,
92_eei_decisions D3; log 1). -/
inductive FpFmt
  | binary64 | binary32
deriving DecidableEq, Repr

/-- An FP value, as a binary64 pattern, in either format (10_state R47; log 29): every binary32 value is a binary64
value. -/
abbrev F64 := BitVec 64

/-- The three lanes R, G, B, numbered 0, 1, 2 (00_scope R9). -/
structure Lanes (α : Type) where
  r : α
  g : α
  b : α
deriving DecidableEq, Repr

/-- The same function on each lane. -/
def Lanes.map {α β : Type} (f : α → β) (v : Lanes α) : Lanes β :=
  ⟨f v.r, f v.g, f v.b⟩

/-- A 64-bit register pair NAME_HI:NAME_LO, two separate 32-bit registers (10_state R47, 20_memory R53). -/
structure Pair where
  hi : Word
  lo : Word
deriving DecidableEq, Repr

/-- The magnitude code of 1.0: bits 62:0 of 0x3FF0000000000000. The codes 0 to this one are the FP values
in [+0.0, 1.0], in order. -/
abbrev oneCode : Nat := 0x3FF0000000000000

/-- The FP values in [+0.0, 1.0], by magnitude code. -/
abbrev UnitCode := Fin (oneCode + 1)

end Machine

end Sys2Proof
end

