-- ==== Sys2Proof/Syntax.lean ====
section
/-! DEFINITION. The commands of the CCB (30_encoding R70, R72) and the one command format CMD32. -/

namespace Sys2Proof

/-- The seven commands, one constructor per row of spec/opcode_table.json (30_encoding R72). No command
has an operand field: operands come from named registers (30_encoding R71). -/
inductive Instr
  | nop
  | build
  | run
  | dec3
  | mat3
  | enc3
  | pixel
deriving DecidableEq, Repr

/-- The one command format CMD32: OPC in bits 7:0, RSV in bits 31:8 (30_encoding R70). -/
structure Cmd32 where
  rsv : BitVec 24
  opc : BitVec 8
deriving DecidableEq, Repr

end Sys2Proof
end

