-- ==== Sys2Proof/Machine/Ports.lean ====
section
/-! DEFINITION. What crosses the block's two interfaces: the register names of the host window
(10_state R22), host accesses and host program lines (20_memory R51, 30_encoding R75, R76), and the
accessor's requests and answers (20_memory R59, R60). -/

namespace Sys2Proof.Machine

/-- The registers of the host window by name (10_state R22). -/
inductive Reg
  | id | ctrl | cmd | status | width | height | bps | spp | metaFlags | rowsPerStrip | rowsDone
  | gammaInLo | gammaInHi | gammaOutLo | gammaOutHi
  | pixInR | pixInG | pixInB | pixOutR | pixOutG | pixOutB
  | fv0Lo | fv0Hi | fv1Lo | fv1Hi | fv2Lo | fv2Hi
deriving DecidableEq, Repr

/-- How the host may use a register (10_state R22): read-only, write-only, read-write. -/
inductive AccessKind
  | ro | wo | rw
deriving DecidableEq, Repr

/-- The 64-bit pairs that WR64 may name (30_encoding R76). -/
inductive PairName
  | gammaIn | gammaOut | fv0 | fv1 | fv2
deriving DecidableEq, Repr

/-- One register access on the host bus: its width in bytes and its byte offset from CCB_BASE
(20_memory R51, R52; log 20). -/
structure Access where
  bytes  : Nat
  offset : Nat
deriving DecidableEq, Repr

/-- One line of a host program (30_encoding R75, R76). CMD and WR64 are written with `HostOp.cmd` and
`HostOp.wr64` (Machine/HostBus.lean), which expand to writes. -/
inductive HostOp
  /-- `WR`: a register write (30_encoding R75). -/
  | write (a : Access) (data : Word)
  /-- `RD`: a register read (30_encoding R75). -/
  | read (a : Access)
  /-- `WAIT`: RD STATUS until the value read has BUSY = 0 (30_encoding R76). -/
  | wait
  /-- `CHECK`: RD and an assertion on the value read (30_encoding R76; log 22). -/
  | check (offset : Nat) (expect : Word)
deriving DecidableEq, Repr

/-- Photometric interpretation of the output metadata; the CCB declares RGB (42_pipeline R147). -/
inductive Photometric
  | rgb | other
deriving DecidableEq, Repr

/-- Planar configuration of the output metadata; the CCB declares contiguous (42_pipeline R147). -/
inductive PlanarConfig
  | contiguous | separate
deriving DecidableEq, Repr

/-- The record of a SetMeta request (42_pipeline R147). The descriptive text is not modelled
(92_eei_decisions D31; log 27). -/
structure Metadata where
  width           : Word
  height          : Word
  bitsPerSample   : Nat
  samplesPerPixel : Nat
  rowsPerStrip    : Word
  photometric     : Photometric
  planarConfig    : PlanarConfig
deriving DecidableEq, Repr

/-- A row of samples in pixel order, contiguous layout (20_memory R59, R60; log 19). -/
abbrev Row := List Sample

/-- The engine's requests to the accessor (20_memory R59, R60). -/
inductive Request
  | setMeta (m : Metadata)
  | readRow (r : Word)
  | writeRow (r : Word) (samples : Row)
deriving DecidableEq, Repr

/-- The accessor's answers (20_memory R59, R60): `Row` or `EndOfData` to ReadRow, `Ok` or `Error` to
SetMeta, `Ok` or `WriteFailed` to WriteRow. -/
inductive Answer
  | row (samples : Row)
  | endOfData
  | ok
  | error
  | writeFailed
deriving DecidableEq, Repr

/-- An answer under way, with the number of the request it answers: the first request issued has
number 1 (log 12). -/
structure Reply where
  request : Nat
  answer  : Answer
deriving DecidableEq, Repr

/-- Who takes the next step: the three agents of 00_scope R5, or the reset input (70_reset R190). -/
inductive Agent
  | engine | host | accessor | reset
deriving DecidableEq, Repr

/-- The method of the Power path's 12-bit quantization, PQ_MODE (40_gamma R116). -/
inductive PqMode
  | trunc | round
deriving DecidableEq, Repr, Inhabited

/-- The Normalizer's two widening modes (40_gamma R100, R101). -/
inductive WidenMode
  | shift | direct
deriving DecidableEq, Repr

/-- The matrix options of the source's conversion tool: `-1`, `-S`, or neither (30_encoding R77). -/
inductive CliMatrix
  | optionOne | optionS | neither
deriving DecidableEq, Repr

/-- The options of the source's conversion tool that stand for host writes (30_encoding R77): `-p`, `-1` or `-S`,
`-g gammaIn`, `-r rows_per_strip`. `-v` has no register counterpart. -/
structure CliOptions where
  p      : Bool
  matrix : CliMatrix
  g      : Option F64
  r      : Option Word
deriving DecidableEq, Repr

end Sys2Proof.Machine
end

