-- ==== Sys2Proof/Machine/Table.lean ====
section
/-! DEFINITION. A lookup table of 2^d entries as plain data (10_state R40, R41): a binary tree whose leaf
stands for every index below it. -/

namespace Sys2Proof.Machine

/-- A table: a leaf gives one entry to every index below it, a node splits its indices in half. -/
inductive Table (α : Type)
  | leaf (a : α)
  | node (low high : Table α)
deriving DecidableEq, Repr, Inhabited

/-- The table of 2^d entries that holds `f (base + i)` at index i. -/
def Table.ofFn {α : Type} : Nat → (Nat → α) → Nat → Table α
  | 0, f, base => .leaf (f base)
  | d + 1, f, base => .node (Table.ofFn d f base) (Table.ofFn d f (base + 2 ^ d))

/-- The entry at index i of a table of 2^d entries. -/
def Table.read {α : Type} : Table α → Nat → Nat → α
  | .leaf a, _, _ => a
  | .node low high, d, i =>
    if i < 2 ^ (d - 1) then Table.read low (d - 1) i else Table.read high (d - 1) (i - 2 ^ (d - 1))

/-- The decode table holds DLUT_SIZE = 2^16 entries (00_scope R6). -/
abbrev dlutBits : Nat := 16

/-- The encode table holds ELUT_SIZE = 2^24 entries (00_scope R6). -/
abbrev elutBits : Nat := 24

end Sys2Proof.Machine
end

