-- ==== Sys2Proof/Config.lean ====
section
/-! DEFINITION. What the spec leaves to the implementation or leaves open, as constants with no body:
nothing can evaluate them, so a claim holds whatever they are (00_scope R6 OPEN rows;
93_implementation_defined). -/

namespace Sys2Proof

open Machine

/-- `Pow` on [+0.0, 1.0], for each exponent pattern: a monotone map of [+0.0, 1.0] to itself that fixes
both ends, which is P1 to P4 of 40_gamma R103 (log 2). P5, the domain and the rounding of the result to FP_FMT are in
`Machine.pow`. -/
opaque Config.powUnit : F64 → BoundedOrderHom UnitCode UnitCode

/-- The binary32 value that a pair is read as when its pattern is no binary32 value: any value, as sign and binary32
code, the code above infinity being a NaN (00_scope R6, 10_state R47; log 29). -/
opaque Config.readNarrow : F64 → Bool × Fin (0x7F800000 + 2)

/-- `Pow` where 40_gamma R103 gives no property: the block never calls it there (log 3). -/
opaque Config.powElsewhere : F64 → F64 → F64

/-- `round` of a NaN or an infinity, which 40_gamma R104 does not define and the block never calls (log 3). -/
opaque Config.roundElsewhere : F64 → Int

/-- `trunc` of a NaN or an infinity, which 40_gamma R105 does not define and the block never calls (log 3). -/
opaque Config.truncElsewhere : F64 → Int

/-- PQ_MODE, an OPEN parameter (40_gamma R116, 00_scope R6; log 4). -/
opaque Config.pqMode : PqMode

/-- CCB_BASE, an OPEN platform parameter (20_memory R51; log 20). -/
opaque Config.ccbBase : Nat

/-- Free bits for the NaN a lane of MAT3 may produce: by draw and lane (41_matrix R132; log 5). -/
opaque Config.nanBits : Nat → Nat → F64

/-- What an output row holds after WriteFailed, or after a reset that abandoned its WriteRow: any value,
by draw; `none` is no row at all (20_memory R68; log 8). -/
opaque Config.unknownRow : Nat → Option Row

/-- What the output metadata is after SetMeta was answered Error, or after a reset that abandoned it: any
value, by draw (42_pipeline R148, R155; log 8). -/
opaque Config.unknownMeta : Nat → Option Metadata

/-- DLUT after reset: any value, by draw (70_reset R191; log 6). -/
opaque Config.dlutAfterReset : Nat → Table F64

/-- ELUT after reset: any value, by draw (70_reset R191; log 6). -/
opaque Config.elutAfterReset : Nat → Table Sample

/-- IN_BUF outside the step that fills it: any value, by draw (10_state R44, 70_reset R191; log 7). -/
opaque Config.inBufContents : Nat → Row

/-- OUT_BUF outside the step that fills it: any value, by draw (10_state R44, 70_reset R191; log 7). -/
opaque Config.outBufContents : Nat → Row

end Sys2Proof
end

