-- ==== Sys2Proof/Machine/State.lean ====
section
/-! DEFINITION. The state of the CCB (10_state), of its two ports and of the agents outside, as plain data;
the reasons a step can stop; the state after reset (70_reset R190 to R192). INVENTORY.md lists each field
with its rule. -/

namespace Sys2Proof.Machine

/-- CTRL.STRATEGY (10_state R24). -/
inductive Strategy
  | lut | power
deriving DecidableEq, Repr

/-- STATUS.STATE, the pipeline states (10_state R46). -/
inductive Stage
  | init | validating | preparingOutput | processing | done | failed
deriving DecidableEq, Repr

/-- STATUS.ERR, the error codes 0 to 11; 12 to 15 are never produced (60_exceptions R170). -/
inductive ErrCode
  | none | invalidGamma | badBitDepth | notRgb | tooFewSamples | notContiguous | writeError
  | outputError | lutNotBuilt | badMatrix | illegalCommand | nanOperand
deriving DecidableEq, Repr

/-- PEND, the outstanding accessor request (10_state R45). -/
inductive Pend
  | none
  | metaPending
  | readPending (r : Word)
  | writePending (r : Word)
deriving DecidableEq, Repr

/-- The output image rows (20_memory R50): row index and samples, indices strictly rising, a row not listed
has not been written (log 10). -/
abbrev Memory := List (Nat × Row)

/-- The state. The first field is a parameter of the block; every field after it but the last group is the block's or
its ports'; the last group is the model's own (INVENTORY.md). -/
structure State where
  /-- FP_FMT, the parameter of 00_scope R6: no step changes it (log 1). -/
  fpFmt        : FpFmt
  /-- CTRL bit 0 (10_state R24). -/
  strategy     : Strategy
  /-- CTRL bits 2:1, any value (10_state R24). -/
  msel         : BitVec 2
  /-- STATUS.STATE (10_state R26, R46). -/
  stage        : Stage
  /-- STATUS.BUSY (10_state R26). -/
  busy         : Bool
  /-- STATUS.LUT_VALID (10_state R26, R42). -/
  lutValid     : Bool
  /-- STATUS.TRUNC (10_state R26). -/
  trunc        : Bool
  /-- STATUS.WIGN (10_state R26, R48). -/
  wign         : Bool
  /-- STATUS.ERR (10_state R26). -/
  err          : ErrCode
  /-- WIDTH (10_state R27). -/
  width        : Word
  /-- HEIGHT (10_state R28). -/
  height       : Word
  /-- BPS (10_state R29). -/
  bps          : Word
  /-- SPP (10_state R30). -/
  spp          : Word
  /-- META_FLAGS.IS_RGB (10_state R31). -/
  isRgb        : Bool
  /-- META_FLAGS.IS_CONTIG (10_state R31). -/
  isContig     : Bool
  /-- ROWS_PER_STRIP (10_state R32). -/
  rowsPerStrip : Word
  /-- ROWS_DONE (10_state R33). -/
  rowsDone     : Word
  /-- GAMMA_IN_HI:GAMMA_IN_LO (10_state R34). -/
  gammaIn      : Pair
  /-- GAMMA_OUT_HI:GAMMA_OUT_LO (10_state R35). -/
  gammaOut     : Pair
  /-- PIX_IN_R, PIX_IN_G, PIX_IN_B bits 15:0 (10_state R36). -/
  pixIn        : Lanes Sample
  /-- PIX_OUT_R, PIX_OUT_G, PIX_OUT_B bits 15:0 (10_state R37). -/
  pixOut       : Lanes Sample
  /-- FV0, FV1, FV2 (10_state R38). -/
  fv           : Lanes Pair
  /-- DLUT (10_state R40). -/
  dlut         : Table F64
  /-- ELUT (10_state R41). -/
  elut         : Table Sample
  /-- IN_BUF (10_state R44). -/
  inBuf        : Row
  /-- OUT_BUF (10_state R44). -/
  outBuf       : Row
  /-- PEND (10_state R45). -/
  pend         : Pend
  /-- The accessor's answer on the port, not yet taken by the engine (42_pipeline R148, R151 to R154). -/
  answer       : Option Answer
  /-- The output metadata the accessor holds (20_memory R60; log 10). -/
  outMeta      : Option Metadata
  /-- The output rows the accessor holds (20_memory R50, R69; log 10). -/
  outRows      : Memory
  /-- The requests issued so far, newest first (20_memory R61; log 12). -/
  requests     : List Request
  /-- The accessor answers still to come (20_memory R67; log 12). -/
  replies      : List Reply
  /-- The rest of the host program (30_encoding R75; log 14). -/
  host         : List HostOp
  /-- The values the host has read, newest first (30_encoding R75; log 22). -/
  reads        : List Word
  /-- Whether a CHECK of the host program has failed (30_encoding R76; log 22). -/
  checkFailed  : Bool
  /-- Who moves next; empty leaves it to `defaultAgent` (log 11). -/
  sched        : List Agent
  /-- The counter the free values are taken with (log 9). -/
  draws        : Nat
deriving DecidableEq, Repr

/-- Why the machine stops. All four are safe: the machine stops where the spec gives no step (log 13). -/
inductive Fault
  /-- Raised by `step` when the turn falls to an agent that has no step: the engine with BUSY = 0 or waiting for
  the accessor (42_pipeline R157, 20_memory R67), the accessor with no answer to give, the host at the end of
  its program. Safe. -/
  | noStep (a : Agent)
  /-- Raised by `step` when nobody is scheduled and nobody has a step (70_reset R192). Safe. -/
  | idle
  /-- Raised by the host's turn: the access is narrower, wider, misaligned or outside the window, and the host
  is stuck (20_memory R52). Safe. -/
  | unadmittedAccess
  /-- Raised by the accessor's turn: the answer is not one of the request's answers, or not of the stated shape,
  or a second one (20_memory R59, R60, R67). Safe. -/
  | unadmittedAnswer
deriving DecidableEq, Repr

/-- Why an instruction has no meaning. No instruction of this model is refused. Safe. -/
inductive Refusal
  /-- Raised by an arm of `exec` whose instruction has no meaning yet. Safe. -/
  | notModelled (mnemonic : String)
deriving DecidableEq, Repr

/-- Reset (70_reset R190 to R192, 10_state R22). FP_FMT is binary64, the value 00_scope R6 gives (log 1). The tables
and buffers hold free values (R191; logs 6, 7). The fields from `outMeta` on are not the block's: nothing has been written, asked, answered or scheduled
(logs 9 to 14, 22). -/
def State.reset : State where
  fpFmt        := .binary64
  strategy     := .lut
  msel         := 1
  stage        := .init
  busy         := false
  lutValid     := false
  trunc        := false
  wign         := false
  err          := .none
  width        := 0
  height       := 0
  bps          := 0
  spp          := 0
  isRgb        := false
  isContig     := false
  rowsPerStrip := 0
  rowsDone     := 0
  gammaIn      := ⟨0, 0⟩
  gammaOut     := ⟨0, 0⟩
  pixIn        := ⟨0, 0, 0⟩
  pixOut       := ⟨0, 0, 0⟩
  fv           := ⟨⟨0, 0⟩, ⟨0, 0⟩, ⟨0, 0⟩⟩
  dlut         := Config.dlutAfterReset 0
  elut         := Config.elutAfterReset 0
  inBuf        := Config.inBufContents 0
  outBuf       := Config.outBufContents 0
  pend         := .none
  answer       := none
  outMeta      := none
  outRows      := []
  requests     := []
  replies      := []
  host         := []
  reads        := []
  checkFailed  := false
  sched        := []
  draws        := 1

end Sys2Proof.Machine
end

