-- ==== Sys2Proof/Machine/Ops.lean ====
section
/-! DEFINITION. The shared operations: the output rows (20_memory R50), the start of a command
(60_exceptions R184), taking an error (R183), running a command's body, reset (70_reset R190). -/

namespace Sys2Proof.Machine

/-- The samples of output row r; none when the row has not been written (log 10). -/
def Memory.read : Memory → Nat → Option Row
  | [], _ => none
  | (k, v) :: m, r => if r = k then some v else Memory.read m r

/-- The rows with row r set; `none` takes the row out. Rows stay strictly rising. -/
def Memory.write : Memory → Nat → Option Row → Memory
  | [], r, v => (v.map fun x => (r, x)).toList
  | (k, w) :: m, r, v =>
    if r < k then (v.map fun x => (r, x)).toList ++ (k, w) :: m
    else if r = k then (v.map fun x => (r, x)).toList ++ m
    else (k, w) :: Memory.write m r v

/-- Every row index of the list is above k. -/
def Memory.allAbove (k : Nat) : Memory → Bool
  | [] => true
  | (j, _) :: m => decide (k < j) && Memory.allAbove k m

/-- The canonical form: row indices strictly rising. -/
def Memory.wf : Memory → Bool
  | [] => true
  | (k, _) :: m => Memory.allAbove k m && Memory.wf m

/-- Who raises an error: a command other than RUN, or a run (60_exceptions R183). -/
inductive Raiser
  | command | run
deriving DecidableEq, Repr

/-- Error entry (60_exceptions R183): ERR takes the code; a run also ends Failed with no request outstanding.
Nothing else changes; there is no vector, no handler and no saved state. -/
def State.raise (who : Raiser) (code : ErrCode) (s : State) : State :=
  match who with
  | .command => { s with err := code }
  | .run => { s with err := code, stage := .failed, busy := false, pend := .none }

/-- The start of every accepted command: ERR and WIGN are cleared (60_exceptions R184). There is no other
return from an error. -/
def State.beginCommand (s : State) : State := { s with err := .none, wign := false }

/-- A command other than RUN: the start-of-command clear, then the body's checks and effect; an error of the
body is recorded and changes nothing else (60_exceptions R183, R184). -/
def runCommand (body : State → Except ErrCode State) (s : State) : Host.Outcome State Fault Refusal :=
  match body s.beginCommand with
  | .ok t => .next t
  | .error code => .next (s.beginCommand.raise .command code)

/-- The code of the first check that does not pass, in order (60_exceptions R182). -/
def firstFailure : List (Bool × ErrCode) → Option ErrCode
  | [] => none
  | (passes, code) :: rest => if passes then firstFailure rest else some code

/-- What a request that nobody will answer any more left in the output: any value (log 8). A request the
accessor has already answered has had its effect. -/
def State.abandonRequest (s : State) : State :=
  match s.answer, s.pend with
  | none, .metaPending => { s with outMeta := Config.unknownMeta s.draws, draws := s.draws + 1 }
  | none, .writePending r =>
    { s with outRows := Memory.write s.outRows r.toNat (Config.unknownRow s.draws), draws := s.draws + 1 }
  | _, _ => s

/-- The reset input, one atomic event (70_reset R190, R191): every register and PEND at its reset value, the
tables and buffers at free values, an outstanding request abandoned. FP_FMT and what lies outside the block stay
(logs 1, 26). -/
def State.applyReset (s : State) : State :=
  let a := s.abandonRequest
  { State.reset with
    fpFmt := a.fpFmt
    dlut := Config.dlutAfterReset a.draws
    elut := Config.elutAfterReset a.draws
    inBuf := Config.inBufContents a.draws
    outBuf := Config.outBufContents a.draws
    outMeta := a.outMeta
    outRows := a.outRows
    requests := a.requests
    replies := a.replies
    host := a.host
    reads := a.reads
    checkFailed := a.checkFailed
    sched := a.sched
    draws := a.draws + 1 }

end Sys2Proof.Machine
end

