-- ==== Sys2Proof/Machine/Accessor.lean ====
section
/-! DEFINITION. The accessor's step: the next answer reaches the port (20_memory R59, R60, R67), or is discarded
because its request is no longer outstanding (70_reset R190). -/

namespace Sys2Proof.Machine

/-- The shape of a row answer: WIDTH x SPP samples, each below 2^BPS (20_memory R59). -/
def State.rowShapeOk (s : State) (x : Row) : Bool :=
  x.length == s.width.toNat * s.spp.toNat && x.all fun v => decide (v.toNat < 2 ^ s.bps.toNat)

/-- The answer is one of those the outstanding request may get (20_memory R59, R60, R67). -/
def State.admitsAnswer (s : State) (a : Answer) : Bool :=
  match s.pend, a with
  | .metaPending, .ok | .metaPending, .error => true
  | .readPending _, .row x => s.rowShapeOk x
  | .readPending _, .endOfData => true
  | .writePending _, .ok | .writePending _, .writeFailed => true
  | _, _ => false

/-- What an answer to the newest request says of the output: SetMeta `Ok` sets the metadata, WriteRow `Ok` writes
the row (20_memory R60, R68); after `Error` and `WriteFailed` they are any value (R68; log 8). -/
def State.outputAfter (a : Answer) (s : State) : State :=
  match s.requests, a with
  | .setMeta m :: _, .ok => { s with outMeta := some m }
  | .setMeta _ :: _, .error => { s with outMeta := Config.unknownMeta s.draws, draws := s.draws + 1 }
  | .writeRow r x :: _, .ok => { s with outRows := Memory.write s.outRows r.toNat (some x) }
  | .writeRow r _ :: _, .writeFailed =>
    { s with outRows := Memory.write s.outRows r.toNat (Config.unknownRow s.draws), draws := s.draws + 1 }
  | _, _ => s

/-- The answer reaches the port and has its effect on the output. -/
def State.deliver (a : Answer) (s : State) : State := { s.outputAfter a with answer := some a }

/-- The reply answers the request that is outstanding: there is one, and it is the newest (10_state R45; log 12). -/
def State.answersOutstanding (s : State) (r : Reply) : Bool :=
  s.pend != .none && r.request == s.requests.length

/-- The accessor's step: its next reply. A reply to no outstanding request is discarded (70_reset R190); one that is
not an answer to it, or a second one, has no step (20_memory R67; log 13). -/
def accessorStep (s : State) : Host.Outcome State Fault Refusal :=
  match s.replies with
  | [] => .fault (.noStep .accessor)
  | r :: rest =>
    let t := { s with replies := rest }
    if s.answersOutstanding r then
      if s.answer.isNone && s.admitsAnswer r.answer then .next (t.deliver r.answer)
      else .fault .unadmittedAnswer
    else .next t

end Sys2Proof.Machine
end

