-- ==== Sys2Proof/Machine/Float.lean ====
section
/-! DEFINITION. Float values and their operations in FP_FMT, binary64 or binary32 (00_scope R6, R8; 10_state R47;
logs 1, 29). A value is its binary64 pattern. Bits 62:0 are its magnitude code, in the order of the magnitudes; every
finite value is a whole number of units of 2^-1074, so each operation is exact arithmetic on integers and one rounding
to FP_FMT. -/

namespace Sys2Proof.Machine

/-- The magnitude code of the infinities. -/
def F64.infMag : Nat := 0x7FF0000000000000

/-- One in units of 2^-1074. -/
def F64.scale : Nat := 2 ^ 1074

/-- Bit 63 (10_state R47). -/
def F64.sign (x : F64) : Bool := x.getLsbD 63

/-- Bits 62:0, exponent and fraction (10_state R47). -/
def F64.mag (x : F64) : Nat := x.toNat % 2 ^ 63

def F64.isNaN (x : F64) : Bool := decide (F64.infMag < F64.mag x)

def F64.isInf (x : F64) : Bool := F64.mag x == F64.infMag

def F64.isFinite (x : F64) : Bool := decide (F64.mag x < F64.infMag)

/-- The value with the sign and the magnitude code given. -/
def F64.make (neg : Bool) (m : Nat) : F64 := BitVec.ofNat 64 (m + if neg then 2 ^ 63 else 0)

/-- The magnitude an IEEE 754 code with f fraction bits stands for, in quanta of its format: the fraction alone for
exponent 0 (zero and the subnormals), else the fraction with its leading one, scaled by the exponent. -/
def codeUnits (f c : Nat) : Nat :=
  if c / 2 ^ f = 0 then c % 2 ^ f else (2 ^ f + c % 2 ^ f) * 2 ^ (c / 2 ^ f - 1)

/-- The magnitude a code of binary64 stands for, in units of 2^-1074. -/
def F64.unitsOfMag (m : Nat) : Nat := codeUnits 52 m

/-- The magnitude of a finite value in units of 2^-1074. -/
def F64.units (x : F64) : Nat := F64.unitsOfMag (F64.mag x)

/-- A finite value in units of 2^-1074, with its sign. -/
def F64.signedUnits (x : F64) : Int := if F64.sign x then -(F64.units x : Int) else F64.units x

def F64.posZero : F64 := 0x0000000000000000

def F64.one : F64 := 0x3FF0000000000000

/-- A NaN inside an expression: `NaN` of 00_scope R8 means any NaN. The payload written to a register is
taken from `F64.anyNaN` (log 5). -/
def F64.nan : F64 := 0x7FF8000000000000

/-- The NaN with the sign and fraction of the bits given; a fraction of zero becomes the top fraction bit
alone, so that every NaN and nothing else is reached (00_scope R8 "NaN means any NaN"; log 5). -/
def F64.anyNaN (bits : F64) : F64 :=
  if bits.extractLsb' 0 52 = 0 then (bits ||| 0x7FF0000000000000) ||| 0x0008000000000000
  else bits ||| 0x7FF0000000000000

/-- n / d to the nearest integer, ties to even (00_scope R8). -/
def roundHalfEven (n d : Nat) : Nat :=
  if 2 * (n % d) < d then n / d
  else if d < 2 * (n % d) then n / d + 1
  else if n / d % 2 = 0 then n / d
  else n / d + 1

/-- The code with f fraction bits nearest to n / d quanta, ties to even, with overflow to the code of infinity
(00_scope R8). The quotient is taken in steps of 2^e quanta, with e such that it has f + 1 bits, or 0 below that; the
code is then the quotient with e added to the exponent field, and a carry out of the quotient lands in that field. -/
def roundToCode (f inf n d : Nat) : Nat :=
  let e := Nat.log2 (n / d) - f
  min (e * 2 ^ f + roundHalfEven n (d * 2 ^ e)) inf

/-- The fraction bits of a format (00_scope R6). -/
def FpFmt.fracBits (fmt : FpFmt) : Nat :=
  match fmt with
  | .binary64 => 52
  | .binary32 => 23

/-- The code of infinity in a format (00_scope R6). -/
def FpFmt.infCode (fmt : FpFmt) : Nat :=
  match fmt with
  | .binary64 => 0x7FF0000000000000
  | .binary32 => 0x7F800000

/-- The smallest positive value of a format in units of 2^-1074; 2^-149 for binary32 (00_scope R6). -/
def FpFmt.quantum (fmt : FpFmt) : Nat :=
  match fmt with
  | .binary64 => 1
  | .binary32 => 2 ^ 925

/-- The magnitude a code of a format stands for, in units of 2^-1074; infinity counts as the power of two above the
largest finite value. -/
def FpFmt.unitsOfCode (fmt : FpFmt) (c : Nat) : Nat := codeUnits fmt.fracBits c * fmt.quantum

/-- The code of a format nearest to (n / d) · 2^-1074, ties to even, with overflow to infinity (00_scope R8). -/
def FpFmt.roundCode (fmt : FpFmt) (n d : Nat) : Nat :=
  roundToCode fmt.fracBits fmt.infCode n (d * fmt.quantum)

/-- The binary64 magnitude code of a code of a format: of the same value, of infinity, or of a NaN above it. -/
def FpFmt.magOfCode (fmt : FpFmt) (c : Nat) : Nat :=
  match fmt with
  | .binary64 => c
  | .binary32 =>
    if c < FpFmt.infCode .binary32 then roundToCode 52 F64.infMag (FpFmt.unitsOfCode .binary32 c) 1
    else F64.infMag + (c - FpFmt.infCode .binary32)

/-- The magnitude code of the FP value nearest to (n / d) · 2^-1074, ties to even (00_scope R8). -/
def F64.roundMag (fmt : FpFmt) (n d : Nat) : Nat := fmt.magOfCode (fmt.roundCode n d)

/-- The pattern is a value of the format: a NaN, or not changed by rounding to it (00_scope R8). -/
def F64.holds (fmt : FpFmt) (x : F64) : Bool :=
  match fmt with
  | .binary64 => true
  | .binary32 => F64.isNaN x || F64.roundMag .binary32 (F64.units x) 1 == F64.mag x

/-- fmul (00_scope R8). -/
def fmul (fmt : FpFmt) (a b : F64) : F64 :=
  let neg := F64.sign a != F64.sign b
  if F64.isNaN a || F64.isNaN b then F64.nan
  else if F64.isInf a || F64.isInf b then
    if F64.mag a = 0 ∨ F64.mag b = 0 then F64.nan else F64.make neg F64.infMag
  else F64.make neg (F64.roundMag fmt (F64.units a * F64.units b) F64.scale)

/-- fadd (00_scope R8); an exact zero sum is -0.0 only of two negative zeros (41_matrix R133). -/
def fadd (fmt : FpFmt) (a b : F64) : F64 :=
  let sum := F64.signedUnits a + F64.signedUnits b
  if F64.isNaN a || F64.isNaN b then F64.nan
  else if F64.isInf a then
    if F64.isInf b && F64.sign a != F64.sign b then F64.nan else a
  else if F64.isInf b then b
  else if sum = 0 then F64.make (F64.sign a && F64.sign b) 0
  else F64.make (decide (sum < 0)) (F64.roundMag fmt sum.natAbs 1)

/-- fdiv (00_scope R8). -/
def fdiv (fmt : FpFmt) (a b : F64) : F64 :=
  let neg := F64.sign a != F64.sign b
  if F64.isNaN a || F64.isNaN b then F64.nan
  else if F64.isInf a then
    if F64.isInf b then F64.nan else F64.make neg F64.infMag
  else if F64.isInf b then F64.make neg 0
  else if F64.mag b = 0 then
    if F64.mag a = 0 then F64.nan else F64.make neg F64.infMag
  else F64.make neg (F64.roundMag fmt (F64.units a * F64.scale) (F64.units b))

/-- The integer n as FP value, exact below 2^53; the integers of the rules are below 2^24 and so are values of both
formats (00_scope R8). -/
def F64.ofNat (n : Nat) : F64 := F64.make false (F64.roundMag .binary64 (n * F64.scale) 1)

/-- The value of a format nearest to a decimal literal ± n / d, ties to even (30_encoding R76, 41_matrix R130). -/
def F64.ofRatio (fmt : FpFmt) (neg : Bool) (n d : Nat) : F64 :=
  F64.make neg (F64.roundMag fmt (n * F64.scale) d)

/-- The place of a value that is no NaN in the order of the FP values; both zeros are 0. -/
def F64.key (x : F64) : Int := if F64.sign x then -(F64.mag x : Int) else F64.mag x

/-- The ordered comparison a ≤ b: false when either is a NaN. -/
def F64.le (a b : F64) : Bool := !F64.isNaN a && !F64.isNaN b && decide (F64.key a ≤ F64.key b)

/-- The ordered comparison a < b: false when either is a NaN. -/
def F64.lt (a b : F64) : Bool := !F64.isNaN a && !F64.isNaN b && decide (F64.key a < F64.key b)

/-- `valid(g)`: g > +0.0 under the ordered comparison (40_gamma R109). -/
def validGamma (g : F64) : Bool := F64.lt F64.posZero g

/-- x is in [+0.0, 1.0] and is not -0.0 (40_gamma R103). -/
def F64.inUnit (x : F64) : Bool := !F64.sign x && decide (F64.mag x ≤ oneCode)

end Sys2Proof.Machine
end

