-- ==== Sys2Proof/Machine/Numeric.lean ====
section
/-! DEFINITION. The numeric primitives of 40_gamma: Pow (R103), round (R104) and trunc (R105). -/

namespace Sys2Proof.Machine

/-- `Pow(x, g)` for x in [+0.0, 1.0] and a valid g: x itself for g = 1.0 (40_gamma R103 P5), else the free
monotone map of Config (P1 to P4), its value rounded to FP_FMT. R103 says nothing anywhere else (logs 2, 3). -/
def pow (fmt : FpFmt) (x g : F64) : F64 :=
  if F64.inUnit x && validGamma g then
    if g = F64.one then x
    else
      let m := (Config.powUnit g (Fin.ofNat (oneCode + 1) (F64.mag x))).val
      F64.make false (F64.roundMag fmt (F64.unitsOfMag m) 1)
  else Config.powElsewhere x g

/-- `round(x)`: the nearest integer to the exact value, halves away from zero (40_gamma R104). -/
def roundHalfAway (x : F64) : Int :=
  if F64.isFinite x then
    let m := (2 * F64.units x + F64.scale) / (2 * F64.scale)
    if F64.sign x then -(m : Int) else m
  else Config.roundElsewhere x

/-- `trunc(x)`: the integer part, toward zero (40_gamma R105). -/
def truncToInt (x : F64) : Int :=
  if F64.isFinite x then
    let m := F64.units x / F64.scale
    if F64.sign x then -(m : Int) else m
  else Config.truncElsewhere x

end Sys2Proof.Machine
end

