-- ==== Sys2Proof/Machine/Flags.lean ====
section
/-! DEFINITION. The words the host reads from STATUS, CTRL and META_FLAGS, bit by bit (10_state R24, R26, R31,
R46; 60_exceptions R170). Reserved bits read 0. -/

namespace Sys2Proof.Machine

/-- The code of a pipeline state (10_state R46). -/
def Stage.code (g : Stage) : BitVec 3 :=
  match g with
  | .init => 0
  | .validating => 1
  | .preparingOutput => 2
  | .processing => 3
  | .done => 4
  | .failed => 5

/-- The code of an error (60_exceptions R170). -/
def ErrCode.code (e : ErrCode) : BitVec 4 :=
  match e with
  | .none => 0
  | .invalidGamma => 1
  | .badBitDepth => 2
  | .notRgb => 3
  | .tooFewSamples => 4
  | .notContiguous => 5
  | .writeError => 6
  | .outputError => 7
  | .lutNotBuilt => 8
  | .badMatrix => 9
  | .illegalCommand => 10
  | .nanOperand => 11

/-- STATUS (10_state R26): {0[31:16], ERR, 0[11:8], WIGN, TRUNC, LUT_VALID, BUSY, 0[3], STATE}. -/
def State.statusWord (s : State) : Word :=
  (0 : BitVec 16) ++ s.err.code ++ (0 : BitVec 4) ++ BitVec.ofBool s.wign ++ BitVec.ofBool s.trunc
    ++ BitVec.ofBool s.lutValid ++ BitVec.ofBool s.busy ++ (0 : BitVec 1) ++ s.stage.code

/-- CTRL.STRATEGY as a bit (10_state R24). -/
def Strategy.bit (g : Strategy) : Bool :=
  match g with
  | .lut => false
  | .power => true

/-- The strategy of CTRL bit 0 (10_state R24). -/
def Strategy.ofBit (b : Bool) : Strategy := if b then .power else .lut

/-- CTRL (10_state R24): {0[31:3], MSEL, STRATEGY}. -/
def State.ctrlWord (s : State) : Word :=
  (0 : BitVec 29) ++ s.msel ++ BitVec.ofBool s.strategy.bit

/-- META_FLAGS (10_state R31): {0[31:2], IS_CONTIG, IS_RGB}. -/
def State.metaFlagsWord (s : State) : Word :=
  (0 : BitVec 30) ++ BitVec.ofBool s.isContig ++ BitVec.ofBool s.isRgb

/-- The bit of STATUS that WAIT polls (10_state R26, 30_encoding R76). -/
def busyBit (status : Word) : Bool := status.getLsbD 4

end Sys2Proof.Machine
end

