-- ==== Sys2Proof/Machine/Operands.lean ====
section
/-! DEFINITION. Operands: the FP value of a register pair (10_state R47), the register map (R22), reads and
ungated writes of each register (R23 to R39, 20_memory R53 to R55). -/

namespace Sys2Proof.Machine

/-- The 64-bit pattern {HI, LO} that a pair holds (10_state R47). -/
def Pair.bits (p : Pair) : F64 := p.hi ++ p.lo

/-- `f64(NAME)`: the pattern read as an FP value (10_state R47). A pattern that is no value of a binary32 FP_FMT reads
as any binary32 value (log 29). -/
def Pair.f64 (fmt : FpFmt) (p : Pair) : F64 :=
  if F64.holds fmt p.bits then p.bits
  else
    let r := Config.readNarrow p.bits
    F64.make r.1 (FpFmt.magOfCode .binary32 r.2.val)

/-- `f64(GAMMA_IN)` (10_state R34, R47). -/
def State.gi (s : State) : F64 := s.gammaIn.f64 s.fpFmt

/-- `f64(GAMMA_OUT)` (10_state R35, R47). -/
def State.go (s : State) : F64 := s.gammaOut.f64 s.fpFmt

/-- `f64(FV0)`, `f64(FV1)`, `f64(FV2)` (10_state R38, R47). -/
def State.lanes (s : State) : Lanes F64 := s.fv.map (Pair.f64 s.fpFmt)

/-- The pair that holds a pattern: _LO bits 31:0, _HI bits 63:32 (20_memory R53). -/
def Pair.ofF64 (x : F64) : Pair := ⟨x.extractLsb' 32 32, x.extractLsb' 0 32⟩

/-- Every register of the window, in the order of 10_state R22. -/
def Reg.all : List Reg :=
  [.id, .ctrl, .cmd, .status, .width, .height, .bps, .spp, .metaFlags, .rowsPerStrip, .rowsDone,
   .gammaInLo, .gammaInHi, .gammaOutLo, .gammaOutHi, .pixInR, .pixInG, .pixInB,
   .pixOutR, .pixOutG, .pixOutB, .fv0Lo, .fv0Hi, .fv1Lo, .fv1Hi, .fv2Lo, .fv2Hi]

/-- The byte offset of a register (10_state R22). -/
def Reg.offset (r : Reg) : Nat :=
  match r with
  | .id => 0x000
  | .ctrl => 0x004
  | .cmd => 0x008
  | .status => 0x00C
  | .width => 0x010
  | .height => 0x014
  | .bps => 0x018
  | .spp => 0x01C
  | .metaFlags => 0x020
  | .rowsPerStrip => 0x024
  | .rowsDone => 0x028
  | .gammaInLo => 0x030
  | .gammaInHi => 0x034
  | .gammaOutLo => 0x038
  | .gammaOutHi => 0x03C
  | .pixInR => 0x040
  | .pixInG => 0x044
  | .pixInB => 0x048
  | .pixOutR => 0x050
  | .pixOutG => 0x054
  | .pixOutB => 0x058
  | .fv0Lo => 0x060
  | .fv0Hi => 0x064
  | .fv1Lo => 0x068
  | .fv1Hi => 0x06C
  | .fv2Lo => 0x070
  | .fv2Hi => 0x074

/-- How the host may use a register (10_state R22). -/
def Reg.kind (r : Reg) : AccessKind :=
  match r with
  | .id | .status | .rowsDone | .pixOutR | .pixOutG | .pixOutB => .ro
  | .cmd => .wo
  | .ctrl | .width | .height | .bps | .spp | .metaFlags | .rowsPerStrip
  | .gammaInLo | .gammaInHi | .gammaOutLo | .gammaOutHi | .pixInR | .pixInG | .pixInB
  | .fv0Lo | .fv0Hi | .fv1Lo | .fv1Hi | .fv2Lo | .fv2Hi => .rw

/-- The register at an offset; none at a reserved offset (10_state R22, R39). -/
def Reg.ofOffset (o : Nat) : Option Reg := Reg.all.find? fun r => r.offset == o

/-- The address of an offset on the platform's bus (20_memory R51; log 20). -/
def busAddress (o : Nat) : Nat := Config.ccbBase + o

/-- The constant of the ID register (10_state R23). -/
def idWord : Word := 0x43434201

/-- The value a read of a register returns (10_state R22 to R38; CMD reads 0, R25). -/
def State.readReg (s : State) (r : Reg) : Word :=
  match r with
  | .id => idWord
  | .ctrl => s.ctrlWord
  | .cmd => 0
  | .status => s.statusWord
  | .width => s.width
  | .height => s.height
  | .bps => s.bps
  | .spp => s.spp
  | .metaFlags => s.metaFlagsWord
  | .rowsPerStrip => s.rowsPerStrip
  | .rowsDone => s.rowsDone
  | .gammaInLo => s.gammaIn.lo
  | .gammaInHi => s.gammaIn.hi
  | .gammaOutLo => s.gammaOut.lo
  | .gammaOutHi => s.gammaOut.hi
  | .pixInR => s.pixIn.r.zeroExtend 32
  | .pixInG => s.pixIn.g.zeroExtend 32
  | .pixInB => s.pixIn.b.zeroExtend 32
  | .pixOutR => s.pixOut.r.zeroExtend 32
  | .pixOutG => s.pixOut.g.zeroExtend 32
  | .pixOutB => s.pixOut.b.zeroExtend 32
  | .fv0Lo => s.fv.r.lo
  | .fv0Hi => s.fv.r.hi
  | .fv1Lo => s.fv.g.lo
  | .fv1Hi => s.fv.g.hi
  | .fv2Lo => s.fv.b.lo
  | .fv2Hi => s.fv.b.hi

/-- The value a read at an offset returns; a reserved offset reads 0 (10_state R39, 20_memory R54). -/
def State.readAt (s : State) (o : Nat) : Word :=
  match Reg.ofOffset o with
  | some r => s.readReg r
  | none => 0

/-- What a write to a register that is not gated and is not CMD stores: read-only registers ignore it
(20_memory R54), reserved bits ignore it (10_state R24, R31, R36), a GAMMA half also clears LUT_VALID
(R42). CMD stores nothing: `issueCommand` (Machine/HostBus.lean) runs its word (R25). -/
def State.writeReg (s : State) (r : Reg) (w : Word) : State :=
  match r with
  | .id | .cmd | .status | .rowsDone | .pixOutR | .pixOutG | .pixOutB => s
  | .ctrl => { s with strategy := Strategy.ofBit (w.getLsbD 0), msel := w.extractLsb' 1 2 }
  | .width => { s with width := w }
  | .height => { s with height := w }
  | .bps => { s with bps := w }
  | .spp => { s with spp := w }
  | .metaFlags => { s with isRgb := w.getLsbD 0, isContig := w.getLsbD 1 }
  | .rowsPerStrip => { s with rowsPerStrip := w }
  | .gammaInLo => { s with gammaIn := { s.gammaIn with lo := w }, lutValid := false }
  | .gammaInHi => { s with gammaIn := { s.gammaIn with hi := w }, lutValid := false }
  | .gammaOutLo => { s with gammaOut := { s.gammaOut with lo := w }, lutValid := false }
  | .gammaOutHi => { s with gammaOut := { s.gammaOut with hi := w }, lutValid := false }
  | .pixInR => { s with pixIn := { s.pixIn with r := w.extractLsb' 0 16 } }
  | .pixInG => { s with pixIn := { s.pixIn with g := w.extractLsb' 0 16 } }
  | .pixInB => { s with pixIn := { s.pixIn with b := w.extractLsb' 0 16 } }
  | .fv0Lo => { s with fv := { s.fv with r := { s.fv.r with lo := w } } }
  | .fv0Hi => { s with fv := { s.fv with r := { s.fv.r with hi := w } } }
  | .fv1Lo => { s with fv := { s.fv with g := { s.fv.g with lo := w } } }
  | .fv1Hi => { s with fv := { s.fv with g := { s.fv.g with hi := w } } }
  | .fv2Lo => { s with fv := { s.fv with b := { s.fv.b with lo := w } } }
  | .fv2Hi => { s with fv := { s.fv with b := { s.fv.b with hi := w } } }

end Sys2Proof.Machine
end

