-- ==== Sys2Proof/Machine/Gamma.lean ====
section
/-! DEFINITION. The sample Normalizer (40_gamma R100 to R102), the gamma tables and BUILD (R106 to R109), gamma
decode and DEC3 (R110 to R112), clamp, re-quantization, gamma encode and ENC3 (R113 to R118). -/

namespace Sys2Proof.Machine

/-- An 8-bit sample widened to 16 bits: shifted into the upper byte, or as it is (40_gamma R100, R101). -/
def widen8 (mode : WidenMode) (x : Sample) : Sample :=
  match mode with
  | .shift => x <<< 8
  | .direct => x

/-- The Normalizer on a row of samples of BPS bits: 8-bit samples are widened, 16-bit samples pass unchanged, any
other depth is its UnsupportedBitDepth failure (40_gamma R100 to R102). -/
def normalizeRow (mode : WidenMode) (bps : Word) (row : Row) : Option Row :=
  if bps = 8 then some (row.map (widen8 mode))
  else if bps = 16 then some row
  else none

/-- An encode-table entry (40_gamma R106). -/
def encodeEntry (fmt : FpFmt) (go : F64) (i : Nat) : Sample :=
  BitVec.ofInt 16
    (roundHalfAway (fmul fmt (pow fmt (fdiv fmt (F64.ofNat i) (F64.ofNat 16777215)) go) (F64.ofNat 65535)))

/-- A decode-table entry (40_gamma R107); also the Power-path decode (R110). -/
def decodeEntry (fmt : FpFmt) (gi : F64) (i : Nat) : F64 :=
  pow fmt (fdiv fmt (F64.ofNat i) (F64.ofNat 65535)) gi

/-- DLUT for an exponent (40_gamma R107). -/
def buildDlut (fmt : FpFmt) (gi : F64) : Table F64 := Table.ofFn dlutBits (decodeEntry fmt gi) 0

/-- ELUT for an exponent (40_gamma R106). -/
def buildElut (fmt : FpFmt) (go : F64) : Table Sample := Table.ofFn elutBits (encodeEntry fmt go) 0

/-- The checks and the effect of BUILD (40_gamma R108). -/
def buildBody (s : State) : Except ErrCode State :=
  if validGamma s.gi && validGamma s.go then
    .ok { s with dlut := buildDlut s.fpFmt s.gi, elut := buildElut s.fpFmt s.go, lutValid := true }
  else .error .invalidGamma

/-- BUILD (40_gamma R108). -/
def execBuild (s : State) : Host.Outcome State Fault Refusal := runCommand buildBody s

/-- `decode(s)` (40_gamma R110). -/
def State.decodeSample (s : State) (x : Sample) : F64 :=
  match s.strategy with
  | .lut => s.dlut.read dlutBits x.toNat
  | .power => decodeEntry s.fpFmt s.gi x.toNat

/-- The checks and the effect of DEC3 (40_gamma R112). -/
def dec3Body (s : State) : Except ErrCode State :=
  if s.strategy = .lut ∧ s.lutValid = false then .error .lutNotBuilt
  else if s.strategy = .power ∧ validGamma s.gi = false then .error .invalidGamma
  else .ok { s with fv := (s.pixIn.map s.decodeSample).map Pair.ofF64 }

/-- DEC3 (40_gamma R112). -/
def execDec3 (s : State) : Host.Outcome State Fault Refusal := runCommand dec3Body s

/-- `clamp(v)` (40_gamma R113); it is never applied to a NaN. -/
def clamp (v : F64) : F64 :=
  if F64.le v F64.posZero then F64.posZero
  else if F64.le F64.one v then F64.one
  else v

/-- `quant24(c)` (40_gamma R114). -/
def quant24 (fmt : FpFmt) (c : F64) : BitVec 24 :=
  BitVec.ofInt 24 (roundHalfAway (fmul fmt c (F64.ofNat 16777215)))

/-- `enc_lut(c)` (40_gamma R115). -/
def encLut (fmt : FpFmt) (elut : Table Sample) (c : F64) : Sample := elut.read elutBits (quant24 fmt c).toNat

/-- The 12-bit quantization of the Power path (40_gamma R116). -/
def quant12 (mode : PqMode) (p : F64) : Int :=
  match mode with
  | .trunc => truncToInt p
  | .round => roundHalfAway p

/-- `enc_pow(c)` (40_gamma R116): q · 16. -/
def encPow (fmt : FpFmt) (mode : PqMode) (go : F64) (c : F64) : Sample :=
  BitVec.ofInt 16 (quant12 mode (fmul fmt (pow fmt c go) (F64.ofNat 4095)) * 16)

/-- `encode(c)` (40_gamma R117). -/
def State.encodeValue (s : State) (c : F64) : Sample :=
  match s.strategy with
  | .lut => encLut s.fpFmt s.elut c
  | .power => encPow s.fpFmt Config.pqMode s.go c

/-- Some lane of FV is a NaN (40_gamma R118). -/
def State.fvHasNaN (s : State) : Bool :=
  F64.isNaN s.lanes.r || F64.isNaN s.lanes.g || F64.isNaN s.lanes.b

/-- The checks and the effect of ENC3 (40_gamma R118). -/
def enc3Body (s : State) : Except ErrCode State :=
  if s.strategy = .lut ∧ s.lutValid = false then .error .lutNotBuilt
  else if s.strategy = .power ∧ validGamma s.go = false then .error .invalidGamma
  else if s.fvHasNaN then .error .nanOperand
  else .ok { s with pixOut := s.lanes.map fun v => s.encodeValue (clamp v) }

/-- ENC3 (40_gamma R118). -/
def execEnc3 (s : State) : Host.Outcome State Fault Refusal := runCommand enc3Body s

end Sys2Proof.Machine
end

