-- ==== Sys2Proof/Machine/Matrix.lean ====
section
/-! DEFINITION. The colour-matrix multiplier: the matrix ROM (41_matrix R130), apply (R131), MAT3 (R132). -/

namespace Sys2Proof.Machine

/-- A 3x3 FP matrix: one lane per row, one lane per column in it (41_matrix R130). -/
abbrev Matrix3 := Lanes (Lanes F64)

/-- The coefficient 0.nnnnnnnnnn with ten decimals, converted to the nearest FP_FMT value (41_matrix R130). -/
def tenDecimals (fmt : FpFmt) (n : Nat) : F64 := F64.ofRatio fmt false n 10000000000

/-- The coefficient 0.nnnn with four decimals, converted to the nearest FP_FMT value (41_matrix R130). -/
def fourDecimals (fmt : FpFmt) (n : Nat) : F64 := F64.ofRatio fmt false n 10000

/-- MSEL = 0, Identity (41_matrix R130); 1.0 and 0.0 are values of both formats. -/
def identityMatrix : Matrix3 :=
  ⟨⟨0x3FF0000000000000, 0x0000000000000000, 0x0000000000000000⟩,
   ⟨0x0000000000000000, 0x3FF0000000000000, 0x0000000000000000⟩,
   ⟨0x0000000000000000, 0x0000000000000000, 0x3FF0000000000000⟩⟩

/-- MSEL = 1, SMPTE-DC28.30 (41_matrix R130). -/
def smpteMatrix (fmt : FpFmt) : Matrix3 :=
  ⟨⟨tenDecimals fmt 4451698156, tenDecimals fmt 2771344092, tenDecimals fmt 1722826698⟩,
   ⟨tenDecimals fmt 2094916779, tenDecimals fmt 7215952542, tenDecimals fmt 689130679⟩,
   ⟨F64.posZero, tenDecimals fmt 470605601, tenDecimals fmt 9073553944⟩⟩

/-- MSEL = 2, StEM (41_matrix R130). -/
def stemMatrix (fmt : FpFmt) : Matrix3 :=
  ⟨⟨fourDecimals fmt 4640, fourDecimals fmt 2692, fourDecimals fmt 1610⟩,
   ⟨fourDecimals fmt 2185, fourDecimals fmt 7010, fourDecimals fmt 805⟩,
   ⟨F64.posZero, fourDecimals fmt 457, fourDecimals fmt 9087⟩⟩

/-- `M[msel]`; MSEL = 3 selects no matrix (41_matrix R130). -/
def matrixRom (fmt : FpFmt) (msel : BitVec 2) : Option Matrix3 :=
  if msel = 0 then some identityMatrix
  else if msel = 1 then some (smpteMatrix fmt)
  else if msel = 2 then some (stemMatrix fmt)
  else none

/-- One output lane: left-to-right sum of the rounded products (41_matrix R131). -/
def dot3 (fmt : FpFmt) (row v : Lanes F64) : F64 :=
  fadd fmt (fadd fmt (fmul fmt row.r v.r) (fmul fmt row.g v.g)) (fmul fmt row.b v.b)

/-- `apply(M, v)` (41_matrix R131). -/
def applyMatrix (fmt : FpFmt) (m : Matrix3) (v : Lanes F64) : Lanes F64 := m.map fun row => dot3 fmt row v

/-- The pattern a lane result is written as: a NaN takes free bits, for its payload is any (41_matrix R132;
log 5). -/
def settleNaN (bits : F64) (x : F64) : F64 := if F64.isNaN x then F64.anyNaN bits else x

/-- The patterns MAT3 writes for three results, the NaN payloads drawn per lane (41_matrix R132; log 5). -/
def settleLanes (draw : Nat) (o : Lanes F64) : Lanes F64 :=
  ⟨settleNaN (Config.nanBits draw 0) o.r, settleNaN (Config.nanBits draw 1) o.g,
   settleNaN (Config.nanBits draw 2) o.b⟩

/-- The checks and the effect of MAT3 (41_matrix R132); the three results come from the old lanes. -/
def mat3Body (s : State) : Except ErrCode State :=
  match matrixRom s.fpFmt s.msel with
  | none => .error .badMatrix
  | some m =>
    .ok { s with
      fv := (settleLanes s.draws (applyMatrix s.fpFmt m s.lanes)).map Pair.ofF64
      draws := s.draws + 1 }

/-- MAT3 (41_matrix R132). -/
def execMat3 (s : State) : Host.Outcome State Fault Refusal := runCommand mat3Body s

end Sys2Proof.Machine
end

