-- ==== Sys2Proof/Machine/Pipeline.lean ====
section
/-! DEFINITION. The conversion of a pixel and PIXEL (42_pipeline R140, R141), of a row (R142, R143), the issue of
RUN (R144) and NOP (R156). The engine's steps of a run are in Machine/Engine.lean. -/

namespace Sys2Proof.Machine

/-- `conv_pixel(s)` with the matrix selected: decode, apply, clamp, encode (42_pipeline R140). -/
def State.convPixel (s : State) (m : Matrix3) (px : Lanes Sample) : Lanes Sample :=
  (applyMatrix s.fpFmt m (px.map s.decodeSample)).map fun v => s.encodeValue (clamp v)

/-- The checks and the effect of PIXEL (42_pipeline R141). -/
def pixelBody (s : State) : Except ErrCode State :=
  match matrixRom s.fpFmt s.msel with
  | none => .error .badMatrix
  | some m =>
    if s.strategy = .power ∧ (validGamma s.gi && validGamma s.go) = false then
      .error .invalidGamma
    else if s.strategy = .lut ∧ s.lutValid = false then .error .lutNotBuilt
    else .ok { s with pixOut := s.convPixel m s.pixIn }

/-- PIXEL (42_pipeline R141). -/
def execPixel (s : State) : Host.Outcome State Fault Refusal := runCommand pixelBody s

/-- The R, G, B samples of pixel p of a normalized row with spp samples a pixel (42_pipeline R142); a row of
the stated shape has them all (20_memory R59; log 17). -/
def pixelOfRow (spp p : Nat) (row : Row) : Lanes Sample :=
  ⟨row.getD (p * spp) 0, row.getD (p * spp + 1) 0, row.getD (p * spp + 2) 0⟩

/-- The three samples of a pixel in lane order (42_pipeline R143). -/
def Lanes.toRow (px : Lanes Sample) : Row := [px.r, px.g, px.b]

/-- `conv_row(x)` on a normalized row, with the matrix selected (42_pipeline R143). -/
def State.convRow (s : State) (m : Matrix3) (row : Row) : Row :=
  (List.range s.width.toNat).flatMap fun p =>
    Lanes.toRow (s.convPixel m (pixelOfRow s.spp.toNat p row))

/-- RUN: the issue, which starts a fresh run from Init (42_pipeline R144, 60_exceptions R184). An answer of an
earlier run cannot be on the port, for no request is outstanding while BUSY = 0 (10_state R45). -/
def execRun (s : State) : Host.Outcome State Fault Refusal :=
  .next { s.beginCommand with
    trunc := false
    rowsDone := 0
    stage := .init
    busy := true
    pend := .none }

/-- NOP: the start-of-command clear and nothing else (42_pipeline R156). -/
def execNop (s : State) : Host.Outcome State Fault Refusal := .next s.beginCommand

end Sys2Proof.Machine
end

