-- ==== Sys2Proof/Machine/Engine.lean ====
section
/-! DEFINITION. The engine's steps of a run (42_pipeline R145 to R154, R157). Each is one atomic step; the
engine has a step exactly when one of them is enabled. -/

namespace Sys2Proof.Machine

/-- The seven checks of Validating in order, each with the error it raises (42_pipeline R146). -/
def State.validationChecks (s : State) : List (Bool × ErrCode) :=
  [(s.bps == 8 || s.bps == 16, .badBitDepth),
   (s.isRgb, .notRgb),
   (decide (3 ≤ s.spp.toNat), .tooFewSamples),
   (s.isContig, .notContiguous),
   (s.msel != 3, .badMatrix),
   (validGamma s.gi && validGamma s.go, .invalidGamma),
   (s.strategy == .power || s.lutValid, .lutNotBuilt)]

/-- The output metadata a run declares (42_pipeline R147). -/
def State.runMetadata (s : State) : Metadata where
  width           := s.width
  height          := s.height
  bitsPerSample   := 16
  samplesPerPixel := 3
  rowsPerStrip    := s.rowsPerStrip
  photometric     := .rgb
  planarConfig    := .contiguous

/-- Issue a request: it goes out on the accessor port and is outstanding (10_state R45, 20_memory R61). -/
def State.issue (req : Request) (p : Pend) (s : State) : State :=
  { s with requests := req :: s.requests, pend := p }

/-- Take the answer to the outstanding request (10_state R45). -/
def State.takeAnswer (s : State) : State := { s with answer := none, pend := .none }

/-- The buffers after the step that used them: any value (10_state R44; log 7). -/
def State.releaseBuffers (s : State) : State :=
  { s with
    inBuf := Config.inBufContents s.draws
    outBuf := Config.outBufContents s.draws
    draws := s.draws + 1 }

/-- Init (42_pipeline R145). -/
def stepInit (s : State) : State := { s with stage := .validating }

/-- Validating (42_pipeline R146). -/
def stepValidating (s : State) : State :=
  match firstFailure s.validationChecks with
  | some code => s.raise .run code
  | none => { s with stage := .preparingOutput }

/-- PreparingOutput, issue (42_pipeline R147). -/
def stepIssueMeta (s : State) : State := s.issue (.setMeta s.runMetadata) .metaPending

/-- PreparingOutput, response `Ok` (42_pipeline R148). -/
def stepMetaOk (s : State) : State := { s.takeAnswer with stage := .processing }

/-- PreparingOutput, response `Error` (42_pipeline R148). -/
def stepMetaError (s : State) : State := s.takeAnswer.raise .run .outputError

/-- Processing, end of image (42_pipeline R149). -/
def stepEndOfImage (s : State) : State := { s with stage := .done, busy := false }

/-- Processing, row read (42_pipeline R150). -/
def stepReadRow (s : State) : State := s.issue (.readRow s.rowsDone) (.readPending s.rowsDone)

/-- Processing, truncated read (42_pipeline R151). -/
def stepTruncated (s : State) : State :=
  { s.takeAnswer with trunc := true, stage := .done, busy := false }

/-- Processing, row convert and write (42_pipeline R152). The Normalizer's failure and a missing matrix cannot
occur there (40_gamma R102, R146 check 5); they end the run with the error of their condition (log 17). -/
def stepConvertRow (r : Word) (x : Row) (s : State) : State :=
  match normalizeRow .shift s.bps x, matrixRom s.fpFmt s.msel with
  | none, _ => s.takeAnswer.raise .run .badBitDepth
  | some _, none => s.takeAnswer.raise .run .badMatrix
  | some row, some m =>
    let out := s.convRow m row
    { (s.issue (.writeRow r out) (.writePending r)) with inBuf := x, outBuf := out, answer := none }

/-- Processing, row written (42_pipeline R153). -/
def stepRowWritten (r : Word) (s : State) : State :=
  { s.takeAnswer.releaseBuffers with rowsDone := r + 1 }

/-- Processing, write failure (42_pipeline R154). -/
def stepWriteFailed (s : State) : State := s.takeAnswer.releaseBuffers.raise .run .writeError

/-- PreparingOutput: issue, then wait for the answer (42_pipeline R147, R148). -/
def State.preparingStep (s : State) : Option State :=
  match s.pend with
  | .none => some (stepIssueMeta s)
  | .metaPending =>
    match s.answer with
    | some .ok => some (stepMetaOk s)
    | some .error => some (stepMetaError s)
    | some (.row _) | some .endOfData | some .writeFailed | none => none
  | .readPending _ | .writePending _ => none

/-- Processing with no request outstanding: the end of the image, or the next read (42_pipeline R149, R150). -/
def State.nextRowStep (s : State) : Option State :=
  if s.rowsDone = s.height then some (stepEndOfImage s)
  else if s.rowsDone.toNat < s.height.toNat then some (stepReadRow s)
  else none

/-- Processing (42_pipeline R149 to R154). -/
def State.processingStep (s : State) : Option State :=
  match s.pend with
  | .none => s.nextRowStep
  | .readPending r =>
    match s.answer with
    | some (.row x) => some (stepConvertRow r x s)
    | some .endOfData => some (stepTruncated s)
    | some .ok | some .error | some .writeFailed | none => none
  | .writePending r =>
    match s.answer with
    | some .ok => some (stepRowWritten r s)
    | some .writeFailed => some (stepWriteFailed s)
    | some (.row _) | some .endOfData | some .error | none => none
  | .metaPending => none

/-- The engine's step: none with BUSY = 0 or while it waits for the accessor (42_pipeline R157, 20_memory R67). -/
def engineStep (s : State) : Option State :=
  if s.busy then
    match s.stage with
    | .init => some (stepInit s)
    | .validating => some (stepValidating s)
    | .preparingOutput => s.preparingStep
    | .processing => s.processingStep
    | .done | .failed => none
  else none

end Sys2Proof.Machine
end

