-- ==== Sys2Proof/WellFormed.lean ====
section
/-! DEFINITION. Well-formedness: of a command word (30_encoding R70, R72), of a command (every one, for no
command has an operand, 30_encoding R71) and of a host access (20_memory R52). -/

namespace Sys2Proof

/-- RSV must be zero (30_encoding R70). -/
def Cmd32.rsvZero (c : Cmd32) : Bool := c.rsv == 0

/-- OPC is one of the seven operation codes 0x00 to 0x06 (30_encoding R72). -/
def Cmd32.opcKnown (c : Cmd32) : Bool := decide (c.opc.toNat ≤ 6)

/-- A command word spells a command exactly when both hold (30_encoding R72, R73). -/
def Cmd32.wf (c : Cmd32) : Bool := c.rsvZero && c.opcKnown

/-- Every command is well formed: it has no operand to check (30_encoding R71). -/
def Instr.wf (i : Instr) : Bool :=
  match i with
  | .nop => true
  | .build => true
  | .run => true
  | .dec3 => true
  | .mat3 => true
  | .enc3 => true
  | .pixel => true

/-- Only 32-bit accesses have a step (20_memory R52). -/
def Machine.Access.widthOk (a : Machine.Access) : Bool := a.bytes == 4

/-- Only aligned accesses have a step (20_memory R52). -/
def Machine.Access.aligned (a : Machine.Access) : Bool := a.offset % 4 == 0

/-- Only offsets up to 0x0FC have a step (20_memory R52). -/
def Machine.Access.inWindow (a : Machine.Access) : Bool := decide (a.offset ≤ 0x0FC)

/-- The access is one the window takes (20_memory R52). -/
def Machine.Access.wf (a : Machine.Access) : Bool := a.widthOk && a.aligned && a.inWindow

end Sys2Proof
end

