-- ==== Sys2Proof/Decode.lean ====
section
/-! DEFINITION. Decoding and encoding of a command word (30_encoding R70, R72 to R74). A command is one
32-bit word; there is no byte order to choose (20_memory R53; log 23). -/

namespace Sys2Proof

/-- Why a word spells no command (30_encoding R73). -/
inductive DecodeError
  /-- Bits 31:8 are not zero. -/
  | reservedBits
  /-- OPC is in 0x07..0xFF. -/
  | unknownOpcode
deriving DecidableEq, Repr

/-- The fields of a command word (30_encoding R70). -/
def Cmd32.ofWord (w : Word) : Cmd32 := ⟨w.extractLsb' 8 24, w.extractLsb' 0 8⟩

/-- The word of the two fields (30_encoding R70). -/
def Cmd32.toWord (c : Cmd32) : Word := c.rsv ++ c.opc

/-- The command of an operation code (30_encoding R72). -/
def instrOfOpc (opc : BitVec 8) : Option Instr :=
  match opc.toNat with
  | 0x00 => some .nop
  | 0x01 => some .build
  | 0x02 => some .run
  | 0x03 => some .dec3
  | 0x04 => some .mat3
  | 0x05 => some .enc3
  | 0x06 => some .pixel
  | _ => none

/-- Decoding depends on the word alone (30_encoding R74): RSV first, then OPC (R73). -/
def decode (w : Word) : Except DecodeError Instr :=
  let c := Cmd32.ofWord w
  if c.rsvZero then
    match instrOfOpc c.opc with
    | some i => .ok i
    | none => .error .unknownOpcode
  else .error .reservedBits

/-- The operation code of a command (30_encoding R72). -/
def Instr.opc (i : Instr) : BitVec 8 :=
  match i with
  | .nop => 0x00
  | .build => 0x01
  | .run => 0x02
  | .dec3 => 0x03
  | .mat3 => 0x04
  | .enc3 => 0x05
  | .pixel => 0x06

/-- The word of a command: RSV = 0 (30_encoding R70, R72). -/
def encode (i : Instr) : Word := Cmd32.toWord ⟨0, i.opc⟩

/-- The command read from `nbits` bits numbered as spec/opcode_table.json numbers them: bit 0 is bit 0 of
the one word, the bits from `nbits` up are zero, and no command is longer than 32 bits (log 23). -/
def decodeTableWord (nbits w : Nat) : Option Instr :=
  if nbits ≤ 32 then
    match decode (BitVec.ofNat 32 (w % 2 ^ nbits)) with
    | .ok i => some i
    | .error _ => none
  else none

end Sys2Proof
end

