-- ==== Sys2Proof/Machine/Dispatch.lean ====
section
/-! DEFINITION. One arm per command (30_encoding R72): the meaning of the command once it is accepted. -/

namespace Sys2Proof.Machine

def exec (i : Instr) (s : State) : Host.Outcome State Fault Refusal :=
  match i with
  | .nop => Sys2Proof.Machine.execNop s
  | .build => Sys2Proof.Machine.execBuild s
  | .run => Sys2Proof.Machine.execRun s
  | .dec3 => Sys2Proof.Machine.execDec3 s
  | .mat3 => Sys2Proof.Machine.execMat3 s
  | .enc3 => Sys2Proof.Machine.execEnc3 s
  | .pixel => Sys2Proof.Machine.execPixel s

end Sys2Proof.Machine
end

