-- ==== Sys2Proof/Machine/HostBus.lean ====
section
/-! DEFINITION. The host's step: one register access of its program (20_memory R51 to R56, 10_state R48,
30_encoding R75, R76), and the issue of a command by a write to CMD (10_state R25). -/

namespace Sys2Proof.Machine

/-- A 32-bit access at an offset (20_memory R51). -/
def wordAt (o : Nat) : Access := ⟨4, o⟩

/-- `CMD <mnemonic>` (30_encoding R76). -/
def HostOp.cmd (i : Instr) : HostOp := .write (wordAt Reg.cmd.offset) (encode i)

/-- The lower half's register of a pair that WR64 names (30_encoding R76). -/
def PairName.lo (p : PairName) : Reg :=
  match p with
  | .gammaIn => .gammaInLo
  | .gammaOut => .gammaOutLo
  | .fv0 => .fv0Lo
  | .fv1 => .fv1Lo
  | .fv2 => .fv2Lo

/-- The upper half's register of a pair that WR64 names (30_encoding R76). -/
def PairName.hi (p : PairName) : Reg :=
  match p with
  | .gammaIn => .gammaInHi
  | .gammaOut => .gammaOutHi
  | .fv0 => .fv0Hi
  | .fv1 => .fv1Hi
  | .fv2 => .fv2Hi

/-- `WR64 <pair>, <fp>`: the lower half, then the upper half (30_encoding R76). -/
def HostOp.wr64 (p : PairName) (x : F64) : List HostOp :=
  [.write (wordAt p.lo.offset) (Pair.ofF64 x).lo, .write (wordAt p.hi.offset) (Pair.ofF64 x).hi]

/-- The CTRL word of the tool's options: MSEL 0, 2 or 1, and STRATEGY = 1 for `-p` (30_encoding R77, 10_state R24). -/
def CliOptions.ctrlWord (o : CliOptions) : Word :=
  let msel : BitVec 2 :=
    match o.matrix with
    | .optionOne => 0
    | .optionS => 2
    | .neither => 1
  (0 : BitVec 29) ++ msel ++ BitVec.ofBool o.p

/-- The host writes the tool's options stand for (30_encoding R77). R77 gives them no order and 70_reset R193 lets the
host swap them: CTRL, then GAMMA_IN, then ROWS_PER_STRIP is the model's choice (DESIGN CHOICE, log 28). -/
def CliOptions.writes (o : CliOptions) : List HostOp :=
  [.write (wordAt Reg.ctrl.offset) o.ctrlWord]
    ++ (match o.g with
        | some x => HostOp.wr64 .gammaIn x
        | none => [])
    ++ (match o.r with
        | some w => [.write (wordAt Reg.rowsPerStrip.offset) w]
        | none => [])

/-- A command word accepted from CMD (10_state R25): a command runs; a word that spells none clears ERR and WIGN
and raises ILLEGAL_COMMAND (30_encoding R73, 60_exceptions R180, R184). -/
def issueCommand (w : Word) (s : State) : Host.Outcome State Fault Refusal :=
  match decode w with
  | .ok i => exec i s
  | .error _ => .next (s.beginCommand.raise .command .illegalCommand)

/-- The registers a write to which is ignored even with BUSY = 1, without WIGN (10_state R48). -/
def Reg.ungated (r : Reg) : Bool :=
  match r with
  | .id | .status => true
  | .ctrl | .cmd | .width | .height | .bps | .spp | .metaFlags | .rowsPerStrip | .rowsDone
  | .gammaInLo | .gammaInHi | .gammaOutLo | .gammaOutHi | .pixInR | .pixInG | .pixInB
  | .pixOutR | .pixOutG | .pixOutB | .fv0Lo | .fv0Hi | .fv1Lo | .fv1Hi | .fv2Lo | .fv2Hi => false

/-- A host write to a register: gated while BUSY = 1 (10_state R48; log 16), else a command for CMD and a store for
the others. -/
def hostWriteReg (r : Reg) (w : Word) (s : State) : Host.Outcome State Fault Refusal :=
  if s.busy then
    if r.ungated then .next s else .next { s with wign := true }
  else if r = .cmd then issueCommand w s
  else .next (s.writeReg r w)

/-- A host write at an offset; a reserved offset ignores it (10_state R39). -/
def hostWrite (o : Nat) (w : Word) (s : State) : Host.Outcome State Fault Refusal :=
  match Reg.ofOffset o with
  | some r => hostWriteReg r w s
  | none => .next s

/-- A host read at an offset: the value goes to the host, the block does not change (20_memory R55). -/
def State.hostRead (o : Nat) (s : State) : State := { s with reads := s.readAt o :: s.reads }

/-- The host's step: the next line of its program (30_encoding R75, R76). An access that is not admitted has no step
(20_memory R52). WAIT stays until it reads BUSY = 0; CHECK records a mismatch (log 22). -/
def hostStep (s : State) : Host.Outcome State Fault Refusal :=
  match s.host with
  | [] => .fault (.noStep .host)
  | .write a w :: rest =>
    if a.wf then hostWrite a.offset w { s with host := rest } else .fault .unadmittedAccess
  | .read a :: rest =>
    if a.wf then .next (State.hostRead a.offset { s with host := rest }) else .fault .unadmittedAccess
  | .wait :: rest =>
    let done := !busyBit (s.readAt Reg.status.offset)
    .next (State.hostRead Reg.status.offset { s with host := if done then rest else s.host })
  | .check o v :: rest =>
    if (wordAt o).wf then
      .next (State.hostRead o
        { s with host := rest, checkFailed := s.checkFailed || s.readAt o != v })
    else .fault .unadmittedAccess

end Sys2Proof.Machine
end

