-- ==== Sys2Proof/Machine/Agents.lean ====
section
/-! DEFINITION. Whose turn it is and what a turn does (00_scope R5, 20_memory R62; log 11). -/

namespace Sys2Proof.Machine

/-- The accessor has an answer to give to a request that waits for one. -/
def State.accessorReady (s : State) : Bool :=
  s.pend != .none && s.answer.isNone && !s.replies.isEmpty

/-- Who moves when nobody is scheduled: the engine if it has a step (70_reset R200), else the accessor if it is
waited for and has an answer, else the host if it has a line left (log 11). -/
def defaultAgent (s : State) : Option Agent :=
  if (engineStep s).isSome then some .engine
  else if s.accessorReady then some .accessor
  else if !s.host.isEmpty then some .host
  else none

/-- One turn of an agent: its step, or the named fault that it has none. -/
def turn (a : Agent) (s : State) : Host.Outcome State Fault Refusal :=
  match a with
  | .engine =>
    match engineStep s with
    | some t => .next t
    | none => .fault (.noStep .engine)
  | .host => hostStep s
  | .accessor => accessorStep s
  | .reset => .next s.applyReset

/-- The step of the machine: the scheduled agent's turn, or the default agent's (log 11). -/
def machineStep (s : State) : Host.Outcome State Fault Refusal :=
  match s.sched with
  | a :: rest => turn a { s with sched := rest }
  | [] =>
    match defaultAgent s with
    | some a => turn a s
    | none => .fault .idle

/-- A command word placed as the host's next write to CMD, with the host's turn next. BUSY must be 0 for the write
to be accepted (10_state R48; logs 14, 24). -/
def placeCommand (w : Word) (s : State) : State :=
  { s with
    host := .write (wordAt Reg.cmd.offset) w :: s.host
    sched := .host :: s.sched
    busy := false }

end Sys2Proof.Machine
end

