-- ==== Sys2Proof/Machine/Step.lean ====
section
/-! DEFINITION. One step of the machine, and a command word placed where the next step takes it. -/

namespace Sys2Proof.Machine

/-- One step: one agent's turn (00_scope R5, 20_memory R62). -/
def step (s : State) : Host.Outcome State Fault Refusal := machineStep s

/-- The state whose next step writes the word to CMD with BUSY = 0 (10_state R25; logs 14, 23, 24). -/
def State.withFetchWord (s : State) (nbits w : Nat) : State :=
  placeCommand (BitVec.ofNat 32 (w % 2 ^ nbits)) s

end Sys2Proof.Machine
end

