-- ==== Sys2Proof/Safety.lean ====
section
/-! DEFINITION. What a good state of the CCB is: the invariant of the pipeline, of the tables, of the accessor
port and of the output rows, with the whole-machine facts of the spec it gathers; how a run may end; how many
engine steps a run has left. -/

namespace Sys2Proof.Machine

/-- While LUT_VALID = 1 the tables are those of the current, valid gammas (10_state R42, 40_gamma R108). -/
def State.TablesCurrent (s : State) : Prop :=
  s.lutValid = true →
    validGamma s.gi = true ∧ validGamma s.go = true ∧
      s.dlut = buildDlut s.fpFmt s.gi ∧ s.elut = buildElut s.fpFmt s.go

/-- BUSY = 1 exactly in a run that has not ended: never in Done or Failed, and never 0 between Validating and
Processing (42_pipeline R155, R157). -/
def State.StageFitsBusy (s : State) : Prop :=
  match s.stage with
  | .init => True
  | .validating | .preparingOutput | .processing => s.busy = true
  | .done | .failed => s.busy = false

/-- A request is outstanding only in the stage that issues it, and for the row ROWS_DONE (10_state R45,
42_pipeline R147, R150, R152). -/
def State.PendFitsStage (s : State) : Prop :=
  match s.pend with
  | .none => True
  | .metaPending => s.stage = .preparingOutput
  | .readPending r | .writePending r =>
    s.stage = .processing ∧ r = s.rowsDone ∧ s.rowsDone.toNat < s.height.toNat

/-- An answer on the port is an answer to the outstanding request (20_memory R59, R60, R67). -/
def State.AnswerFitsPend (s : State) : Prop :=
  match s.answer with
  | none => True
  | some a => s.admitsAnswer a = true

/-- From PreparingOutput on, the seven checks of Validating hold (42_pipeline R146, 20_memory R66). -/
def State.Validated (s : State) : Prop :=
  s.stage = .preparingOutput ∨ s.stage = .processing → firstFailure s.validationChecks = none

/-- While a run is going on, TRUNC = 0, ERR = NONE, and ROWS_DONE is 0 before Processing and at most HEIGHT in it
(10_state R21, R33, 42_pipeline R144). -/
def State.RunCounters (s : State) : Prop :=
  s.busy = true →
    s.trunc = false ∧ s.err = .none ∧
      (if s.stage = .processing then s.rowsDone.toNat ≤ s.height.toNat else s.rowsDone = 0)

/-- While SetMeta is outstanding, the newest request declares the metadata of 42_pipeline R147; that the requests are
logged is the model's choice (log 12). -/
def State.MetaIsDeclared (s : State) : Prop :=
  s.pend = .metaPending → s.requests.head? = some (.setMeta s.runMetadata)

/-- While a row write is outstanding, IN_BUF holds a row of the stated shape and OUT_BUF its conversion, which is
the row of the newest request (42_pipeline R152). That the buffers keep them until the answer is the model's choice
(10_state R44 promises it for the step of R152 only; log 7), and so is the log of requests (log 12). -/
def State.WriteIsConversion (s : State) : Prop :=
  match s.pend with
  | .writePending r =>
    s.rowShapeOk s.inBuf = true ∧
      (∃ row m, normalizeRow .shift s.bps s.inBuf = some row ∧ matrixRom s.fpFmt s.msel = some m ∧
        s.outBuf = s.convRow m row) ∧
      s.requests.head? = some (.writeRow r s.outBuf)
  | .none | .metaPending | .readPending _ => True

/-- A request without its data, to state their order (20_memory R61). -/
inductive RequestTag
  | setMeta
  | readRow (r : Nat)
  | writeRow (r : Nat)
deriving DecidableEq, Repr

/-- The tag of a request. -/
def Request.tag (q : Request) : RequestTag :=
  match q with
  | .setMeta _ => .setMeta
  | .readRow r => .readRow r.toNat
  | .writeRow r _ => .writeRow r.toNat

/-- The requests of a run that has written n rows and has none outstanding, newest first: SetMeta, then ReadRow(r)
and WriteRow(r) for r = 0, 1, ... in strictly increasing order (20_memory R61). -/
def tagsAfterRows : Nat → List RequestTag
  | 0 => [.setMeta]
  | n + 1 => .writeRow n :: .readRow n :: tagsAfterRows n

/-- The requests the current run has issued, newest first (20_memory R61). -/
def State.runTags (s : State) : List RequestTag :=
  match s.stage, s.pend with
  | .preparingOutput, .metaPending => [.setMeta]
  | .processing, .none => tagsAfterRows s.rowsDone.toNat
  | .processing, .readPending r => .readRow r.toNat :: tagsAfterRows r.toNat
  | .processing, .writePending r => .writeRow r.toNat :: .readRow r.toNat :: tagsAfterRows r.toNat
  | _, _ => []

/-- The newest requests on the port are exactly those of the current run, in order (20_memory R61). -/
def State.RequestsInOrder (s : State) : Prop :=
  s.busy = true → s.runTags <+: s.requests.map Request.tag

/-- The invariant of the machine: every step keeps it, and reset has it. Its parts about the output rows, the buffers and
the request log rest on the model's choices of logs 7, 10 and 12. -/
structure State.Inv (s : State) : Prop where
  rowsCanonical     : Memory.wf s.outRows = true
  tablesCurrent     : s.TablesCurrent
  stageFitsBusy     : s.StageFitsBusy
  pendFitsStage     : s.PendFitsStage
  pendOnlyBusy      : s.busy = false → s.pend = .none
  answerFitsPend    : s.AnswerFitsPend
  validated         : s.Validated
  runCounters       : s.RunCounters
  metaIsDeclared    : s.MetaIsDeclared
  writeIsConversion : s.WriteIsConversion
  requestsInOrder   : s.RequestsInOrder

/-- The errors a failed check of Validating reports (42_pipeline R146). -/
def validationErrors : List ErrCode :=
  [.badBitDepth, .notRgb, .tooFewSamples, .notContiguous, .badMatrix, .invalidGamma, .lutNotBuilt]

/-- The three ways a run may end, by a step from s to t (42_pipeline R155): all rows written; truncated input; failed,
with the rows written before the failure, which are none for a validation or OUTPUT_ERROR failure and r for a failed
write of row r (R146, R148, R154). -/
def State.EndedAsStated (s t : State) : Prop :=
  (t.stage = .done ∧ t.trunc = false ∧ t.err = .none ∧ t.rowsDone = t.height) ∨
  (t.stage = .done ∧ t.trunc = true ∧ t.err = .none ∧ t.rowsDone.toNat < t.height.toNat) ∨
  (t.stage = .failed ∧ t.trunc = false ∧ t.rowsDone = s.rowsDone ∧
    ((t.err ∈ validationErrors ∧ s.stage = .validating ∧ t.rowsDone = 0) ∨
     (t.err = .outputError ∧ s.stage = .preparingOutput ∧ t.rowsDone = 0) ∨
     (t.err = .writeError ∧ s.stage = .processing ∧ s.pend = .writePending t.rowsDone)))

/-- How many engine steps a run has left at most: 3·HEIGHT + 5 at its issue (70_reset R200). -/
def State.engineStepsLeft (s : State) : Nat :=
  let rows := s.height.toNat - s.rowsDone.toNat
  if s.busy then
    match s.stage, s.pend with
    | .init, _ => 3 * s.height.toNat + 5
    | .validating, _ => 3 * s.height.toNat + 4
    | .preparingOutput, .none => 3 * s.height.toNat + 3
    | .preparingOutput, _ => 3 * s.height.toNat + 2
    | .processing, .none => 3 * rows + 1
    | .processing, .readPending _ => 3 * rows
    | .processing, _ => 3 * rows - 1
    | .done, _ | .failed, _ => 0
  else 0

/-- A value that is no NaN, in units of 2^-1074 with its sign; an infinity counts as the power of two above the largest
finite value of the format, as IEEE 754 rounding has it (00_scope R8). -/
def F64.valueIn (fmt : FpFmt) (x : F64) : Int :=
  let u : Nat := if F64.isInf x then fmt.unitsOfCode fmt.infCode else F64.units x
  if F64.sign x then -(u : Int) else u

/-- x is the value of the format nearest to num / den, in units of 2^-1074: no other is nearer, and when one is as near
the code of x is even (00_scope R8). -/
def F64.IsNearest (fmt : FpFmt) (num : Int) (den : Nat) (x : F64) : Prop :=
  let error (v : F64) : Nat := (num - F64.valueIn fmt v * den).natAbs
  F64.isNaN x = false ∧ F64.holds fmt x = true ∧
    ∀ y : F64, F64.isNaN y = false → F64.holds fmt y = true →
      error x ≤ error y ∧
      (error x = error y → F64.valueIn fmt y ≠ F64.valueIn fmt x → fmt.roundCode (F64.units x) 1 % 2 = 0)

/-- The configuration a run must not see change: CTRL, the gammas, the tables, LUT_VALID and the image metadata
(20_memory R66). -/
def State.sameConfiguration (s t : State) : Prop :=
  s.strategy = t.strategy ∧ s.msel = t.msel ∧ s.gammaIn = t.gammaIn ∧ s.gammaOut = t.gammaOut ∧
    s.dlut = t.dlut ∧ s.elut = t.elut ∧ s.lutValid = t.lutValid ∧ s.width = t.width ∧
    s.height = t.height ∧ s.bps = t.bps ∧ s.spp = t.spp ∧ s.isRgb = t.isRgb ∧
    s.isContig = t.isContig ∧ s.rowsPerStrip = t.rowsPerStrip

/-- The registers of the unit commands: PIX_IN, PIX_OUT, FV (42_pipeline R158). -/
def State.sameUnitRegisters (s t : State) : Prop :=
  s.pixIn = t.pixIn ∧ s.pixOut = t.pixOut ∧ s.fv = t.fv

/-- What lies outside the block: the output, the ports' traffic, the host and the schedule. -/
def State.sameOutside (s t : State) : Prop :=
  s.outMeta = t.outMeta ∧ s.outRows = t.outRows ∧ s.requests = t.requests ∧ s.replies = t.replies ∧
    s.host = t.host ∧ s.reads = t.reads ∧ s.checkFailed = t.checkFailed ∧ s.sched = t.sched

/-- The bits of a read-write register that hold what is written (10_state R24, R31, R36, 20_memory R54). -/
def Reg.writableBits (r : Reg) : Word :=
  match r with
  | .ctrl => 0x00000007
  | .metaFlags => 0x00000003
  | .pixInR | .pixInG | .pixInB => 0x0000FFFF
  | .id | .cmd | .status | .rowsDone | .pixOutR | .pixOutG | .pixOutB => 0x00000000
  | .width | .height | .bps | .spp | .rowsPerStrip | .gammaInLo | .gammaInHi | .gammaOutLo | .gammaOutHi
  | .fv0Lo | .fv0Hi | .fv1Lo | .fv1Hi | .fv2Lo | .fv2Hi => 0xFFFFFFFF

/-- A half of a gamma register (10_state R42). -/
def Reg.isGammaHalf (r : Reg) : Bool :=
  r == .gammaInLo || r == .gammaInHi || r == .gammaOutLo || r == .gammaOutHi

/-- The reset value of a register of the window (10_state R22, 70_reset R190). -/
def Reg.resetValue (r : Reg) : Word :=
  match r with
  | .id => 0x43434201
  | .ctrl => 0x00000002
  | .cmd | .status | .width | .height | .bps | .spp | .metaFlags | .rowsPerStrip | .rowsDone
  | .gammaInLo | .gammaInHi | .gammaOutLo | .gammaOutHi | .pixInR | .pixInG | .pixInB
  | .pixOutR | .pixOutG | .pixOutB | .fv0Lo | .fv0Hi | .fv1Lo | .fv1Hi | .fv2Lo | .fv2Hi => 0x00000000

/-- The strategy's own condition, as DEC3 needs it: built tables on the LUT path, a valid gammaIn on the Power
path (40_gamma R112). -/
def State.canDecode (s : State) : Prop :=
  (s.strategy = .lut ∧ s.lutValid = true) ∨ (s.strategy = .power ∧ validGamma s.gi = true)

/-- The strategy's own condition, as ENC3 needs it: built tables on the LUT path, a valid gammaOut on the Power
path (40_gamma R118). -/
def State.canEncode (s : State) : Prop :=
  (s.strategy = .lut ∧ s.lutValid = true) ∨ (s.strategy = .power ∧ validGamma s.go = true)

/-- Whose turn the next step is (log 11). -/
def State.mover (s : State) : Option Agent :=
  match s.sched with
  | a :: _ => some a
  | [] => defaultAgent s

end Sys2Proof.Machine
end

