-- ==== Sys2Proof/Certificates/Slice0/Obligations.lean ====
section
/-! DEFINITION. The statements about the CCB, each a Prop with the rule of spec/ it formalises. -/

open Sys2Proof Sys2Proof.Machine

/-! ## Command words -/

/-- 30_encoding R72: the seven words of the opcode map, written out, decode to their commands. A sanity check. -/
def Obligations.OpcodeMapWordsDecode : Prop :=
  decodeTableWord 32 0x00000000 = some .nop ∧ decodeTableWord 32 0x00000001 = some .build ∧
  decodeTableWord 32 0x00000002 = some .run ∧ decodeTableWord 32 0x00000003 = some .dec3 ∧
  decodeTableWord 32 0x00000004 = some .mat3 ∧ decodeTableWord 32 0x00000005 = some .enc3 ∧
  decodeTableWord 32 0x00000006 = some .pixel

/-- 30_encoding R72: over all 2^32 words, a word decodes to a command exactly when it is that command's word of the
opcode map, and a word spells some command exactly when its bits 31:8 are zero and its bits 7:0 are in the map. -/
def Obligations.DecodeReadsExactlyTheOpcodeMap : Prop :=
  (∀ (w : Word) (i : Instr), decode w = .ok i ↔ w = encode i) ∧
  (encode .nop = 0x00000000 ∧ encode .build = 0x00000001 ∧ encode .run = 0x00000002 ∧
    encode .dec3 = 0x00000003 ∧ encode .mat3 = 0x00000004 ∧ encode .enc3 = 0x00000005 ∧
    encode .pixel = 0x00000006) ∧
  ∀ w : Word, (∃ i, decode w = .ok i) ↔ (w.extractLsb' 8 24 = 0 ∧ (w.extractLsb' 0 8).toNat ≤ 0x06)

/-- 30_encoding R73, 60_exceptions R180: a word with RSV not zero or OPC above 0x06 spells no command; written to CMD
while BUSY = 0 it raises ILLEGAL_COMMAND and, beside the start-of-command clear, changes nothing. -/
def Obligations.IllegalWordRaisesIllegalCommand : Prop :=
  ∀ (w : Word), (w.extractLsb' 8 24 ≠ 0 ∨ 7 ≤ (w.extractLsb' 0 8).toNat) →
    (∀ i, decode w ≠ .ok i) ∧
    ∀ s : State, s.busy = false →
      hostWrite 0x008 w s = .next { s with err := .illegalCommand, wign := false }

/-- 10_state R25, 20_memory R62: when the host moves, its next line writes a word to CMD, BUSY = 0 and the word decodes
to i, the step is exec of i with the line and the turn consumed. -/
def Obligations.StepIssuesTheDecodedCommand : Prop :=
  ∀ (s : State) (i : Instr) (w : Word) (rest : List HostOp),
    s.mover = some .host → s.host = .write ⟨4, 0x008⟩ w :: rest → s.busy = false → decode w = .ok i →
      step s = exec i { s with host := rest, sched := s.sched.tail }

/-- The model's placement of a command word (log 14): the next step runs exactly it. -/
def Obligations.PlacedCommandRunsNext : Prop :=
  ∀ (s : State) (i : Instr), s.busy = false →
    step (s.withFetchWord 32 (encode i).toNat) = exec i s

/-! ## The register window -/

/-- 10_state R48: while BUSY = 1 a write to any register but ID and STATUS, CMD included, is ignored and sets WIGN; a
write to ID, STATUS or a reserved offset is ignored without it; reads are not gated. -/
def Obligations.WritesWhileBusyAreIgnored : Prop :=
  ∀ (s : State), s.busy = true →
    (∀ (r : Reg) (w : Word), r ≠ .id → r ≠ .status →
      hostWrite r.offset w s = .next { s with wign := true }) ∧
    (∀ (o : Nat) (w : Word), o = Reg.id.offset ∨ o = Reg.status.offset ∨ Reg.ofOffset o = none →
      hostWrite o w s = .next s) ∧
    (∀ (a : Access) (rest : List HostOp), a.wf = true → s.host = .read a :: rest →
      hostStep s = .next { s with host := rest, reads := s.readAt a.offset :: s.reads })

/-- 10_state R39: the reserved offsets read 0, and a write to one changes nothing, BUSY or not. -/
def Obligations.ReservedOffsetsReadZero : Prop :=
  ∀ (s : State) (o : Nat) (w : Word),
    (o = 0x02C ∨ o = 0x04C ∨ o = 0x05C ∨ (0x078 ≤ o ∧ o ≤ 0x0FC ∧ o % 4 = 0)) →
      s.readAt o = 0 ∧ hostWrite o w s = .next s

/-- 20_memory R52: an aligned 32-bit access at an offset up to 0x0FC has a step; any other has none. -/
def Obligations.OnlyAlignedWordAccessesHaveAStep : Prop :=
  ∀ (s : State) (a : Access) (w : Word) (rest : List HostOp),
    (s.host = .write a w :: rest ∨ s.host = .read a :: rest) →
      ((a.bytes = 4 ∧ a.offset % 4 = 0 ∧ a.offset ≤ 0x0FC) → ∃ t, hostStep s = .next t) ∧
      (¬ (a.bytes = 4 ∧ a.offset % 4 = 0 ∧ a.offset ≤ 0x0FC) → hostStep s = .fault .unadmittedAccess)

/-- 20_memory R55: a read changes nothing in the block, and two reads of one register return the same value. -/
def Obligations.ReadsHaveNoSideEffect : Prop :=
  ∀ (s : State) (a : Access) (rest : List HostOp), a.wf = true → s.host = .read a :: .read a :: rest →
    ∃ t u, hostStep s = .next t ∧ hostStep t = .next u ∧
      u = { s with host := rest, reads := s.readAt a.offset :: s.readAt a.offset :: s.reads }

/-- 10_state R22, 20_memory R54, R55: with BUSY = 0 a host write to a read-write register leaves its writable bits of the
word there, every other register but STATUS reading as before, and STATUS too unless it is a GAMMA half; nothing else
changes. A host write to a read-only register is ignored. (A write to CMD, which is write-only, issues its word.) -/
def Obligations.RegistersHoldTheirWritableBits : Prop :=
  ∀ (s : State) (r : Reg) (w : Word), s.busy = false →
    (r.kind = .rw → ∃ t, hostWrite r.offset w s = .next t ∧
      t.readReg r = w &&& r.writableBits ∧
      (∀ r' : Reg, r' ≠ r → r' ≠ .status → t.readReg r' = s.readReg r') ∧
      (r.isGammaHalf = false → t.readReg .status = s.readReg .status) ∧
      s.sameOutside t ∧ t.fpFmt = s.fpFmt ∧ t.stage = s.stage ∧ t.busy = s.busy ∧ t.trunc = s.trunc ∧
      t.wign = s.wign ∧ t.err = s.err ∧ t.dlut = s.dlut ∧ t.elut = s.elut ∧ t.inBuf = s.inBuf ∧
      t.outBuf = s.outBuf ∧ t.pend = s.pend ∧ t.answer = s.answer) ∧
    (r.kind = .ro → hostWrite r.offset w s = .next s)

/-- 10_state R24: a write to CTRL sets STRATEGY from bit 0 and MSEL from bits 2:1, any value, and has no other effect;
LUT_VALID stays. -/
def Obligations.CtrlWriteSetsStrategyAndMatrix : Prop :=
  ∀ (s : State) (w : Word), s.busy = false →
    ∃ t, hostWrite 0x004 w s = .next t ∧
      t = { s with strategy := t.strategy, msel := w.extractLsb' 1 2 } ∧
      (w.getLsbD 0 = false → t.strategy = .lut) ∧ (w.getLsbD 0 = true → t.strategy = .power) ∧
      t.readAt 0x004 = w &&& 7

/-- 70_reset R195, 10_state R42: any accepted write to a GAMMA half clears LUT_VALID, whatever the value. -/
def Obligations.GammaWriteClearsLutValid : Prop :=
  ∀ (s : State) (r : Reg) (w : Word), s.busy = false → r.isGammaHalf = true →
    ∃ t, hostWrite r.offset w s = .next t ∧ t.lutValid = false ∧ t.readReg r = w

/-- 10_state R42, the whole-machine half: a step changes LUT_VALID only by a reset, by a host write to a GAMMA half (to
0), or by a BUILD command (to 1). -/
def Obligations.OnlyBuildSetsLutValid : Prop :=
  ∀ (s t : State), step s = .next t → t.lutValid ≠ s.lutValid →
    (s.mover = some .reset ∧ t.lutValid = false) ∨
    (s.mover = some .host ∧ s.busy = false ∧ ∃ a w rest, s.host = .write a w :: rest ∧
      ((t.lutValid = false ∧ ∃ r : Reg, r.isGammaHalf = true ∧ a.offset = r.offset) ∨
       (t.lutValid = true ∧ a.offset = 0x008 ∧ w = 0x00000001)))

/-- 10_state R47, 20_memory R53, 70_reset R196: after a write to one half of a pair, the pair's value is one half new and
one half old, _HI in bits 63:32 and _LO in bits 31:0. -/
def Obligations.TornPairIsHalfNewHalfOld : Prop :=
  ∀ (s : State) (w : Word),
    (s.writeReg .gammaInLo w).gammaIn.bits = s.readReg .gammaInHi ++ w ∧
    (s.writeReg .gammaInHi w).gammaIn.bits = w ++ s.readReg .gammaInLo ∧
    (s.writeReg .gammaOutLo w).gammaOut.bits = s.readReg .gammaOutHi ++ w ∧
    (s.writeReg .gammaOutHi w).gammaOut.bits = w ++ s.readReg .gammaOutLo ∧
    (s.writeReg .fv0Lo w).fv.r.bits = s.readReg .fv0Hi ++ w ∧
    (s.writeReg .fv0Hi w).fv.r.bits = w ++ s.readReg .fv0Lo ∧
    (s.writeReg .fv1Lo w).fv.g.bits = s.readReg .fv1Hi ++ w ∧
    (s.writeReg .fv1Hi w).fv.g.bits = w ++ s.readReg .fv1Lo ∧
    (s.writeReg .fv2Lo w).fv.b.bits = s.readReg .fv2Hi ++ w ∧
    (s.writeReg .fv2Hi w).fv.b.bits = w ++ s.readReg .fv2Lo

/-- 10_state R26, R46, 60_exceptions R170: the fields of STATUS stand at their bits, with the six codes of STATE and the
twelve of ERR; reserved bits read 0. -/
def Obligations.StatusFieldsStandAtTheirBits : Prop :=
  ∀ (s : State), ∃ v, v = s.readAt 0x00C ∧
    (v.extractLsb' 0 3).toNat = (match s.stage with
      | .init => 0
      | .validating => 1
      | .preparingOutput => 2
      | .processing => 3
      | .done => 4
      | .failed => 5) ∧
    v.getLsbD 3 = false ∧ v.getLsbD 4 = s.busy ∧ v.getLsbD 5 = s.lutValid ∧ v.getLsbD 6 = s.trunc ∧
    v.getLsbD 7 = s.wign ∧ v.extractLsb' 8 4 = 0 ∧
    (v.extractLsb' 12 4).toNat = (match s.err with
      | .none => 0
      | .invalidGamma => 1
      | .badBitDepth => 2
      | .notRgb => 3
      | .tooFewSamples => 4
      | .notContiguous => 5
      | .writeError => 6
      | .outputError => 7
      | .lutNotBuilt => 8
      | .badMatrix => 9
      | .illegalCommand => 10
      | .nanOperand => 11) ∧
    v.extractLsb' 16 16 = 0

/-- 30_encoding R76: WAIT reads STATUS and stays the next line exactly while BUSY = 1 is read. -/
def Obligations.WaitRepeatsUntilNotBusy : Prop :=
  ∀ (s : State) (rest : List HostOp), s.host = .wait :: rest →
    hostStep s = .next { s with
      host := if s.busy then .wait :: rest else rest
      reads := s.readReg .status :: s.reads }

/-! ## Reset -/

/-- 70_reset R190: a reset at any time gives every register its reset value and PEND None, and an answer that arrives
after it is discarded. -/
def Obligations.ResetGivesEveryRegisterItsValue : Prop :=
  ∀ (s : State), ∃ t, turn .reset s = .next t ∧
    (∀ r : Reg, t.readReg r = r.resetValue ∧ State.reset.readReg r = r.resetValue) ∧
    t.pend = .none ∧ State.reset.pend = .none ∧ t.answer = none ∧
    (∀ (q : Reply) (rest : List Reply), t.replies = q :: rest →
      accessorStep t = .next { t with replies := rest })

/-- 70_reset R192: after reset the engine has no step, and from a state with BUSY = 0 no step of the machine but a host
write to CMD leads to one with a step of the engine. -/
def Obligations.IdleAfterResetUntilACommand : Prop :=
  (∀ s : State, turn .engine s.applyReset = .fault (.noStep .engine)) ∧
  turn .engine State.reset = .fault (.noStep .engine) ∧
  State.reset.busy = false ∧ (∀ s : State, s.applyReset.busy = false) ∧
  ∀ (s t : State), s.busy = false → step s = .next t →
    ¬ (s.mover = some .host ∧ ∃ a w rest, s.host = .write a w :: rest ∧ a.offset = Reg.cmd.offset) →
      t.busy = false ∧ turn .engine t = .fault (.noStep .engine)

/-! ## Numerics -/

/-- 00_scope R8: in either format the rounding of the FP operations (Machine.F64.roundMag) is to the nearest FP value,
ties to even. For every quotient n / d of units of 2^-1074, no code of the format is nearer than the one chosen, infinity
counting as the power of two above the largest finite value; one as near means the code chosen is even; and the pattern
stands for the value of the code. -/
def Obligations.RoundingIsToNearestTiesToEven : Prop :=
  ∀ (fmt : FpFmt) (n d c : Nat), 0 < d → c ≤ fmt.infCode →
    let k := fmt.roundCode n d
    let error (c : Nat) : Nat := ((n : Int) - ((fmt.unitsOfCode c * d : Nat) : Int)).natAbs
    k ≤ fmt.infCode ∧ error k ≤ error c ∧ (error k = error c → c ≠ k → k % 2 = 0) ∧
    (k < fmt.infCode → F64.roundMag fmt n d < F64.infMag ∧
      F64.unitsOfMag (F64.roundMag fmt n d) = fmt.unitsOfCode k) ∧
    (k = fmt.infCode → F64.roundMag fmt n d = F64.infMag)

/-- 40_gamma R104, R105: `round` of a finite value is the integer k with k - 1/2 <= |x| < k + 1/2 and the sign of x,
`trunc` the integer k with k <= |x| < k + 1 and the sign of x. -/
def Obligations.RoundAndTruncOfFiniteValues : Prop :=
  ∀ (x : F64), F64.isFinite x = true →
    (∃ k : Nat, roundHalfAway x = (if F64.sign x then -(k : Int) else k) ∧
      2 * k * F64.scale ≤ 2 * F64.units x + F64.scale ∧
      2 * F64.units x + F64.scale < 2 * (k + 1) * F64.scale) ∧
    (∃ k : Nat, truncToInt x = (if F64.sign x then -(k : Int) else k) ∧
      k * F64.scale ≤ F64.units x ∧ F64.units x < (k + 1) * F64.scale)

/-- 40_gamma R109: a gamma is valid exactly when its pattern is above +0.0 and at most +inf, so neither a zero, nor
negative, nor a NaN. -/
def Obligations.ValidGammaIsAPositiveValue : Prop :=
  ∀ (g : F64), validGamma g = true ↔ 0 < g.toNat ∧ g.toNat ≤ 0x7FF0000000000000

/-- 40_gamma R100, R101: shift mode multiplies an 8-bit sample by 256, direct mode keeps it, 16-bit samples pass
unchanged in both, and (R102) any other depth fails. -/
def Obligations.NormalizerWidensByMode : Prop :=
  ∀ (mode : WidenMode) (row : Row),
    normalizeRow .shift 8 row = some (List.map (fun x : Sample => x <<< 8) row) ∧
    normalizeRow .direct 8 row = some row ∧
    normalizeRow mode 16 row = some row ∧
    (∀ x : Sample, x.toNat < 256 → (x <<< 8).toNat = x.toNat * 256) ∧
    (∀ bps : Word, bps ≠ 8 → bps ≠ 16 → normalizeRow mode bps row = none)

/-- 40_gamma R113, R114: clamp gives +0.0 below or at 0, 1.0 at or above 1.0 and v between, always in [+0.0, 1.0];
quant24 of a value in [+0.0, 1.0] is the rounded product itself, at most 16777215. -/
def Obligations.ClampAndQuantizeStayInRange : Prop :=
  (∀ v : F64, F64.isNaN v = false →
    (F64.le v F64.posZero = true → clamp v = F64.posZero) ∧
    (F64.le F64.one v = true → clamp v = F64.one) ∧
    (F64.le v F64.posZero = false → F64.le F64.one v = false → clamp v = v) ∧
    F64.inUnit (clamp v) = true) ∧
  (∀ (fmt : FpFmt) (c : F64), F64.inUnit c = true →
    ((quant24 fmt c).toNat : Int) = roundHalfAway (fmul fmt c (F64.ofNat 16777215)))

/-- 40_gamma R116: the Power-path encode is q · 16 with q the product truncated or rounded by PQ_MODE, at most 65520,
for every valid gammaOut and every c in [+0.0, 1.0]. -/
def Obligations.PowerEncodeIsQuantizedTimesSixteen : Prop :=
  ∀ (fmt : FpFmt) (mode : PqMode) (go c : F64), validGamma go = true → F64.inUnit c = true →
    ∃ q : Nat, q ≤ 4095 ∧ (encPow fmt mode go c).toNat = q * 16 ∧
      (mode = .trunc → (q : Int) = truncToInt (fmul fmt (pow fmt c go) (F64.ofNat 4095))) ∧
      (mode = .round → (q : Int) = roundHalfAway (fmul fmt (pow fmt c go) (F64.ofNat 4095)))

/-- 40_gamma R119: at 1.0 the LUT path encodes 65535 and the Power path 65520; every Power-path value is a multiple of
16; at gammaOut = 1.0 the value decoded from 32768 gives 32752 with Trunc and 32768 on the LUT path. In either format. -/
def Obligations.EncodePathsDiverge : Prop :=
  ∀ fmt : FpFmt,
    (∀ (go : F64), validGamma go = true →
      encLut fmt (buildElut fmt go) F64.one = 65535 ∧ (∀ mode, encPow fmt mode go F64.one = 65520) ∧
      (∀ mode c, F64.inUnit c = true → (encPow fmt mode go c).toNat % 16 = 0)) ∧
    encPow fmt .trunc F64.one (fdiv fmt (F64.ofNat 32768) (F64.ofNat 65535)) = 32752 ∧
    encLut fmt (buildElut fmt F64.one) (fdiv fmt (F64.ofNat 32768) (F64.ofNat 65535)) = 32768

/-- 40_gamma R120: for any valid gammas the decode and the encode table are non-decreasing, and so are quant24, enc_lut
and enc_pow in c. -/
def Obligations.GammaStepsAreMonotone : Prop :=
  ∀ (fmt : FpFmt) (gi go : F64), validGamma gi = true → validGamma go = true →
    (∀ i j, i ≤ j → j ≤ 65535 →
      F64.le ((buildDlut fmt gi).read dlutBits i) ((buildDlut fmt gi).read dlutBits j) = true) ∧
    (∀ i j, i ≤ j → j ≤ 16777215 →
      ((buildElut fmt go).read elutBits i).toNat ≤ ((buildElut fmt go).read elutBits j).toNat) ∧
    (∀ c c' : F64, F64.inUnit c = true → F64.inUnit c' = true → F64.le c c' = true →
      (quant24 fmt c).toNat ≤ (quant24 fmt c').toNat ∧
      (encLut fmt (buildElut fmt go) c).toNat ≤ (encLut fmt (buildElut fmt go) c').toNat ∧
      ∀ mode, (encPow fmt mode go c).toNat ≤ (encPow fmt mode go c').toNat)

/-- 40_gamma R111: while LUT_VALID = 1 and the tables are current, the two decode paths give the same value for every
sample. -/
def Obligations.DecodePathsAgreeWhileTablesCurrent : Prop :=
  ∀ (s : State) (x : Sample), s.TablesCurrent → s.lutValid = true →
    State.decodeSample { s with strategy := .lut } x = State.decodeSample { s with strategy := .power } x

/-! ## The matrix -/

/-- 41_matrix R130: in either format the ROM holds the decimal literals, each rounded to the nearest FP_FMT value; in
binary64 these are the patterns R130 gives; MSEL = 3 selects nothing. -/
def Obligations.MatrixRomHoldsTheRoundedLiterals : Prop :=
  (∀ fmt : FpFmt,
    let lit (n d : Nat) : F64 := F64.ofRatio fmt false n d
    matrixRom fmt 0 = some ⟨⟨lit 1 1, lit 0 1, lit 0 1⟩, ⟨lit 0 1, lit 1 1, lit 0 1⟩, ⟨lit 0 1, lit 0 1, lit 1 1⟩⟩ ∧
    matrixRom fmt 1 = some
      ⟨⟨lit 4451698156 10000000000, lit 2771344092 10000000000, lit 1722826698 10000000000⟩,
       ⟨lit 2094916779 10000000000, lit 7215952542 10000000000, lit 689130679 10000000000⟩,
       ⟨lit 0 1, lit 470605601 10000000000, lit 9073553944 10000000000⟩⟩ ∧
    matrixRom fmt 2 = some
      ⟨⟨lit 4640 10000, lit 2692 10000, lit 1610 10000⟩,
       ⟨lit 2185 10000, lit 7010 10000, lit 805 10000⟩,
       ⟨lit 0 1, lit 457 10000, lit 9087 10000⟩⟩ ∧
    matrixRom fmt 3 = none) ∧
  matrixRom .binary64 1 = some
    ⟨⟨0x3FDC7DA989CAC642, 0x3FD1BC91F6070EDA, 0x3FC60D5BC83AB252⟩,
     ⟨0x3FCAD09F90AEAD60, 0x3FE7174EEE379C1D, 0x3FB1A4496CE5C45B⟩,
     ⟨0x0000000000000000, 0x3FA818525D1F33DB, 0x3FED090E2E198283⟩⟩ ∧
  matrixRom .binary64 2 = some
    ⟨⟨0x3FDDB22D0E560419, 0x3FD13A92A3055326, 0x3FC49BA5E353F7CF⟩,
     ⟨0x3FCBF7CED916872B, 0x3FE66E978D4FDF3B, 0x3FB49BA5E353F7CF⟩,
     ⟨0x0000000000000000, 0x3FA765FD8ADAB9F5, 0x3FED141205BC01A3⟩⟩

/-- 41_matrix R133, first property: of lanes in [+0.0, 1.0] every output lane, under each of the three matrices, is
finite, not negative and no NaN. -/
def Obligations.MatrixKeepsUnitLanesFinite : Prop :=
  ∀ (fmt : FpFmt) (msel : BitVec 2) (m : Matrix3) (v : Lanes F64), matrixRom fmt msel = some m →
    F64.inUnit v.r = true → F64.inUnit v.g = true → F64.inUnit v.b = true →
      ∀ o ∈ [(applyMatrix fmt m v).r, (applyMatrix fmt m v).g, (applyMatrix fmt m v).b],
        F64.isNaN o = false ∧ F64.isFinite o = true ∧ F64.sign o = false

/-- 41_matrix R133, second property: under Identity, of finite FP lanes, a lane that is not -0.0 comes out unchanged; a -0.0
lane comes out -0.0 when both other lanes are negative or -0.0, and +0.0 otherwise. -/
def Obligations.IdentityMatrixKeepsFiniteLanes : Prop :=
  ∀ (fmt : FpFmt) (v : Lanes F64),
    F64.isFinite v.r = true → F64.isFinite v.g = true → F64.isFinite v.b = true →
    F64.holds fmt v.r = true → F64.holds fmt v.g = true → F64.holds fmt v.b = true →
    let out (own other1 other2 : F64) : F64 :=
      if own = 0x8000000000000000 then
        if F64.sign other1 && F64.sign other2 then 0x8000000000000000 else 0x0000000000000000
      else own
    applyMatrix fmt identityMatrix v = ⟨out v.r v.g v.b, out v.g v.r v.b, out v.b v.r v.g⟩

/-! ## The commands: result, completion, errors -/

/-- 42_pipeline R156: NOP clears ERR and WIGN and changes nothing else; in the STATUS word, bits 15:12 and bit 7. -/
def Obligations.NopClearsErrAndWign : Prop :=
  decode 0x00000000 = .ok .nop ∧
  ∀ (s : State), ∃ t, exec .nop s = .next t ∧ t = { s with err := .none, wign := false } ∧
    t.readAt 0x00C = s.readAt 0x00C &&& 0xFFFF0F7F

/-- 40_gamma R106, R107, R108: with both gammas valid BUILD completes, sets LUT_VALID and every entry of both tables,
each ELUT entry being the rounded product itself, and changes nothing else but ERR and WIGN; the ends of the tables are
as R106 and R107 say. With a gamma that is not valid it records INVALID_GAMMA and changes no entry. In a state whose
tables are current, an error means LUT_VALID = 0, and BUILD with LUT_VALID = 1 leaves the same tables. -/
def Obligations.BuildFillsBothTables : Prop :=
  decode 0x00000001 = .ok .build ∧
  ∀ (s : State),
    (validGamma s.gi = true → validGamma s.go = true →
      ∃ t, exec .build s = .next t ∧
        t = { s with err := .none, wign := false, lutValid := true, dlut := t.dlut, elut := t.elut } ∧
        (∀ i, i ≤ 65535 →
          t.dlut.read dlutBits i = pow s.fpFmt (fdiv s.fpFmt (F64.ofNat i) (F64.ofNat 65535)) s.gi) ∧
        (∀ i, i ≤ 16777215 → ((t.elut.read elutBits i).toNat : Int) =
          roundHalfAway (fmul s.fpFmt
            (pow s.fpFmt (fdiv s.fpFmt (F64.ofNat i) (F64.ofNat 16777215)) s.go) (F64.ofNat 65535))) ∧
        t.dlut.read dlutBits 0 = F64.posZero ∧ t.dlut.read dlutBits 65535 = F64.one ∧
        t.elut.read elutBits 0 = 0 ∧ t.elut.read elutBits 16777215 = 65535 ∧
        (s.TablesCurrent → s.lutValid = true → t.dlut = s.dlut ∧ t.elut = s.elut)) ∧
    ((validGamma s.gi = false ∨ validGamma s.go = false) →
      exec .build s = .next { s with err := .invalidGamma, wign := false } ∧
      (s.TablesCurrent → s.lutValid = false))

/-- 40_gamma R110, R112: DEC3 completes when the strategy's condition holds: each FV lane is the table's entry (LUT) or
the power (Power) of its sample, and nothing else changes but ERR and WIGN; with current tables 0 gives +0.0 and 65535
gives 1.0. Else it records LUT_NOT_BUILT (LUT) or INVALID_GAMMA (Power) and writes no lane. -/
def Obligations.Dec3DecodesTheThreeSamples : Prop :=
  decode 0x00000003 = .ok .dec3 ∧
  ∀ (s : State),
    (s.canDecode → ∃ t, exec .dec3 s = .next t ∧
      t = { s with err := .none, wign := false, fv := t.fv } ∧
      (s.strategy = .lut →
        t.fv.r.bits = s.dlut.read dlutBits s.pixIn.r.toNat ∧
        t.fv.g.bits = s.dlut.read dlutBits s.pixIn.g.toNat ∧
        t.fv.b.bits = s.dlut.read dlutBits s.pixIn.b.toNat) ∧
      (s.strategy = .power →
        t.lanes.r = pow s.fpFmt (fdiv s.fpFmt (F64.ofNat s.pixIn.r.toNat) (F64.ofNat 65535)) s.gi ∧
        t.lanes.g = pow s.fpFmt (fdiv s.fpFmt (F64.ofNat s.pixIn.g.toNat) (F64.ofNat 65535)) s.gi ∧
        t.lanes.b = pow s.fpFmt (fdiv s.fpFmt (F64.ofNat s.pixIn.b.toNat) (F64.ofNat 65535)) s.gi) ∧
      (s.TablesCurrent → ∀ p ∈ [(s.pixIn.r, t.lanes.r), (s.pixIn.g, t.lanes.g), (s.pixIn.b, t.lanes.b)],
        (p.1 = 0 → p.2 = F64.posZero) ∧ (p.1 = 65535 → p.2 = F64.one))) ∧
    (s.strategy = .lut → s.lutValid = false →
      exec .dec3 s = .next { s with err := .lutNotBuilt, wign := false }) ∧
    (s.strategy = .power → validGamma s.gi = false →
      exec .dec3 s = .next { s with err := .invalidGamma, wign := false })

/-- 41_matrix R131, R132: MAT3 completes for MSEL = 0, 1, 2: each FV lane takes the left-to-right sum of the rounded
products of the OLD lanes with its matrix row, a NaN result being some NaN; a NaN lane makes every result a NaN;
nothing else changes but ERR, WIGN and the model's draw counter (log 9). With MSEL = 3 it records BAD_MATRIX and FV
stays. -/
def Obligations.Mat3MultipliesTheOldLanes : Prop :=
  decode 0x00000004 = .ok .mat3 ∧
  ∀ (s : State),
    (∀ m, matrixRom s.fpFmt s.msel = some m → ∃ t, exec .mat3 s = .next t ∧
      t = { s with err := .none, wign := false, fv := t.fv, draws := t.draws } ∧
      ∀ p ∈ [(m.r, t.lanes.r), (m.g, t.lanes.g), (m.b, t.lanes.b)],
        let mul := fmul s.fpFmt
        let o := fadd s.fpFmt (fadd s.fpFmt (mul p.1.r s.lanes.r) (mul p.1.g s.lanes.g)) (mul p.1.b s.lanes.b)
        (F64.isNaN o = false → p.2 = o) ∧ (F64.isNaN o = true → F64.isNaN p.2 = true) ∧
        ((F64.isNaN s.lanes.r = true ∨ F64.isNaN s.lanes.g = true ∨ F64.isNaN s.lanes.b = true) →
          F64.isNaN p.2 = true)) ∧
    (s.msel = 3 → exec .mat3 s = .next { s with err := .badMatrix, wign := false }) ∧
    (s.msel ≠ 3 → ∃ m, matrixRom s.fpFmt s.msel = some m)

/-- 40_gamma R115, R117, R118: ENC3 completes when the strategy's condition holds and no lane is a NaN: each PIX_OUT lane
is the encoding of the clamped lane, by the table's entry at quant24 (LUT) or by enc_pow (Power), and nothing else
changes but ERR and WIGN; with current tables a lane at most 0 encodes as 0 and one of at least 1.0 as 65535 (LUT) or
65520 (Power). The errors come in the order LUT_NOT_BUILT or INVALID_GAMMA, then NAN_OPERAND, and write no lane. -/
def Obligations.Enc3EncodesTheClampedLanes : Prop :=
  decode 0x00000005 = .ok .enc3 ∧
  ∀ (s : State),
    (s.canEncode → s.fvHasNaN = false → ∃ t, exec .enc3 s = .next t ∧
      t = { s with err := .none, wign := false, pixOut := t.pixOut } ∧
      ∀ p ∈ [(s.lanes.r, t.pixOut.r), (s.lanes.g, t.pixOut.g), (s.lanes.b, t.pixOut.b)],
        (s.strategy = .lut → p.2 = s.elut.read elutBits (quant24 s.fpFmt (clamp p.1)).toNat) ∧
        (s.strategy = .power → p.2 = encPow s.fpFmt Config.pqMode s.go (clamp p.1)) ∧
        (s.TablesCurrent → F64.le p.1 F64.posZero = true → p.2 = 0) ∧
        (s.TablesCurrent → F64.le F64.one p.1 = true →
          p.2 = match s.strategy with
            | .lut => 65535
            | .power => 65520)) ∧
    (s.strategy = .lut → s.lutValid = false →
      exec .enc3 s = .next { s with err := .lutNotBuilt, wign := false }) ∧
    (s.strategy = .power → validGamma s.go = false →
      exec .enc3 s = .next { s with err := .invalidGamma, wign := false }) ∧
    (s.canEncode → s.fvHasNaN = true →
      exec .enc3 s = .next { s with err := .nanOperand, wign := false })

/-- 42_pipeline R140, R141: PIXEL completes when MSEL selects a matrix and the strategy's conditions hold: PIX_OUT is
decode, apply, clamp, encode of PIX_IN, and nothing else changes but ERR and WIGN. The errors come in the order
BAD_MATRIX, then INVALID_GAMMA (Power) or LUT_NOT_BUILT (LUT), and write no lane. -/
def Obligations.PixelConvertsOnePixel : Prop :=
  decode 0x00000006 = .ok .pixel ∧
  ∀ (s : State),
    (∀ m, matrixRom s.fpFmt s.msel = some m → s.canDecode → s.canEncode → ∃ t, exec .pixel s = .next t ∧
      t = { s with err := .none, wign := false, pixOut := t.pixOut } ∧
      ∃ v, v = applyMatrix s.fpFmt m (s.pixIn.map s.decodeSample) ∧
        ∀ p ∈ [(v.r, t.pixOut.r), (v.g, t.pixOut.g), (v.b, t.pixOut.b)],
          (s.strategy = .lut → p.2 = s.elut.read elutBits (quant24 s.fpFmt (clamp p.1)).toNat) ∧
          (s.strategy = .power → p.2 = encPow s.fpFmt Config.pqMode s.go (clamp p.1))) ∧
    (s.msel = 3 → exec .pixel s = .next { s with err := .badMatrix, wign := false }) ∧
    (s.msel ≠ 3 → s.strategy = .power →
      (validGamma s.gi = false ∨ validGamma s.go = false) →
        exec .pixel s = .next { s with err := .invalidGamma, wign := false }) ∧
    (s.msel ≠ 3 → s.strategy = .lut → s.lutValid = false →
      exec .pixel s = .next { s with err := .lutNotBuilt, wign := false })

/-- 42_pipeline R141, corner case: without an error, PIX_OUT after PIXEL is PIX_OUT after DEC3, MAT3, ENC3 from the same
state, none of which records an error. The tables are current (10_state R42), as the invariant has it. -/
def Obligations.PixelEqualsDec3Mat3Enc3 : Prop :=
  ∀ (s : State) (m : Matrix3), s.TablesCurrent → matrixRom s.fpFmt s.msel = some m → s.canDecode → s.canEncode →
    ∃ t1 t2 t3 t, exec .dec3 s = .next t1 ∧ exec .mat3 t1 = .next t2 ∧ exec .enc3 t2 = .next t3 ∧
      exec .pixel s = .next t ∧ t.pixOut = t3.pixOut ∧ t.fv = s.fv ∧
      t1.err = .none ∧ t2.err = .none ∧ t3.err = .none ∧ t.err = .none

/-- 42_pipeline R140, last sentence: with MSEL = 0 on the LUT path with current tables, each lane of the conversion is
ELUT[quant24(DLUT[s_c])], untouched by the matrix and the clamp. -/
def Obligations.IdentityLutConversionIsPerChannel : Prop :=
  ∀ (s : State) (px : Lanes Sample), s.TablesCurrent → s.lutValid = true → s.strategy = .lut →
    s.convPixel identityMatrix px =
      px.map fun x => s.elut.read elutBits (quant24 s.fpFmt (s.dlut.read dlutBits x.toNat)).toNat

/-- 42_pipeline R144: RUN completes: a fresh run from Init with BUSY = 1, TRUNC, ERR, WIGN and ROWS_DONE cleared and no
request outstanding; nothing else changes. R144 says it of BUSY = 0; that exec does the same at BUSY = 1, where step never
calls it, is the model's choice (log 15). -/
def Obligations.RunStartsAFreshRun : Prop :=
  decode 0x00000002 = .ok .run ∧
  ∀ (s : State), exec .run s = .next { s with
    err := .none, wign := false, trunc := false, rowsDone := 0, stage := .init, busy := true, pend := .none }

/-- 60_exceptions R183, R184: every command but RUN clears WIGN, and one that ends with an error has changed nothing but
ERR and WIGN. -/
def Obligations.CommandErrorsArePrecise : Prop :=
  ∀ (i : Instr) (s t : State), i ≠ .run → exec i s = .next t →
    t.wign = false ∧ (t.err ≠ .none → t = { s with err := t.err, wign := false })

/-- 30_encoding R71: the frame of the seven commands. None changes a configuration register, PIX_IN, a buffer, the port or
anything outside the block; every output row reads as before; only RUN changes STATE, BUSY, TRUNC, ROWS_DONE, PEND; only
BUILD the tables and LUT_VALID; only ENC3 and PIXEL change PIX_OUT; only DEC3 and MAT3 change FV. -/
def Obligations.CommandsChangeOnlyWhatTheyWrite : Prop :=
  ∀ (i : Instr) (s t : State), exec i s = .next t →
    s.sameOutside t ∧ (∀ k : Nat, Memory.read t.outRows k = Memory.read s.outRows k) ∧
    t.strategy = s.strategy ∧ t.msel = s.msel ∧ t.width = s.width ∧ t.height = s.height ∧ t.bps = s.bps ∧
    t.spp = s.spp ∧ t.isRgb = s.isRgb ∧ t.isContig = s.isContig ∧ t.rowsPerStrip = s.rowsPerStrip ∧
    t.gammaIn = s.gammaIn ∧ t.gammaOut = s.gammaOut ∧ t.pixIn = s.pixIn ∧
    t.inBuf = s.inBuf ∧ t.outBuf = s.outBuf ∧ t.answer = s.answer ∧
    (i ≠ .run → t.stage = s.stage ∧ t.busy = s.busy ∧ t.trunc = s.trunc ∧ t.rowsDone = s.rowsDone ∧
      t.pend = s.pend) ∧
    (i ≠ .build → t.dlut = s.dlut ∧ t.elut = s.elut ∧ t.lutValid = s.lutValid) ∧
    (i ≠ .enc3 → i ≠ .pixel → t.pixOut = s.pixOut) ∧
    (i ≠ .dec3 → i ≠ .mat3 → t.fv = s.fv)

/-! ## The engine's steps -/

/-- 42_pipeline R145: the Init step. -/
def Obligations.InitStepEntersValidating : Prop :=
  ∀ (s : State), s.busy = true → s.stage = .init →
    turn .engine s = .next { s with stage := .validating }

/-- 42_pipeline R146, 60_exceptions R183: Validating makes its seven checks in order; the first that fails ends the run
with its code, STATE Failed, BUSY 0 and no request issued; if all pass the stage is PreparingOutput. -/
def Obligations.ValidatingReportsTheFirstFailure : Prop :=
  ∀ (s : State), s.busy = true → s.stage = .validating →
    let failed (c : ErrCode) : State :=
      { s with err := c, stage := .failed, busy := false, pend := .none }
    turn .engine s = .next (
      if ¬ (s.bps = 8 ∨ s.bps = 16) then failed .badBitDepth
      else if s.isRgb = false then failed .notRgb
      else if s.spp.toNat < 3 then failed .tooFewSamples
      else if s.isContig = false then failed .notContiguous
      else if s.msel = 3 then failed .badMatrix
      else if validGamma s.gi = false ∨ validGamma s.go = false then failed .invalidGamma
      else if s.strategy = .lut ∧ s.lutValid = false then failed .lutNotBuilt
      else { s with stage := .preparingOutput })

/-- 42_pipeline R147, R148: PreparingOutput issues SetMeta with the record of R147, then on `Ok` enters Processing and on
`Error` ends the run with OUTPUT_ERROR. -/
def Obligations.PreparingOutputDeclaresTheMetadata : Prop :=
  ∀ (s : State), s.busy = true → s.stage = .preparingOutput →
    (s.pend = .none → turn .engine s = .next { s with
      requests := .setMeta ⟨s.width, s.height, 16, 3, s.rowsPerStrip, .rgb, .contiguous⟩ :: s.requests
      pend := .metaPending }) ∧
    (s.pend = .metaPending → s.answer = some .ok →
      turn .engine s = .next { s with answer := none, pend := .none, stage := .processing }) ∧
    (s.pend = .metaPending → s.answer = some .error → turn .engine s = .next { s with
      answer := none, pend := .none, err := .outputError, stage := .failed, busy := false })

/-- 42_pipeline R149, R150, R151: Processing with no request outstanding ends at ROWS_DONE = HEIGHT and else reads row
ROWS_DONE; `EndOfData` ends the run Done with TRUNC = 1 and ROWS_DONE unchanged. -/
def Obligations.ProcessingReadsOrEnds : Prop :=
  ∀ (s : State), s.busy = true → s.stage = .processing →
    (s.pend = .none → s.rowsDone = s.height →
      turn .engine s = .next { s with stage := .done, busy := false }) ∧
    (s.pend = .none → s.rowsDone.toNat < s.height.toNat → turn .engine s = .next { s with
      requests := .readRow s.rowsDone :: s.requests, pend := .readPending s.rowsDone }) ∧
    (∀ r, s.pend = .readPending r → s.answer = some .endOfData → turn .engine s = .next { s with
      answer := none, pend := .none, trunc := true, stage := .done, busy := false })

/-- 42_pipeline R142, R143, R152: on a row x of the stated shape (20_memory R59) the engine sets IN_BUF to x, and writes
row r with, for each pixel p and lane c, the conversion of the first three samples of the pixel, widened in shift mode;
samples beyond the third reach no output. -/
def Obligations.ConvertedRowIsPixelByPixel : Prop :=
  ∀ (s : State) (r : Word) (x : Row) (m : Matrix3), s.busy = true → s.stage = .processing →
    s.pend = .readPending r → s.answer = some (.row x) → s.rowShapeOk x = true →
    (s.bps = 8 ∨ s.bps = 16) → 3 ≤ s.spp.toNat → matrixRom s.fpFmt s.msel = some m →
      let sample (p c : Nat) : Sample :=
        if s.bps = 8 then x.getD (p * s.spp.toNat + c) 0 <<< 8 else x.getD (p * s.spp.toNat + c) 0
      ∃ out : Row,
        turn .engine s = .next { s with
          inBuf := x, outBuf := out, answer := none
          requests := .writeRow r out :: s.requests, pend := .writePending r } ∧
        out.length = s.width.toNat * 3 ∧
        ∀ p, p < s.width.toNat →
          p * s.spp.toNat + 2 < x.length ∧
          [out[p * 3]?, out[p * 3 + 1]?, out[p * 3 + 2]?] =
            (Lanes.toRow (s.convPixel m ⟨sample p 0, sample p 1, sample p 2⟩)).map some

/-- 42_pipeline R153, R154: `Ok` to the write counts the row, `WriteFailed` ends the run with WRITE_ERROR and leaves
ROWS_DONE; the buffers are then any value (10_state R44). -/
def Obligations.WriteAnswerCountsOrEnds : Prop :=
  ∀ (s : State) (r : Word), s.busy = true → s.stage = .processing → s.pend = .writePending r →
    (s.answer = some .ok → ∃ t, turn .engine s = .next t ∧
      t = { s with answer := none, pend := .none, rowsDone := r + 1,
                   inBuf := t.inBuf, outBuf := t.outBuf, draws := t.draws }) ∧
    (s.answer = some .writeFailed → ∃ t, turn .engine s = .next t ∧
      t = { s with answer := none, pend := .none, err := .writeError, stage := .failed, busy := false,
                   inBuf := t.inBuf, outBuf := t.outBuf, draws := t.draws })

/-- 42_pipeline R157, 20_memory R67: with BUSY = 0 the engine has no step; in a good state with BUSY = 1 it has one, or it
waits for an answer that has not come, and then it has none. -/
def Obligations.EngineMovesOrWaitsForTheAccessor : Prop :=
  (∀ s : State, s.busy = false → turn .engine s = .fault (.noStep .engine)) ∧
  ∀ s : State, s.Inv → s.busy = true →
    ((s.pend ≠ .none ∧ s.answer = none) → turn .engine s = .fault (.noStep .engine)) ∧
    (¬ (s.pend ≠ .none ∧ s.answer = none) → ∃ t, turn .engine s = .next t)

/-! ## The accessor -/

/-- 20_memory R59, R60, R67: the next answer to the outstanding request reaches the port when it is one of the request's
answers and, for a row, has WIDTH x SPP samples below 2^BPS; any other answer to it has no step, and neither has a second
answer while one is on the port (R59 "exactly one"). That an answer without a step is a named fault, and that answers
carry the number of their request, are the model's choices (logs 13, 12). -/
def Obligations.OnlyAdmittedAnswersReachThePort : Prop :=
  ∀ (s : State) (a : Answer) (rest : List Reply),
    s.replies = ⟨s.requests.length, a⟩ :: rest → s.pend ≠ .none →
    let fits : Prop :=
      (s.pend = .metaPending ∧ (a = .ok ∨ a = .error)) ∨
      (∃ r, s.pend = .readPending r ∧ (a = .endOfData ∨ ∃ x : Row, a = .row x ∧
        x.length = s.width.toNat * s.spp.toNat ∧ ∀ v ∈ x, v.toNat < 2 ^ s.bps.toNat)) ∨
      (∃ r, s.pend = .writePending r ∧ (a = .ok ∨ a = .writeFailed))
    (s.answer = none → fits → ∃ t, turn .accessor s = .next t ∧ t.answer = some a ∧ t.pend = s.pend) ∧
    (s.answer = none → ¬ fits → turn .accessor s = .fault .unadmittedAnswer) ∧
    (s.answer ≠ none → turn .accessor s = .fault .unadmittedAnswer)

/-- 20_memory R68: in a good state, `Ok` to WriteRow(r) leaves output row r holding the row of the newest request, which is
OUT_BUF. That OUT_BUF keeps the converted row until the answer, that the state holds an output image, and that requests
are logged and answers numbered are the model's choices (logs 7, 10, 12). -/
def Obligations.OkWritesTheConvertedRow : Prop :=
  ∀ (s : State) (r : Word) (rest : List Reply), s.Inv → s.pend = .writePending r → s.answer = none →
    s.replies = ⟨s.requests.length, .ok⟩ :: rest →
      ∃ t x, turn .accessor s = .next t ∧ s.requests.head? = some (.writeRow r x) ∧ x = s.outBuf ∧
        Memory.read t.outRows r.toNat = some x

/-! ## Whole-machine rules -/

/-- Reset has the invariant. -/
def Obligations.ResetStateIsGood : Prop := State.reset.Inv

/-- The headline invariant, from every state that has it and for every agent's step: the output rows keep their canonical
form; while LUT_VALID = 1 the tables are those of the current gammas (10_state R42); STATE, BUSY, PEND and ROWS_DONE fit
together (R21, R45); the checks of Validating hold from PreparingOutput on (42_pipeline R146); an outstanding SetMeta
declares the metadata of R147 and an outstanding row write is the conversion of the row read (R152); the run's requests
are in order (20_memory R61). That IN_BUF and OUT_BUF keep their rows until the answer to the write, which 10_state R44
does not promise, that the state holds an output image, and that requests are logged are the model's choices (logs 7, 10,
12). -/
def Obligations.EveryStepKeepsTheInvariant : Prop :=
  ∀ (s t : State), s.Inv → step s = .next t → t.Inv

/-- 20_memory R66, 10_state R48: while BUSY = 1 no step but a reset changes CTRL, the gammas, the tables, LUT_VALID or the
image metadata; 42_pipeline R158: nor PIX_IN, PIX_OUT or FV. And no step at all changes FP_FMT, a parameter (00_scope R6;
that the state carries it is the model's choice, log 1). -/
def Obligations.NothingConfiguredChangesDuringARun : Prop :=
  (∀ (s t : State), s.busy = true → s.mover ≠ some .reset → step s = .next t →
    s.sameConfiguration t ∧ s.sameUnitRegisters t) ∧
  ∀ (s t : State), step s = .next t → t.fpFmt = s.fpFmt

/-- 20_memory R61: a step issues at most one request, only the engine does, and only with none outstanding or, for a row
write, on the answer to the row read; it is SetMeta, ReadRow(ROWS_DONE) or WriteRow(ROWS_DONE), and the run's requests so
far stay exactly those of R61 in order. -/
def Obligations.RequestsGoOutOneAtATimeInOrder : Prop :=
  ∀ (s t : State), s.Inv → step s = .next t →
    t.RequestsInOrder ∧
    (t.requests = s.requests ∨
      (s.mover = some .engine ∧
        ((s.pend = .none ∧ t.requests = .setMeta s.runMetadata :: s.requests) ∨
         (s.pend = .none ∧ s.rowsDone.toNat < s.height.toNat ∧
           t.requests = .readRow s.rowsDone :: s.requests) ∨
         (s.pend = .readPending s.rowsDone ∧ ∃ x out, s.answer = some (.row x) ∧
           t.requests = .writeRow s.rowsDone out :: s.requests))))

/-- 20_memory R69: in a good state no step changes an output row other than the one whose write is outstanding; so a
WriteFailed at row r leaves rows 0 to r - 1. That rows of earlier runs stay, that a reset leaves the rows and that a late
write changes none are the model's choices (logs 10, 26, 8). -/
def Obligations.WrittenRowsStayWritten : Prop :=
  ∀ (s t : State) (k : Nat), s.Inv → step s = .next t → (∀ r, s.pend = .writePending r → k ≠ r.toNat) →
    Memory.read t.outRows k = Memory.read s.outRows k

/-- 42_pipeline R155: the step that ends a run, other than a reset, ends it in one of the three ways of R155, each with
its STATE, TRUNC, ERR and ROWS_DONE. -/
def Obligations.RunsEndInOneOfThreeWays : Prop :=
  ∀ (s t : State), s.Inv → s.busy = true → s.mover ≠ some .reset → step s = .next t → t.busy = false →
    s.EndedAsStated t

/-- 70_reset R200: a run takes at most 3·HEIGHT + 5 engine steps: along any schedule without a reset from the issue of a
run, as long as the run has not ended, fewer engine turns than that have been taken. Schedules and the count of engine
turns are the model's (logs 11, 21). -/
def Obligations.RunsTakeBoundedEngineSteps : Prop :=
  ∀ (s : State) (turns : List Agent), s.Inv → s.busy = true → s.stage = .init → s.sched = turns →
    .reset ∉ turns →
    (∀ k, k ≤ turns.length → ∃ t, Host.Core.run Sys2Proof.core k s = .next t ∧ t.busy = true) →
      turns.count .engine < 3 * s.height.toNat + 5

/-! ## Further statements -/

/-- 10_state R22: a read at each literal offset of the register map returns its register. -/
def Obligations.EachOffsetReadsItsRegister : Prop :=
  ∀ (s : State),
    s.readAt 0x000 = 0x43434201 ∧
    s.readAt 0x004 = (0 : BitVec 29) ++ s.msel ++ BitVec.ofBool (s.strategy == .power) ∧
    s.readAt 0x008 = 0 ∧ s.readAt 0x00C = s.statusWord ∧
    s.readAt 0x010 = s.width ∧ s.readAt 0x014 = s.height ∧ s.readAt 0x018 = s.bps ∧ s.readAt 0x01C = s.spp ∧
    s.readAt 0x020 = (0 : BitVec 30) ++ BitVec.ofBool s.isContig ++ BitVec.ofBool s.isRgb ∧
    s.readAt 0x024 = s.rowsPerStrip ∧ s.readAt 0x028 = s.rowsDone ∧
    s.readAt 0x030 = s.gammaIn.lo ∧ s.readAt 0x034 = s.gammaIn.hi ∧
    s.readAt 0x038 = s.gammaOut.lo ∧ s.readAt 0x03C = s.gammaOut.hi ∧
    s.readAt 0x040 = s.pixIn.r.zeroExtend 32 ∧ s.readAt 0x044 = s.pixIn.g.zeroExtend 32 ∧
    s.readAt 0x048 = s.pixIn.b.zeroExtend 32 ∧
    s.readAt 0x050 = s.pixOut.r.zeroExtend 32 ∧ s.readAt 0x054 = s.pixOut.g.zeroExtend 32 ∧
    s.readAt 0x058 = s.pixOut.b.zeroExtend 32 ∧
    s.readAt 0x060 = s.fv.r.lo ∧ s.readAt 0x064 = s.fv.r.hi ∧
    s.readAt 0x068 = s.fv.g.lo ∧ s.readAt 0x06C = s.fv.g.hi ∧
    s.readAt 0x070 = s.fv.b.lo ∧ s.readAt 0x074 = s.fv.b.hi

/-- 00_scope R8: fadd, fmul and fdiv. Of finite operands each is the FP value nearest to the exact sum, product or
quotient, ties to even, with overflow to infinity; a sum that is exactly zero is -0.0 only of two negative zeros; a NaN
operand, inf - inf, 0 · inf, 0 / 0 and inf / inf give a NaN; the other infinite cases and division by zero are as IEEE 754
has them. In either format. -/
def Obligations.FpOperationsRoundTheExactResult : Prop :=
  ∀ (fmt : FpFmt) (a b : F64),
    let flip := F64.sign a != F64.sign b
    let product := F64.signedUnits a * F64.signedUnits b
    let numerator : Int := if flip then -((F64.units a * F64.scale : Nat) : Int) else (F64.units a * F64.scale : Nat)
    ((F64.isNaN a = true ∨ F64.isNaN b = true) →
      F64.isNaN (fadd fmt a b) = true ∧ F64.isNaN (fmul fmt a b) = true ∧ F64.isNaN (fdiv fmt a b) = true) ∧
    (F64.isFinite a = true → F64.isFinite b = true →
      (F64.signedUnits a + F64.signedUnits b ≠ 0 →
        F64.IsNearest fmt (F64.signedUnits a + F64.signedUnits b) 1 (fadd fmt a b) ∧
        F64.sign (fadd fmt a b) = decide (F64.signedUnits a + F64.signedUnits b < 0)) ∧
      (F64.signedUnits a + F64.signedUnits b = 0 →
        fadd fmt a b = if F64.sign a && F64.sign b then 0x8000000000000000 else 0x0000000000000000) ∧
      F64.IsNearest fmt product F64.scale (fmul fmt a b) ∧ F64.sign (fmul fmt a b) = flip ∧
      (F64.units b ≠ 0 →
        F64.IsNearest fmt numerator (F64.units b) (fdiv fmt a b) ∧ F64.sign (fdiv fmt a b) = flip) ∧
      (F64.units b = 0 → F64.units a = 0 → F64.isNaN (fdiv fmt a b) = true) ∧
      (F64.units b = 0 → F64.units a ≠ 0 → fdiv fmt a b = F64.make flip F64.infMag)) ∧
    (F64.isInf a = true → F64.isInf b = true →
      (flip = true → F64.isNaN (fadd fmt a b) = true) ∧ (flip = false → fadd fmt a b = a) ∧
      fmul fmt a b = F64.make flip F64.infMag ∧ F64.isNaN (fdiv fmt a b) = true) ∧
    (F64.isInf a = true → F64.isFinite b = true →
      fadd fmt a b = a ∧ fadd fmt b a = a ∧
      (F64.units b = 0 → F64.isNaN (fmul fmt a b) = true ∧ F64.isNaN (fmul fmt b a) = true) ∧
      (F64.units b ≠ 0 → fmul fmt a b = F64.make flip F64.infMag ∧ fmul fmt b a = F64.make flip F64.infMag) ∧
      fdiv fmt a b = F64.make flip F64.infMag ∧ fdiv fmt b a = F64.make flip 0)

/-- 20_memory R60, 42_pipeline R147: in a good state, `Ok` to SetMeta leaves the output metadata at the record of R147;
`Ok` changes no output row. That the state holds the output and that answers are numbered are the model's choices (logs
10, 12). -/
def Obligations.OkDeclaresTheOutputMetadata : Prop :=
  ∀ (s : State) (rest : List Reply), s.Inv → s.pend = .metaPending → s.answer = none →
    s.replies = ⟨s.requests.length, .ok⟩ :: rest →
      ∃ t, turn .accessor s = .next t ∧ t.outRows = s.outRows ∧
        t.outMeta = some ⟨s.width, s.height, 16, 3, s.rowsPerStrip, .rgb, .contiguous⟩
end

