-- ==== Sys2Proof/Laws/Float.lean ====
section
/-! SUPPORT. The laws of the FP operations and of Pow that later proofs cite, in either format: sign and magnitude of a
value made from them, rounding is monotone and exact on the values of the format, the operations on [+0.0, 1.0], and P1
to P5 of 40_gamma R103. -/

namespace Sys2Proof.Machine

/-! ## Signs and magnitudes -/

theorem F64.mag_lt (x : F64) : F64.mag x < 2 ^ 63 := Nat.mod_lt _ (by decide)

theorem F64.sign_eq (x : F64) : F64.sign x = decide (2 ^ 63 ≤ x.toNat) := by
  have h := x.isLt
  rw [F64.sign, BitVec.getLsbD, Nat.testBit_eq_decide_div_mod_eq]
  by_cases hx : 2 ^ 63 ≤ x.toNat
  · simp only [hx, decide_true, decide_eq_true_eq]
    omega
  · simp only [hx, decide_false, decide_eq_false_iff_not]
    omega

theorem F64.toNat_make {m : Nat} (neg : Bool) (h : m < 2 ^ 63) :
    (F64.make neg m).toNat = m + if neg then 2 ^ 63 else 0 := by
  have : m + (if neg then 2 ^ 63 else 0) < 2 ^ 64 := by split <;> omega
  rw [F64.make, BitVec.toNat_ofNat, Nat.mod_eq_of_lt this]

theorem F64.mag_make {m : Nat} (neg : Bool) (h : m < 2 ^ 63) : F64.mag (F64.make neg m) = m := by
  rw [F64.mag, F64.toNat_make neg h]
  split <;> omega

theorem F64.sign_make {m : Nat} (neg : Bool) (h : m < 2 ^ 63) : F64.sign (F64.make neg m) = neg := by
  rw [F64.sign_eq, F64.toNat_make neg h]
  cases neg with
  | false => simpa using h
  | true => simp

theorem F64.make_sign_mag (x : F64) : F64.make (F64.sign x) (F64.mag x) = x := by
  have hx := x.isLt
  apply BitVec.eq_of_toNat_eq
  rw [F64.toNat_make _ (F64.mag_lt x), F64.sign_eq, F64.mag]
  by_cases h : 2 ^ 63 ≤ x.toNat
  · simp only [h, decide_true, if_true]
    omega
  · simp only [h, decide_false, Bool.false_eq_true, if_false]
    omega

theorem F64.infMag_lt : F64.infMag < 2 ^ 63 := by decide

theorem F64.oneCode_lt_infMag : oneCode < F64.infMag := by decide

theorem F64.scale_pos : 0 < F64.scale := by decide +kernel

/-! ## Rounding -/

theorem div_le_roundHalfEven (n d : Nat) : n / d ≤ roundHalfEven n d := by
  unfold roundHalfEven
  split_ifs <;> omega

theorem roundHalfEven_le_succ (n d : Nat) : roundHalfEven n d ≤ n / d + 1 := by
  unfold roundHalfEven
  split_ifs <;> omega

theorem roundHalfEven_mono {n n' d : Nat} (h : n ≤ n') :
    roundHalfEven n d ≤ roundHalfEven n' d := by
  have hq : n / d ≤ n' / d := Nat.div_le_div_right h
  rcases Nat.lt_or_eq_of_le hq with hlt | heq
  · exact (roundHalfEven_le_succ n d).trans (hlt.trans_le (div_le_roundHalfEven n' d))
  · have hr : n % d ≤ n' % d := by
      have h1 := Nat.div_add_mod n d
      have h2 := Nat.div_add_mod n' d
      rw [heq] at h1
      omega
    unfold roundHalfEven
    rw [heq]
    split_ifs <;> omega

theorem roundHalfEven_mul (k : Nat) {d : Nat} (h : 0 < d) : roundHalfEven (k * d) d = k := by
  unfold roundHalfEven
  simp [Nat.mul_div_cancel _ h, h]

/-- The step exponent brings the quotient below 2^(f+1). -/
theorem quotient_lt (f q : Nat) : q / 2 ^ (Nat.log2 q - f) < 2 ^ (f + 1) := by
  rw [Nat.div_lt_iff_lt_mul (Nat.two_pow_pos _), ← Nat.pow_add]
  refine (Nat.lt_log2_self (n := q)).trans_le (Nat.pow_le_pow_right (by decide) ?_)
  omega

/-- Above 2^f the step exponent keeps the quotient at 2^f or more. -/
theorem le_quotient {f q : Nat} (h : 2 ^ f ≤ q) : 2 ^ f ≤ q / 2 ^ (Nat.log2 q - f) := by
  have hq : q ≠ 0 := by
    have := Nat.two_pow_pos f
    omega
  have hl : f ≤ Nat.log2 q := (Nat.le_log2 hq).2 h
  rw [Nat.le_div_iff_mul_le (Nat.two_pow_pos _), ← Nat.pow_add]
  have : f + (Nat.log2 q - f) = Nat.log2 q := by omega
  rw [this]
  exact Nat.log2_self_le hq

theorem log2_mono {q q' : Nat} (h : q ≤ q') : Nat.log2 q ≤ Nat.log2 q' := by
  by_cases hq : q = 0
  · rw [hq]
    exact Nat.zero_le _
  · exact (Nat.le_log2 (by omega)).2 ((Nat.log2_self_le hq).trans h)

/-- A quotient below 2^(f+1) is taken in steps of one quantum. -/
theorem log2_sub_eq_zero {f q : Nat} (h : q < 2 ^ (f + 1)) : Nat.log2 q - f = 0 := by
  by_cases h0 : q = 0
  · rw [h0]
    simp
  · have := (Nat.log2_lt h0).2 h
    omega

theorem roundToCode_le_inf (f inf n d : Nat) : roundToCode f inf n d ≤ inf := Nat.min_le_right _ _

/-- Rounding to a code is monotone (00_scope R8). -/
theorem roundToCode_mono (f inf : Nat) {n n' d : Nat} (h : n ≤ n') :
    roundToCode f inf n d ≤ roundToCode f inf n' d := by
  have hq : n / d ≤ n' / d := Nat.div_le_div_right h
  unfold roundToCode
  refine min_le_min ?_ le_rfl
  have he : Nat.log2 (n / d) - f ≤ Nat.log2 (n' / d) - f := by
    have := log2_mono hq
    omega
  rcases Nat.lt_or_eq_of_le he with hlt | heq
  · have hup := roundHalfEven_le_succ n (d * 2 ^ (Nat.log2 (n / d) - f))
    have hlo := div_le_roundHalfEven n' (d * 2 ^ (Nat.log2 (n' / d) - f))
    rw [← Nat.div_div_eq_div_mul] at hup hlo
    have h1 := quotient_lt f (n / d)
    have h2 : 2 ^ f ≤ n' / d := by
      by_contra hc
      have hz : n' / d < 2 ^ (f + 1) := by
        rw [Nat.pow_succ]
        omega
      have := log2_sub_eq_zero hz
      omega
    have h3 := le_quotient h2
    have h4 : (Nat.log2 (n / d) - f) * 2 ^ f + 2 ^ f ≤ (Nat.log2 (n' / d) - f) * 2 ^ f := by
      rw [← Nat.succ_mul]
      exact Nat.mul_le_mul_right _ hlt
    rw [Nat.pow_succ] at h1
    omega
  · rw [heq]
    have := roundHalfEven_mono (d := d * 2 ^ (Nat.log2 (n' / d) - f)) h
    omega

theorem log2_mul_two_pow {f k : Nat} (e : Nat) (h1 : 2 ^ f ≤ k) (h2 : k < 2 ^ (f + 1)) :
    Nat.log2 (k * 2 ^ e) = f + e := by
  have hp := Nat.two_pow_pos f
  have hk : k * 2 ^ e ≠ 0 := Nat.mul_ne_zero (by omega) (Nat.two_pow_pos e).ne'
  rw [Nat.log2_eq_iff hk]
  constructor
  · rw [Nat.pow_add]
    exact Nat.mul_le_mul_right _ h1
  · have : 2 ^ (f + e + 1) = 2 ^ (f + 1) * 2 ^ e := by
      rw [← Nat.pow_add]
      congr 1
      omega
    rw [this]
    exact Nat.mul_lt_mul_of_pos_right h2 (Nat.two_pow_pos e)

/-- A number of whole steps of 2^e quanta, of f + 1 bits, rounds to the code with e added to the exponent field. -/
theorem roundToCode_steps {f inf a e d : Nat} (hd : 0 < d) (h1 : 2 ^ f ≤ a ∨ e = 0) (h2 : a < 2 ^ (f + 1)) :
    roundToCode f inf (a * 2 ^ e * d) d = min (e * 2 ^ f + a) inf := by
  unfold roundToCode
  simp only [Nat.mul_div_cancel _ hd]
  have hl : Nat.log2 (a * 2 ^ e) - f = e := by
    rcases h1 with h1 | rfl
    · rw [log2_mul_two_pow e h1 h2]
      omega
    · rw [Nat.pow_zero, Nat.mul_one]
      exact log2_sub_eq_zero h2
  rw [hl, Nat.mul_assoc, Nat.mul_comm (2 ^ e) d, roundHalfEven_mul _ (Nat.mul_pos hd (Nat.two_pow_pos _))]

/-- Every code is a number of whole steps. -/
theorem code_steps (f c : Nat) : ∃ a e, codeUnits f c = a * 2 ^ e ∧ c = e * 2 ^ f + a ∧
    (2 ^ f ≤ a ∨ e = 0) ∧ a < 2 ^ (f + 1) := by
  have hp := Nat.two_pow_pos f
  have hlt : c % 2 ^ f < 2 ^ f := Nat.mod_lt _ hp
  have hdm := Nat.div_add_mod c (2 ^ f)
  unfold codeUnits
  rw [Nat.pow_succ]
  by_cases h : c / 2 ^ f = 0
  · refine ⟨c % 2 ^ f, 0, by simp [h], ?_, .inr rfl, by omega⟩
    rw [h, Nat.mul_zero] at hdm
    omega
  · refine ⟨2 ^ f + c % 2 ^ f, c / 2 ^ f - 1, by simp [h], ?_, .inl (by omega), by omega⟩
    obtain ⟨k, hk⟩ := Nat.exists_eq_succ_of_ne_zero h
    rw [Nat.succ_eq_add_one] at hk
    rw [hk] at hdm ⊢
    rw [Nat.mul_succ] at hdm
    rw [Nat.add_sub_cancel, Nat.mul_comm k]
    omega

/-- Whole steps of f + 1 bits are the value of the code that has them. -/
theorem codeUnits_steps {f a e : Nat} (h1 : 2 ^ f ≤ a ∨ e = 0) (h2 : a < 2 ^ (f + 1)) :
    codeUnits f (e * 2 ^ f + a) = a * 2 ^ e := by
  have hp := Nat.two_pow_pos f
  rw [Nat.pow_succ] at h2
  unfold codeUnits
  by_cases ha : 2 ^ f ≤ a
  · have hq : (e * 2 ^ f + a) / 2 ^ f = e + 1 := by
      rw [Nat.add_comm, Nat.add_mul_div_right _ _ hp]
      have : a / 2 ^ f = 1 := Nat.div_eq_of_lt_le (by omega) (by omega)
      omega
    have hm : (e * 2 ^ f + a) % 2 ^ f = a - 2 ^ f := by
      rw [Nat.add_comm, Nat.add_mul_mod_self_right, Nat.mod_eq_sub_mod ha, Nat.mod_eq_of_lt (by omega)]
    rw [hq, hm, if_neg (Nat.succ_ne_zero e), Nat.add_sub_cancel]
    congr 1
    omega
  · have he : e = 0 := h1.resolve_left ha
    subst he
    have hq : (0 * 2 ^ f + a) / 2 ^ f = 0 := by
      rw [Nat.zero_mul, Nat.zero_add]
      exact Nat.div_eq_of_lt (by omega)
    rw [if_pos hq, Nat.zero_mul, Nat.zero_add, Nat.mod_eq_of_lt (by omega), Nat.pow_zero, Nat.mul_one]

/-- Rounding the value of a code gives the code back (00_scope R8). -/
theorem roundToCode_exact {f inf c d : Nat} (hd : 0 < d) (hc : c ≤ inf) :
    roundToCode f inf (codeUnits f c * d) d = c := by
  obtain ⟨a, e, hu, hce, h1, h2⟩ := code_steps f c
  rw [hu, roundToCode_steps hd h1 h2, ← hce]
  exact Nat.min_eq_left hc

theorem codeUnits_mono (f : Nat) {c c' : Nat} (h : c ≤ c') : codeUnits f c ≤ codeUnits f c' := by
  by_contra hc
  have := roundToCode_mono f c' (d := 1) (Nat.le_of_lt (Nat.not_le.1 hc))
  rcases Nat.lt_or_eq_of_le h with hlt | rfl
  · have h1 := roundToCode_exact (f := f) (inf := c') (c := c') Nat.one_pos le_rfl
    have h2 := roundToCode_exact (f := f) (inf := c') (c := c) Nat.one_pos h
    rw [Nat.mul_one] at h1 h2
    omega
  · exact hc le_rfl

/-! ## Rounding to FP_FMT -/

theorem FpFmt.quantum_pos (fmt : FpFmt) : 0 < fmt.quantum := by
  unfold FpFmt.quantum
  split <;> positivity

theorem FpFmt.roundCode_le_inf (fmt : FpFmt) (n d : Nat) : fmt.roundCode n d ≤ fmt.infCode :=
  roundToCode_le_inf _ _ _ _

theorem FpFmt.roundCode_mono (fmt : FpFmt) {n n' d : Nat} (h : n ≤ n') :
    fmt.roundCode n d ≤ fmt.roundCode n' d := roundToCode_mono _ _ h

/-- Rounding the value of a code of a format gives the code back. -/
theorem FpFmt.roundCode_exact (fmt : FpFmt) {c d : Nat} (hd : 0 < d) (hc : c ≤ fmt.infCode) :
    fmt.roundCode (fmt.unitsOfCode c * d) d = c := by
  unfold FpFmt.roundCode FpFmt.unitsOfCode
  rw [Nat.mul_assoc, Nat.mul_comm fmt.quantum d]
  exact roundToCode_exact (Nat.mul_pos hd fmt.quantum_pos) hc

/-- A finite code of binary32, as binary64 code: of the same value (00_scope R6). -/
theorem unitsOfMag_widen {c : Nat} (hc : c < FpFmt.infCode .binary32) :
    roundToCode 52 F64.infMag (FpFmt.unitsOfCode .binary32 c) 1 < F64.infMag ∧
      codeUnits 52 (roundToCode 52 F64.infMag (FpFmt.unitsOfCode .binary32 c) 1)
        = FpFmt.unitsOfCode .binary32 c := by
  obtain ⟨a, e, hu, hce, h1, h2⟩ := code_steps 23 c
  have hc' : c < 0x7F800000 := hc
  have he : e < 254 := by omega
  have huc : FpFmt.unitsOfCode .binary32 c = a * 2 ^ (e + 925) := by
    show codeUnits 23 c * 2 ^ 925 = _
    rw [hu, Nat.mul_assoc, ← Nat.pow_add]
  rw [huc]
  -- the value has at most 24 bits, so it is a number of whole steps of binary64
  obtain ⟨b, k, hbk, hb1, hb2, hk⟩ : ∃ b k, a * 2 ^ (e + 925) = b * 2 ^ k ∧ (2 ^ 52 ≤ b ∨ k = 0) ∧
      b < 2 ^ 53 ∧ k ≤ e + 925 := by
    by_cases h0 : a = 0
    · exact ⟨0, 0, by simp [h0], .inr rfl, by decide, Nat.zero_le _⟩
    · have hl : Nat.log2 a ≤ 23 := by
        have := (Nat.log2_lt h0).2 h2
        omega
      have hlo := Nat.log2_self_le h0
      have hhi := Nat.lt_log2_self (n := a)
      refine ⟨a * 2 ^ (52 - Nat.log2 a), e + 925 - (52 - Nat.log2 a), ?_, .inl ?_, ?_, by omega⟩
      · rw [Nat.mul_assoc, ← Nat.pow_add,
          show 52 - Nat.log2 a + (e + 925 - (52 - Nat.log2 a)) = e + 925 by omega]
      · calc 2 ^ 52 = 2 ^ Nat.log2 a * 2 ^ (52 - Nat.log2 a) := by
              rw [← Nat.pow_add, show Nat.log2 a + (52 - Nat.log2 a) = 52 by omega]
          _ ≤ _ := Nat.mul_le_mul_right _ hlo
      · calc a * 2 ^ (52 - Nat.log2 a) < 2 ^ (Nat.log2 a + 1) * 2 ^ (52 - Nat.log2 a) :=
              Nat.mul_lt_mul_of_pos_right hhi (Nat.two_pow_pos _)
          _ = 2 ^ 53 := by
              rw [← Nat.pow_add, show Nat.log2 a + 1 + (52 - Nat.log2 a) = 53 by omega]
  have hr := roundToCode_steps (f := 52) (inf := F64.infMag) (d := 1) Nat.one_pos hb1 hb2
  rw [Nat.mul_one] at hr
  have hlt : k * 2 ^ 52 + b < F64.infMag := by
    have : F64.infMag = 2047 * 2 ^ 52 := by decide
    rw [this]
    omega
  rw [hbk, hr, Nat.min_eq_left hlt.le]
  exact ⟨hlt, codeUnits_steps hb1 hb2⟩

/-- The binary64 code of a finite code of a format is finite and stands for the same value. -/
theorem FpFmt.magOfCode_finite {fmt : FpFmt} {c : Nat} (hc : c < fmt.infCode) :
    fmt.magOfCode c < F64.infMag ∧ F64.unitsOfMag (fmt.magOfCode c) = fmt.unitsOfCode c := by
  cases fmt with
  | binary64 =>
    refine ⟨hc, ?_⟩
    show codeUnits 52 c = codeUnits 52 c * 1
    rw [Nat.mul_one]
  | binary32 =>
    rw [FpFmt.magOfCode, if_pos hc]
    exact unitsOfMag_widen hc

theorem FpFmt.magOfCode_inf (fmt : FpFmt) : fmt.magOfCode fmt.infCode = F64.infMag := by
  cases fmt <;> decide

theorem FpFmt.magOfCode_mono (fmt : FpFmt) {c c' : Nat} (h : c ≤ c') : fmt.magOfCode c ≤ fmt.magOfCode c' := by
  cases fmt with
  | binary64 => exact h
  | binary32 =>
    unfold FpFmt.magOfCode
    simp only
    split_ifs with h1 h2
    · exact roundToCode_mono _ _ (Nat.mul_le_mul_right _ (codeUnits_mono _ h))
    · exact (unitsOfMag_widen h1).1.le.trans (Nat.le_add_right _ _)
    · omega
    · omega

/-- The magnitude code of a value of the format that is no NaN (00_scope R8). -/
def F64.IsMag (fmt : FpFmt) (m : Nat) : Prop := ∃ c, c ≤ fmt.infCode ∧ m = fmt.magOfCode c

theorem F64.isMag_roundMag (fmt : FpFmt) (n d : Nat) : F64.IsMag fmt (F64.roundMag fmt n d) :=
  ⟨_, fmt.roundCode_le_inf n d, rfl⟩

theorem F64.IsMag.le {fmt : FpFmt} {m : Nat} (h : F64.IsMag fmt m) : m ≤ F64.infMag := by
  obtain ⟨c, hc, rfl⟩ := h
  exact (fmt.magOfCode_mono hc).trans_eq fmt.magOfCode_inf

theorem F64.roundMag_le_infMag (fmt : FpFmt) (n d : Nat) : F64.roundMag fmt n d ≤ F64.infMag :=
  (F64.isMag_roundMag fmt n d).le

/-- Rounding is monotone (00_scope R8, used by 40_gamma R120). -/
theorem F64.roundMag_mono (fmt : FpFmt) {n n' d : Nat} (h : n ≤ n') :
    F64.roundMag fmt n d ≤ F64.roundMag fmt n' d := fmt.magOfCode_mono (fmt.roundCode_mono h)

/-- Rounding the magnitude of a value of the format gives it back (00_scope R8). -/
theorem F64.roundMag_exact {fmt : FpFmt} {m d : Nat} (hd : 0 < d) (hm : F64.IsMag fmt m) :
    F64.roundMag fmt (F64.unitsOfMag m * d) d = m := by
  obtain ⟨c, hc, rfl⟩ := hm
  unfold F64.roundMag
  rcases Nat.lt_or_eq_of_le hc with hlt | rfl
  · rw [(FpFmt.magOfCode_finite hlt).2, fmt.roundCode_exact hd hc]
  · congr 1
    refine Nat.le_antisymm (fmt.roundCode_le_inf _ _) ?_
    have hle : fmt.unitsOfCode fmt.infCode ≤ F64.unitsOfMag (fmt.magOfCode fmt.infCode) := by
      cases fmt <;> decide +kernel
    exact (fmt.roundCode_exact hd le_rfl).symm.trans_le (fmt.roundCode_mono (Nat.mul_le_mul_right _ hle))

/-- Every magnitude code up to infinity is one of binary64. -/
theorem F64.isMag_binary64 {m : Nat} (h : m ≤ F64.infMag) : F64.IsMag .binary64 m := ⟨m, h, rfl⟩

theorem F64.isMag_zero (fmt : FpFmt) : F64.IsMag fmt 0 := ⟨0, Nat.zero_le _, by cases fmt <;> decide +kernel⟩

theorem F64.isMag_oneCode (fmt : FpFmt) : F64.IsMag fmt oneCode := by
  cases fmt with
  | binary64 => exact F64.isMag_binary64 F64.oneCode_lt_infMag.le
  | binary32 => exact ⟨0x3F800000, by decide, by decide +kernel⟩

/-- A quotient at most a magnitude of the format rounds to at most that magnitude. -/
theorem F64.roundMag_le {fmt : FpFmt} {n d m : Nat} (hd : 0 < d) (hm : F64.IsMag fmt m)
    (h : n ≤ F64.unitsOfMag m * d) : F64.roundMag fmt n d ≤ m :=
  (F64.roundMag_mono fmt h).trans_eq (F64.roundMag_exact hd hm)

/-- A quotient at least a magnitude of the format rounds to at least that magnitude. -/
theorem F64.le_roundMag {fmt : FpFmt} {n d m : Nat} (hd : 0 < d) (hm : F64.IsMag fmt m)
    (h : F64.unitsOfMag m * d ≤ n) : m ≤ F64.roundMag fmt n d :=
  (F64.roundMag_exact hd hm).symm.trans_le (F64.roundMag_mono fmt h)

theorem F64.unitsOfMag_mono {m m' : Nat} (h : m ≤ m') : F64.unitsOfMag m ≤ F64.unitsOfMag m' :=
  codeUnits_mono 52 h

theorem F64.unitsOfMag_one : F64.unitsOfMag oneCode = F64.scale := by decide +kernel

/-! ## The values of a format -/

/-- A pattern is a value of the format exactly when it is a NaN or its magnitude is one of the format's. -/
theorem F64.holds_iff (fmt : FpFmt) (x : F64) :
    F64.holds fmt x = true ↔ F64.isNaN x = true ∨ F64.IsMag fmt (F64.mag x) := by
  cases fmt with
  | binary64 =>
    simp only [F64.holds, true_iff]
    by_cases h : F64.infMag < F64.mag x
    · exact .inl (decide_eq_true h)
    · exact .inr (F64.isMag_binary64 (Nat.not_lt.1 h))
  | binary32 =>
    simp only [F64.holds, Bool.or_eq_true, beq_iff_eq]
    refine or_congr_right ⟨fun h => h ▸ F64.isMag_roundMag _ _ _, fun h => ?_⟩
    have := F64.roundMag_exact Nat.one_pos h
    rwa [Nat.mul_one] at this

theorem F64.holds_make {fmt : FpFmt} {m : Nat} (neg : Bool) (h : F64.IsMag fmt m) :
    F64.holds fmt (F64.make neg m) = true := by
  rw [F64.holds_iff, F64.mag_make _ (h.le.trans_lt F64.infMag_lt)]
  exact .inr h

theorem F64.holds_nan (fmt : FpFmt) {x : F64} (h : F64.isNaN x = true) : F64.holds fmt x = true :=
  (F64.holds_iff fmt x).2 (.inl h)

/-! ## Values in [+0.0, 1.0] -/

theorem F64.inUnit_iff (x : F64) : F64.inUnit x = true ↔ F64.sign x = false ∧ F64.mag x ≤ oneCode := by
  simp [F64.inUnit]

theorem F64.inUnit_make {m : Nat} (h : m ≤ oneCode) : F64.inUnit (F64.make false m) = true := by
  have hlt : m < 2 ^ 63 := by have : oneCode < 2 ^ 63 := by decide
                              omega
  rw [F64.inUnit_iff, F64.sign_make _ hlt, F64.mag_make _ hlt]
  exact ⟨rfl, h⟩

theorem F64.isNaN_of_inUnit {x : F64} (h : F64.inUnit x = true) : F64.isNaN x = false := by
  have := ((F64.inUnit_iff x).1 h).2
  have h1 := F64.oneCode_lt_infMag
  simp only [F64.isNaN, decide_eq_false_iff_not]
  omega

theorem F64.isInf_of_inUnit {x : F64} (h : F64.inUnit x = true) : F64.isInf x = false := by
  have := ((F64.inUnit_iff x).1 h).2
  have h1 := F64.oneCode_lt_infMag
  simp only [F64.isInf, beq_eq_false_iff_ne]
  omega

theorem F64.units_le_of_inUnit {x : F64} (h : F64.inUnit x = true) : F64.units x ≤ F64.scale := by
  rw [← F64.unitsOfMag_one]
  exact F64.unitsOfMag_mono ((F64.inUnit_iff x).1 h).2

/-- The order of two values that are neither negative nor NaN is the order of their codes. -/
theorem F64.le_iff_mag {x y : F64} (hx : F64.inUnit x = true) (hy : F64.inUnit y = true) :
    F64.le x y = true ↔ F64.mag x ≤ F64.mag y := by
  simp [F64.le, F64.isNaN_of_inUnit hx, F64.isNaN_of_inUnit hy, F64.key,
    ((F64.inUnit_iff x).1 hx).1, ((F64.inUnit_iff y).1 hy).1]

/-- A product of two values in [+0.0, 1.0], as code. -/
theorem fmul_of_inUnit (fmt : FpFmt) {x y : F64} (hx : F64.inUnit x = true) (hy : F64.inUnit y = true) :
    fmul fmt x y = F64.make false (F64.roundMag fmt (F64.units x * F64.units y) F64.scale) := by
  simp [fmul, F64.isNaN_of_inUnit hx, F64.isNaN_of_inUnit hy, F64.isInf_of_inUnit hx,
    F64.isInf_of_inUnit hy, ((F64.inUnit_iff x).1 hx).1, ((F64.inUnit_iff y).1 hy).1]

theorem fmul_inUnit (fmt : FpFmt) {x y : F64} (hx : F64.inUnit x = true) (hy : F64.inUnit y = true) :
    F64.inUnit (fmul fmt x y) = true := by
  rw [fmul_of_inUnit fmt hx hy]
  refine F64.inUnit_make (F64.roundMag_le F64.scale_pos (F64.isMag_oneCode fmt) ?_)
  rw [F64.unitsOfMag_one]
  exact Nat.mul_le_mul (F64.units_le_of_inUnit hx) (F64.units_le_of_inUnit hy)

/-! ## Pow (40_gamma R103) -/

theorem pow_gamma_one (fmt : FpFmt) {x : F64} (hx : F64.inUnit x = true) : pow fmt x F64.one = x := by
  have : validGamma F64.one = true := by decide
  simp [pow, hx, this]

/-- The magnitude code of Pow for an exponent other than 1.0. -/
theorem pow_of_inUnit (fmt : FpFmt) {x g : F64} (hx : F64.inUnit x = true) (hg : validGamma g = true)
    (h1 : g ≠ F64.one) :
    pow fmt x g = F64.make false (F64.roundMag fmt (F64.unitsOfMag
      (Config.powUnit g ⟨F64.mag x, Nat.lt_succ_of_le ((F64.inUnit_iff x).1 hx).2⟩).val) 1) := by
  have : Fin.ofNat (oneCode + 1) (F64.mag x)
      = ⟨F64.mag x, Nat.lt_succ_of_le ((F64.inUnit_iff x).1 hx).2⟩ :=
    Fin.ext (Nat.mod_eq_of_lt (Nat.lt_succ_of_le ((F64.inUnit_iff x).1 hx).2))
  simp only [pow, hx, hg, Bool.and_self, if_true, h1, if_false, this]

/-- A magnitude in [+0.0, 1.0] rounds to one in [+0.0, 1.0]. -/
theorem roundMag_unit_le (fmt : FpFmt) (c : UnitCode) :
    F64.roundMag fmt (F64.unitsOfMag c.val) 1 ≤ oneCode := by
  refine F64.roundMag_le Nat.one_pos (F64.isMag_oneCode fmt) ?_
  rw [Nat.mul_one]
  exact F64.unitsOfMag_mono (Nat.le_of_lt_succ c.isLt)

/-- P3: the power of a value in [+0.0, 1.0] is in [+0.0, 1.0]. -/
theorem pow_inUnit (fmt : FpFmt) {x g : F64} (hx : F64.inUnit x = true) (hg : validGamma g = true) :
    F64.inUnit (pow fmt x g) = true := by
  by_cases h1 : g = F64.one
  · rw [h1, pow_gamma_one fmt hx]; exact hx
  · rw [pow_of_inUnit fmt hx hg h1]
    exact F64.inUnit_make (roundMag_unit_le fmt _)

/-- The power of a value of the format is a value of the format. -/
theorem pow_holds {fmt : FpFmt} {x g : F64} (hx : F64.inUnit x = true) (hf : F64.holds fmt x = true)
    (hg : validGamma g = true) : F64.holds fmt (pow fmt x g) = true := by
  by_cases h1 : g = F64.one
  · rw [h1, pow_gamma_one fmt hx]; exact hf
  · rw [pow_of_inUnit fmt hx hg h1]
    exact F64.holds_make _ (F64.isMag_roundMag _ _ _)

/-- P1: the power of +0.0 is +0.0. -/
theorem pow_zero_base (fmt : FpFmt) {g : F64} (hg : validGamma g = true) :
    pow fmt F64.posZero g = F64.posZero := by
  have hx : F64.inUnit F64.posZero = true := by decide
  by_cases h1 : g = F64.one
  · rw [h1, pow_gamma_one fmt hx]
  · rw [pow_of_inUnit fmt hx hg h1]
    have hb : (⟨F64.mag F64.posZero, Nat.lt_succ_of_le ((F64.inUnit_iff _).1 hx).2⟩ : UnitCode) = ⊥ := rfl
    rw [hb, map_bot]
    have h := F64.roundMag_exact (d := 1) Nat.one_pos (F64.isMag_zero fmt)
    rw [Nat.mul_one] at h
    show F64.make false (F64.roundMag fmt (F64.unitsOfMag 0) 1) = _
    rw [h]
    rfl

/-- P2: the power of 1.0 is 1.0. -/
theorem pow_one_base (fmt : FpFmt) {g : F64} (hg : validGamma g = true) : pow fmt F64.one g = F64.one := by
  have hx : F64.inUnit F64.one = true := by decide
  by_cases h1 : g = F64.one
  · rw [h1, pow_gamma_one fmt hx]
  · rw [pow_of_inUnit fmt hx hg h1]
    have hb : (⟨F64.mag F64.one, Nat.lt_succ_of_le ((F64.inUnit_iff _).1 hx).2⟩ : UnitCode) = ⊤ :=
      Fin.ext (by decide : F64.mag F64.one = oneCode)
    rw [hb, map_top]
    have h := F64.roundMag_exact (d := 1) Nat.one_pos (F64.isMag_oneCode fmt)
    rw [Nat.mul_one] at h
    show F64.make false (F64.roundMag fmt (F64.unitsOfMag oneCode) 1) = _
    rw [h]
    decide

/-- P4: Pow is monotone in its first argument. -/
theorem pow_mono (fmt : FpFmt) {x y g : F64} (hx : F64.inUnit x = true) (hy : F64.inUnit y = true)
    (hg : validGamma g = true) (h : F64.le x y = true) : F64.le (pow fmt x g) (pow fmt y g) = true := by
  have hm := (F64.le_iff_mag hx hy).1 h
  by_cases h1 : g = F64.one
  · rw [h1, pow_gamma_one fmt hx, pow_gamma_one fmt hy]; exact h
  · rw [F64.le_iff_mag (pow_inUnit fmt hx hg) (pow_inUnit fmt hy hg), pow_of_inUnit fmt hx hg h1,
      pow_of_inUnit fmt hy hg h1]
    rw [F64.mag_make _ ((F64.roundMag_le_infMag _ _ _).trans_lt F64.infMag_lt),
      F64.mag_make _ ((F64.roundMag_le_infMag _ _ _).trans_lt F64.infMag_lt)]
    exact F64.roundMag_mono fmt (F64.unitsOfMag_mono ((Config.powUnit g).monotone' (Fin.mk_le_mk.2 hm)))

end Sys2Proof.Machine
end

