-- ==== Sys2Proof/Laws/Memory.lean ====
section
/-! SUPPORT. The output rows: a read after a write, a write leaves every other row alone, and every write keeps the
canonical form (20_memory R50, R69; log 10). -/

namespace Sys2Proof.Machine

theorem Memory.read_write_other (m : Memory) {r k : Nat} (v : Option Row) (h : k ≠ r) :
    Memory.read (Memory.write m r v) k = Memory.read m k := by
  induction m with
  | nil => cases v <;> simp [Memory.write, Memory.read, h]
  | cons c m ih =>
    obtain ⟨j, w⟩ := c
    simp only [Memory.write]
    split_ifs with h1 h2
    · cases v <;> simp [Memory.read, h]
    · subst h2
      cases v <;> simp [Memory.read, h]
    · simp only [Memory.read, ih]

theorem Memory.read_of_allAbove {m : Memory} {k r : Nat} (h : Memory.allAbove k m = true) (hr : r ≤ k) :
    Memory.read m r = none := by
  induction m with
  | nil => rfl
  | cons c m ih =>
    obtain ⟨j, w⟩ := c
    simp only [Memory.allAbove, Bool.and_eq_true, decide_eq_true_eq] at h
    have : r ≠ j := by omega
    simp [Memory.read, this, ih h.2]

theorem Memory.allAbove_mono {m : Memory} {k r : Nat} (h : Memory.allAbove k m = true) (hr : r ≤ k) :
    Memory.allAbove r m = true := by
  induction m with
  | nil => rfl
  | cons c m ih =>
    obtain ⟨j, w⟩ := c
    simp only [Memory.allAbove, Bool.and_eq_true, decide_eq_true_eq] at h ⊢
    exact ⟨by omega, ih h.2⟩

theorem Memory.read_write_same {m : Memory} (hm : Memory.wf m = true) (r : Nat) (v : Option Row) :
    Memory.read (Memory.write m r v) r = v := by
  induction m with
  | nil => cases v <;> simp [Memory.write, Memory.read]
  | cons c m ih =>
    obtain ⟨j, w⟩ := c
    simp only [Memory.wf, Bool.and_eq_true] at hm
    simp only [Memory.write]
    split_ifs with h1 h2
    · cases v with
      | none =>
        have : r ≠ j := by omega
        simp [Memory.read, this, Memory.read_of_allAbove hm.1 h1.le]
      | some x => simp [Memory.read]
    · subst h2
      cases v with
      | none => simp [Memory.read_of_allAbove hm.1 le_rfl]
      | some x => simp [Memory.read]
    · simp [Memory.read, h2, ih hm.2]

theorem Memory.allAbove_write {m : Memory} {k r : Nat} (v : Option Row) (h : Memory.allAbove k m = true)
    (hr : k < r) : Memory.allAbove k (Memory.write m r v) = true := by
  induction m with
  | nil => cases v <;> simp [Memory.write, Memory.allAbove, hr]
  | cons c m ih =>
    obtain ⟨j, w⟩ := c
    have h' := h
    simp only [Memory.allAbove, Bool.and_eq_true, decide_eq_true_eq] at h
    simp only [Memory.write]
    split_ifs with h1 h2
    · cases v <;> simp [Memory.allAbove, hr, h.1, h.2]
    · cases v <;> simp [Memory.allAbove, hr, h.2]
    · simp [Memory.allAbove, h.1, ih h.2]

/-- Every write keeps the canonical form. -/
theorem Memory.wf_write {m : Memory} (hm : Memory.wf m = true) (r : Nat) (v : Option Row) :
    Memory.wf (Memory.write m r v) = true := by
  induction m with
  | nil => cases v <;> simp [Memory.write, Memory.wf, Memory.allAbove]
  | cons c m ih =>
    obtain ⟨j, w⟩ := c
    have hm' := hm
    simp only [Memory.wf, Bool.and_eq_true] at hm
    simp only [Memory.write]
    split_ifs with h1 h2
    · cases v with
      | none => simpa using hm'
      | some x =>
        simp [Memory.wf, Memory.allAbove, h1, hm.1, hm.2, Memory.allAbove_mono hm.1 h1.le]
    · subst h2
      cases v with
      | none => simpa using hm.2
      | some x => simp [Memory.wf, hm.1, hm.2]
    · have : j < r := by omega
      simp [Memory.wf, Memory.allAbove_write v hm.1 this, ih hm.2]

theorem reset_rows_wf : Memory.wf State.reset.outRows = true := rfl

end Sys2Proof.Machine
end

