-- ==== Sys2Proof/Laws/State.lean ====
section
/-! SUPPORT. One lemma per field for each shared update of State, true by rfl, so that no later proof unfolds the
update. -/

namespace Sys2Proof.Machine

variable (s : State)

/-! ## The start-of-command clear (60_exceptions R184) -/

@[simp] theorem beginCommand_fpFmt : s.beginCommand.fpFmt = s.fpFmt := rfl
@[simp] theorem beginCommand_strategy : s.beginCommand.strategy = s.strategy := rfl
@[simp] theorem beginCommand_msel : s.beginCommand.msel = s.msel := rfl
@[simp] theorem beginCommand_stage : s.beginCommand.stage = s.stage := rfl
@[simp] theorem beginCommand_busy : s.beginCommand.busy = s.busy := rfl
@[simp] theorem beginCommand_lutValid : s.beginCommand.lutValid = s.lutValid := rfl
@[simp] theorem beginCommand_trunc : s.beginCommand.trunc = s.trunc := rfl
@[simp] theorem beginCommand_wign : s.beginCommand.wign = false := rfl
@[simp] theorem beginCommand_err : s.beginCommand.err = .none := rfl
@[simp] theorem beginCommand_width : s.beginCommand.width = s.width := rfl
@[simp] theorem beginCommand_height : s.beginCommand.height = s.height := rfl
@[simp] theorem beginCommand_bps : s.beginCommand.bps = s.bps := rfl
@[simp] theorem beginCommand_spp : s.beginCommand.spp = s.spp := rfl
@[simp] theorem beginCommand_isRgb : s.beginCommand.isRgb = s.isRgb := rfl
@[simp] theorem beginCommand_isContig : s.beginCommand.isContig = s.isContig := rfl
@[simp] theorem beginCommand_rowsPerStrip : s.beginCommand.rowsPerStrip = s.rowsPerStrip := rfl
@[simp] theorem beginCommand_rowsDone : s.beginCommand.rowsDone = s.rowsDone := rfl
@[simp] theorem beginCommand_gammaIn : s.beginCommand.gammaIn = s.gammaIn := rfl
@[simp] theorem beginCommand_gammaOut : s.beginCommand.gammaOut = s.gammaOut := rfl
@[simp] theorem beginCommand_pixIn : s.beginCommand.pixIn = s.pixIn := rfl
@[simp] theorem beginCommand_pixOut : s.beginCommand.pixOut = s.pixOut := rfl
@[simp] theorem beginCommand_fv : s.beginCommand.fv = s.fv := rfl
@[simp] theorem beginCommand_dlut : s.beginCommand.dlut = s.dlut := rfl
@[simp] theorem beginCommand_elut : s.beginCommand.elut = s.elut := rfl
@[simp] theorem beginCommand_inBuf : s.beginCommand.inBuf = s.inBuf := rfl
@[simp] theorem beginCommand_outBuf : s.beginCommand.outBuf = s.outBuf := rfl
@[simp] theorem beginCommand_pend : s.beginCommand.pend = s.pend := rfl
@[simp] theorem beginCommand_answer : s.beginCommand.answer = s.answer := rfl
@[simp] theorem beginCommand_outMeta : s.beginCommand.outMeta = s.outMeta := rfl
@[simp] theorem beginCommand_outRows : s.beginCommand.outRows = s.outRows := rfl
@[simp] theorem beginCommand_requests : s.beginCommand.requests = s.requests := rfl
@[simp] theorem beginCommand_replies : s.beginCommand.replies = s.replies := rfl
@[simp] theorem beginCommand_host : s.beginCommand.host = s.host := rfl
@[simp] theorem beginCommand_reads : s.beginCommand.reads = s.reads := rfl
@[simp] theorem beginCommand_checkFailed : s.beginCommand.checkFailed = s.checkFailed := rfl
@[simp] theorem beginCommand_sched : s.beginCommand.sched = s.sched := rfl
@[simp] theorem beginCommand_draws : s.beginCommand.draws = s.draws := rfl

@[simp] theorem beginCommand_gi : s.beginCommand.gi = s.gi := rfl
@[simp] theorem beginCommand_go : s.beginCommand.go = s.go := rfl
@[simp] theorem beginCommand_lanes : s.beginCommand.lanes = s.lanes := rfl
@[simp] theorem beginCommand_decodeSample (x : Sample) : s.beginCommand.decodeSample x = s.decodeSample x := rfl
@[simp] theorem beginCommand_encodeValue (c : F64) : s.beginCommand.encodeValue c = s.encodeValue c := rfl
@[simp] theorem beginCommand_convPixel (m : Matrix3) (px : Lanes Sample) :
    s.beginCommand.convPixel m px = s.convPixel m px := rfl

/-! ## A command's error entry (60_exceptions R183) -/

@[simp] theorem raiseCommand_fpFmt (c : ErrCode) : (State.raise .command c s).fpFmt = s.fpFmt := rfl
@[simp] theorem raiseCommand_strategy (c : ErrCode) : (State.raise .command c s).strategy = s.strategy := rfl
@[simp] theorem raiseCommand_msel (c : ErrCode) : (State.raise .command c s).msel = s.msel := rfl
@[simp] theorem raiseCommand_stage (c : ErrCode) : (State.raise .command c s).stage = s.stage := rfl
@[simp] theorem raiseCommand_busy (c : ErrCode) : (State.raise .command c s).busy = s.busy := rfl
@[simp] theorem raiseCommand_lutValid (c : ErrCode) : (State.raise .command c s).lutValid = s.lutValid := rfl
@[simp] theorem raiseCommand_trunc (c : ErrCode) : (State.raise .command c s).trunc = s.trunc := rfl
@[simp] theorem raiseCommand_wign (c : ErrCode) : (State.raise .command c s).wign = s.wign := rfl
@[simp] theorem raiseCommand_err (c : ErrCode) : (State.raise .command c s).err = c := rfl
@[simp] theorem raiseCommand_width (c : ErrCode) : (State.raise .command c s).width = s.width := rfl
@[simp] theorem raiseCommand_height (c : ErrCode) : (State.raise .command c s).height = s.height := rfl
@[simp] theorem raiseCommand_bps (c : ErrCode) : (State.raise .command c s).bps = s.bps := rfl
@[simp] theorem raiseCommand_spp (c : ErrCode) : (State.raise .command c s).spp = s.spp := rfl
@[simp] theorem raiseCommand_isRgb (c : ErrCode) : (State.raise .command c s).isRgb = s.isRgb := rfl
@[simp] theorem raiseCommand_isContig (c : ErrCode) : (State.raise .command c s).isContig = s.isContig := rfl
@[simp] theorem raiseCommand_rowsPerStrip (c : ErrCode) : (State.raise .command c s).rowsPerStrip = s.rowsPerStrip := rfl
@[simp] theorem raiseCommand_rowsDone (c : ErrCode) : (State.raise .command c s).rowsDone = s.rowsDone := rfl
@[simp] theorem raiseCommand_gammaIn (c : ErrCode) : (State.raise .command c s).gammaIn = s.gammaIn := rfl
@[simp] theorem raiseCommand_gammaOut (c : ErrCode) : (State.raise .command c s).gammaOut = s.gammaOut := rfl
@[simp] theorem raiseCommand_pixIn (c : ErrCode) : (State.raise .command c s).pixIn = s.pixIn := rfl
@[simp] theorem raiseCommand_pixOut (c : ErrCode) : (State.raise .command c s).pixOut = s.pixOut := rfl
@[simp] theorem raiseCommand_fv (c : ErrCode) : (State.raise .command c s).fv = s.fv := rfl
@[simp] theorem raiseCommand_dlut (c : ErrCode) : (State.raise .command c s).dlut = s.dlut := rfl
@[simp] theorem raiseCommand_elut (c : ErrCode) : (State.raise .command c s).elut = s.elut := rfl
@[simp] theorem raiseCommand_inBuf (c : ErrCode) : (State.raise .command c s).inBuf = s.inBuf := rfl
@[simp] theorem raiseCommand_outBuf (c : ErrCode) : (State.raise .command c s).outBuf = s.outBuf := rfl
@[simp] theorem raiseCommand_pend (c : ErrCode) : (State.raise .command c s).pend = s.pend := rfl
@[simp] theorem raiseCommand_answer (c : ErrCode) : (State.raise .command c s).answer = s.answer := rfl
@[simp] theorem raiseCommand_outMeta (c : ErrCode) : (State.raise .command c s).outMeta = s.outMeta := rfl
@[simp] theorem raiseCommand_outRows (c : ErrCode) : (State.raise .command c s).outRows = s.outRows := rfl
@[simp] theorem raiseCommand_requests (c : ErrCode) : (State.raise .command c s).requests = s.requests := rfl
@[simp] theorem raiseCommand_replies (c : ErrCode) : (State.raise .command c s).replies = s.replies := rfl
@[simp] theorem raiseCommand_host (c : ErrCode) : (State.raise .command c s).host = s.host := rfl
@[simp] theorem raiseCommand_reads (c : ErrCode) : (State.raise .command c s).reads = s.reads := rfl
@[simp] theorem raiseCommand_checkFailed (c : ErrCode) : (State.raise .command c s).checkFailed = s.checkFailed := rfl
@[simp] theorem raiseCommand_sched (c : ErrCode) : (State.raise .command c s).sched = s.sched := rfl
@[simp] theorem raiseCommand_draws (c : ErrCode) : (State.raise .command c s).draws = s.draws := rfl

/-! ## A run's error entry (60_exceptions R183) -/

@[simp] theorem raiseRun_fpFmt (c : ErrCode) : (State.raise .run c s).fpFmt = s.fpFmt := rfl
@[simp] theorem raiseRun_strategy (c : ErrCode) : (State.raise .run c s).strategy = s.strategy := rfl
@[simp] theorem raiseRun_msel (c : ErrCode) : (State.raise .run c s).msel = s.msel := rfl
@[simp] theorem raiseRun_stage (c : ErrCode) : (State.raise .run c s).stage = .failed := rfl
@[simp] theorem raiseRun_busy (c : ErrCode) : (State.raise .run c s).busy = false := rfl
@[simp] theorem raiseRun_lutValid (c : ErrCode) : (State.raise .run c s).lutValid = s.lutValid := rfl
@[simp] theorem raiseRun_trunc (c : ErrCode) : (State.raise .run c s).trunc = s.trunc := rfl
@[simp] theorem raiseRun_wign (c : ErrCode) : (State.raise .run c s).wign = s.wign := rfl
@[simp] theorem raiseRun_err (c : ErrCode) : (State.raise .run c s).err = c := rfl
@[simp] theorem raiseRun_width (c : ErrCode) : (State.raise .run c s).width = s.width := rfl
@[simp] theorem raiseRun_height (c : ErrCode) : (State.raise .run c s).height = s.height := rfl
@[simp] theorem raiseRun_bps (c : ErrCode) : (State.raise .run c s).bps = s.bps := rfl
@[simp] theorem raiseRun_spp (c : ErrCode) : (State.raise .run c s).spp = s.spp := rfl
@[simp] theorem raiseRun_isRgb (c : ErrCode) : (State.raise .run c s).isRgb = s.isRgb := rfl
@[simp] theorem raiseRun_isContig (c : ErrCode) : (State.raise .run c s).isContig = s.isContig := rfl
@[simp] theorem raiseRun_rowsPerStrip (c : ErrCode) : (State.raise .run c s).rowsPerStrip = s.rowsPerStrip := rfl
@[simp] theorem raiseRun_rowsDone (c : ErrCode) : (State.raise .run c s).rowsDone = s.rowsDone := rfl
@[simp] theorem raiseRun_gammaIn (c : ErrCode) : (State.raise .run c s).gammaIn = s.gammaIn := rfl
@[simp] theorem raiseRun_gammaOut (c : ErrCode) : (State.raise .run c s).gammaOut = s.gammaOut := rfl
@[simp] theorem raiseRun_pixIn (c : ErrCode) : (State.raise .run c s).pixIn = s.pixIn := rfl
@[simp] theorem raiseRun_pixOut (c : ErrCode) : (State.raise .run c s).pixOut = s.pixOut := rfl
@[simp] theorem raiseRun_fv (c : ErrCode) : (State.raise .run c s).fv = s.fv := rfl
@[simp] theorem raiseRun_dlut (c : ErrCode) : (State.raise .run c s).dlut = s.dlut := rfl
@[simp] theorem raiseRun_elut (c : ErrCode) : (State.raise .run c s).elut = s.elut := rfl
@[simp] theorem raiseRun_inBuf (c : ErrCode) : (State.raise .run c s).inBuf = s.inBuf := rfl
@[simp] theorem raiseRun_outBuf (c : ErrCode) : (State.raise .run c s).outBuf = s.outBuf := rfl
@[simp] theorem raiseRun_pend (c : ErrCode) : (State.raise .run c s).pend = .none := rfl
@[simp] theorem raiseRun_answer (c : ErrCode) : (State.raise .run c s).answer = s.answer := rfl
@[simp] theorem raiseRun_outMeta (c : ErrCode) : (State.raise .run c s).outMeta = s.outMeta := rfl
@[simp] theorem raiseRun_outRows (c : ErrCode) : (State.raise .run c s).outRows = s.outRows := rfl
@[simp] theorem raiseRun_requests (c : ErrCode) : (State.raise .run c s).requests = s.requests := rfl
@[simp] theorem raiseRun_replies (c : ErrCode) : (State.raise .run c s).replies = s.replies := rfl
@[simp] theorem raiseRun_host (c : ErrCode) : (State.raise .run c s).host = s.host := rfl
@[simp] theorem raiseRun_reads (c : ErrCode) : (State.raise .run c s).reads = s.reads := rfl
@[simp] theorem raiseRun_checkFailed (c : ErrCode) : (State.raise .run c s).checkFailed = s.checkFailed := rfl
@[simp] theorem raiseRun_sched (c : ErrCode) : (State.raise .run c s).sched = s.sched := rfl
@[simp] theorem raiseRun_draws (c : ErrCode) : (State.raise .run c s).draws = s.draws := rfl

/-! ## Issuing a request (20_memory R61) -/

@[simp] theorem issue_fpFmt (q : Request) (p : Pend) : (s.issue q p).fpFmt = s.fpFmt := rfl
@[simp] theorem issue_strategy (q : Request) (p : Pend) : (s.issue q p).strategy = s.strategy := rfl
@[simp] theorem issue_msel (q : Request) (p : Pend) : (s.issue q p).msel = s.msel := rfl
@[simp] theorem issue_stage (q : Request) (p : Pend) : (s.issue q p).stage = s.stage := rfl
@[simp] theorem issue_busy (q : Request) (p : Pend) : (s.issue q p).busy = s.busy := rfl
@[simp] theorem issue_lutValid (q : Request) (p : Pend) : (s.issue q p).lutValid = s.lutValid := rfl
@[simp] theorem issue_trunc (q : Request) (p : Pend) : (s.issue q p).trunc = s.trunc := rfl
@[simp] theorem issue_wign (q : Request) (p : Pend) : (s.issue q p).wign = s.wign := rfl
@[simp] theorem issue_err (q : Request) (p : Pend) : (s.issue q p).err = s.err := rfl
@[simp] theorem issue_width (q : Request) (p : Pend) : (s.issue q p).width = s.width := rfl
@[simp] theorem issue_height (q : Request) (p : Pend) : (s.issue q p).height = s.height := rfl
@[simp] theorem issue_bps (q : Request) (p : Pend) : (s.issue q p).bps = s.bps := rfl
@[simp] theorem issue_spp (q : Request) (p : Pend) : (s.issue q p).spp = s.spp := rfl
@[simp] theorem issue_isRgb (q : Request) (p : Pend) : (s.issue q p).isRgb = s.isRgb := rfl
@[simp] theorem issue_isContig (q : Request) (p : Pend) : (s.issue q p).isContig = s.isContig := rfl
@[simp] theorem issue_rowsPerStrip (q : Request) (p : Pend) : (s.issue q p).rowsPerStrip = s.rowsPerStrip := rfl
@[simp] theorem issue_rowsDone (q : Request) (p : Pend) : (s.issue q p).rowsDone = s.rowsDone := rfl
@[simp] theorem issue_gammaIn (q : Request) (p : Pend) : (s.issue q p).gammaIn = s.gammaIn := rfl
@[simp] theorem issue_gammaOut (q : Request) (p : Pend) : (s.issue q p).gammaOut = s.gammaOut := rfl
@[simp] theorem issue_pixIn (q : Request) (p : Pend) : (s.issue q p).pixIn = s.pixIn := rfl
@[simp] theorem issue_pixOut (q : Request) (p : Pend) : (s.issue q p).pixOut = s.pixOut := rfl
@[simp] theorem issue_fv (q : Request) (p : Pend) : (s.issue q p).fv = s.fv := rfl
@[simp] theorem issue_dlut (q : Request) (p : Pend) : (s.issue q p).dlut = s.dlut := rfl
@[simp] theorem issue_elut (q : Request) (p : Pend) : (s.issue q p).elut = s.elut := rfl
@[simp] theorem issue_inBuf (q : Request) (p : Pend) : (s.issue q p).inBuf = s.inBuf := rfl
@[simp] theorem issue_outBuf (q : Request) (p : Pend) : (s.issue q p).outBuf = s.outBuf := rfl
@[simp] theorem issue_pend (q : Request) (p : Pend) : (s.issue q p).pend = p := rfl
@[simp] theorem issue_answer (q : Request) (p : Pend) : (s.issue q p).answer = s.answer := rfl
@[simp] theorem issue_outMeta (q : Request) (p : Pend) : (s.issue q p).outMeta = s.outMeta := rfl
@[simp] theorem issue_outRows (q : Request) (p : Pend) : (s.issue q p).outRows = s.outRows := rfl
@[simp] theorem issue_requests (q : Request) (p : Pend) : (s.issue q p).requests = q :: s.requests := rfl
@[simp] theorem issue_replies (q : Request) (p : Pend) : (s.issue q p).replies = s.replies := rfl
@[simp] theorem issue_host (q : Request) (p : Pend) : (s.issue q p).host = s.host := rfl
@[simp] theorem issue_reads (q : Request) (p : Pend) : (s.issue q p).reads = s.reads := rfl
@[simp] theorem issue_checkFailed (q : Request) (p : Pend) : (s.issue q p).checkFailed = s.checkFailed := rfl
@[simp] theorem issue_sched (q : Request) (p : Pend) : (s.issue q p).sched = s.sched := rfl
@[simp] theorem issue_draws (q : Request) (p : Pend) : (s.issue q p).draws = s.draws := rfl

/-! ## Taking an answer (10_state R45) -/

@[simp] theorem takeAnswer_fpFmt : s.takeAnswer.fpFmt = s.fpFmt := rfl
@[simp] theorem takeAnswer_strategy : s.takeAnswer.strategy = s.strategy := rfl
@[simp] theorem takeAnswer_msel : s.takeAnswer.msel = s.msel := rfl
@[simp] theorem takeAnswer_stage : s.takeAnswer.stage = s.stage := rfl
@[simp] theorem takeAnswer_busy : s.takeAnswer.busy = s.busy := rfl
@[simp] theorem takeAnswer_lutValid : s.takeAnswer.lutValid = s.lutValid := rfl
@[simp] theorem takeAnswer_trunc : s.takeAnswer.trunc = s.trunc := rfl
@[simp] theorem takeAnswer_wign : s.takeAnswer.wign = s.wign := rfl
@[simp] theorem takeAnswer_err : s.takeAnswer.err = s.err := rfl
@[simp] theorem takeAnswer_width : s.takeAnswer.width = s.width := rfl
@[simp] theorem takeAnswer_height : s.takeAnswer.height = s.height := rfl
@[simp] theorem takeAnswer_bps : s.takeAnswer.bps = s.bps := rfl
@[simp] theorem takeAnswer_spp : s.takeAnswer.spp = s.spp := rfl
@[simp] theorem takeAnswer_isRgb : s.takeAnswer.isRgb = s.isRgb := rfl
@[simp] theorem takeAnswer_isContig : s.takeAnswer.isContig = s.isContig := rfl
@[simp] theorem takeAnswer_rowsPerStrip : s.takeAnswer.rowsPerStrip = s.rowsPerStrip := rfl
@[simp] theorem takeAnswer_rowsDone : s.takeAnswer.rowsDone = s.rowsDone := rfl
@[simp] theorem takeAnswer_gammaIn : s.takeAnswer.gammaIn = s.gammaIn := rfl
@[simp] theorem takeAnswer_gammaOut : s.takeAnswer.gammaOut = s.gammaOut := rfl
@[simp] theorem takeAnswer_pixIn : s.takeAnswer.pixIn = s.pixIn := rfl
@[simp] theorem takeAnswer_pixOut : s.takeAnswer.pixOut = s.pixOut := rfl
@[simp] theorem takeAnswer_fv : s.takeAnswer.fv = s.fv := rfl
@[simp] theorem takeAnswer_dlut : s.takeAnswer.dlut = s.dlut := rfl
@[simp] theorem takeAnswer_elut : s.takeAnswer.elut = s.elut := rfl
@[simp] theorem takeAnswer_inBuf : s.takeAnswer.inBuf = s.inBuf := rfl
@[simp] theorem takeAnswer_outBuf : s.takeAnswer.outBuf = s.outBuf := rfl
@[simp] theorem takeAnswer_pend : s.takeAnswer.pend = .none := rfl
@[simp] theorem takeAnswer_answer : s.takeAnswer.answer = none := rfl
@[simp] theorem takeAnswer_outMeta : s.takeAnswer.outMeta = s.outMeta := rfl
@[simp] theorem takeAnswer_outRows : s.takeAnswer.outRows = s.outRows := rfl
@[simp] theorem takeAnswer_requests : s.takeAnswer.requests = s.requests := rfl
@[simp] theorem takeAnswer_replies : s.takeAnswer.replies = s.replies := rfl
@[simp] theorem takeAnswer_host : s.takeAnswer.host = s.host := rfl
@[simp] theorem takeAnswer_reads : s.takeAnswer.reads = s.reads := rfl
@[simp] theorem takeAnswer_checkFailed : s.takeAnswer.checkFailed = s.checkFailed := rfl
@[simp] theorem takeAnswer_sched : s.takeAnswer.sched = s.sched := rfl
@[simp] theorem takeAnswer_draws : s.takeAnswer.draws = s.draws := rfl

/-! ## Releasing the buffers (10_state R44) -/

@[simp] theorem releaseBuffers_fpFmt : s.releaseBuffers.fpFmt = s.fpFmt := rfl
@[simp] theorem releaseBuffers_strategy : s.releaseBuffers.strategy = s.strategy := rfl
@[simp] theorem releaseBuffers_msel : s.releaseBuffers.msel = s.msel := rfl
@[simp] theorem releaseBuffers_stage : s.releaseBuffers.stage = s.stage := rfl
@[simp] theorem releaseBuffers_busy : s.releaseBuffers.busy = s.busy := rfl
@[simp] theorem releaseBuffers_lutValid : s.releaseBuffers.lutValid = s.lutValid := rfl
@[simp] theorem releaseBuffers_trunc : s.releaseBuffers.trunc = s.trunc := rfl
@[simp] theorem releaseBuffers_wign : s.releaseBuffers.wign = s.wign := rfl
@[simp] theorem releaseBuffers_err : s.releaseBuffers.err = s.err := rfl
@[simp] theorem releaseBuffers_width : s.releaseBuffers.width = s.width := rfl
@[simp] theorem releaseBuffers_height : s.releaseBuffers.height = s.height := rfl
@[simp] theorem releaseBuffers_bps : s.releaseBuffers.bps = s.bps := rfl
@[simp] theorem releaseBuffers_spp : s.releaseBuffers.spp = s.spp := rfl
@[simp] theorem releaseBuffers_isRgb : s.releaseBuffers.isRgb = s.isRgb := rfl
@[simp] theorem releaseBuffers_isContig : s.releaseBuffers.isContig = s.isContig := rfl
@[simp] theorem releaseBuffers_rowsPerStrip : s.releaseBuffers.rowsPerStrip = s.rowsPerStrip := rfl
@[simp] theorem releaseBuffers_rowsDone : s.releaseBuffers.rowsDone = s.rowsDone := rfl
@[simp] theorem releaseBuffers_gammaIn : s.releaseBuffers.gammaIn = s.gammaIn := rfl
@[simp] theorem releaseBuffers_gammaOut : s.releaseBuffers.gammaOut = s.gammaOut := rfl
@[simp] theorem releaseBuffers_pixIn : s.releaseBuffers.pixIn = s.pixIn := rfl
@[simp] theorem releaseBuffers_pixOut : s.releaseBuffers.pixOut = s.pixOut := rfl
@[simp] theorem releaseBuffers_fv : s.releaseBuffers.fv = s.fv := rfl
@[simp] theorem releaseBuffers_dlut : s.releaseBuffers.dlut = s.dlut := rfl
@[simp] theorem releaseBuffers_elut : s.releaseBuffers.elut = s.elut := rfl
@[simp] theorem releaseBuffers_inBuf : s.releaseBuffers.inBuf = Config.inBufContents s.draws := rfl
@[simp] theorem releaseBuffers_outBuf : s.releaseBuffers.outBuf = Config.outBufContents s.draws := rfl
@[simp] theorem releaseBuffers_pend : s.releaseBuffers.pend = s.pend := rfl
@[simp] theorem releaseBuffers_answer : s.releaseBuffers.answer = s.answer := rfl
@[simp] theorem releaseBuffers_outMeta : s.releaseBuffers.outMeta = s.outMeta := rfl
@[simp] theorem releaseBuffers_outRows : s.releaseBuffers.outRows = s.outRows := rfl
@[simp] theorem releaseBuffers_requests : s.releaseBuffers.requests = s.requests := rfl
@[simp] theorem releaseBuffers_replies : s.releaseBuffers.replies = s.replies := rfl
@[simp] theorem releaseBuffers_host : s.releaseBuffers.host = s.host := rfl
@[simp] theorem releaseBuffers_reads : s.releaseBuffers.reads = s.reads := rfl
@[simp] theorem releaseBuffers_checkFailed : s.releaseBuffers.checkFailed = s.checkFailed := rfl
@[simp] theorem releaseBuffers_sched : s.releaseBuffers.sched = s.sched := rfl
@[simp] theorem releaseBuffers_draws : s.releaseBuffers.draws = s.draws + 1 := rfl

end Sys2Proof.Machine
end

