-- ==== Sys2Proof/Laws/Table.lean ====
section
/-! SUPPORT. Reading a table that was built entry by entry (10_state R40, R41; 40_gamma R106, R107). -/

namespace Sys2Proof.Machine

theorem Table.read_ofFn {α : Type} (f : Nat → α) (d : Nat) :
    ∀ (base i : Nat), i < 2 ^ d → (Table.ofFn d f base).read d i = f (base + i) := by
  induction d with
  | zero =>
    intro base i hi
    have : i = 0 := by simpa using hi
    subst this
    rfl
  | succ d ih =>
    intro base i hi
    simp only [Table.ofFn, Table.read, Nat.add_sub_cancel]
    split
    · exact ih base i ‹_›
    · rw [ih _ _ (by rw [Nat.pow_succ] at hi; omega)]
      congr 1
      omega

/-- DLUT as BUILD leaves it (40_gamma R107). -/
theorem read_buildDlut (fmt : FpFmt) (gi : F64) {i : Nat} (h : i < 2 ^ 16) :
    (buildDlut fmt gi).read dlutBits i = decodeEntry fmt gi i := by
  rw [buildDlut, Table.read_ofFn _ _ _ _ h, Nat.zero_add]

/-- ELUT as BUILD leaves it (40_gamma R106). -/
theorem read_buildElut (fmt : FpFmt) (go : F64) {i : Nat} (h : i < 2 ^ 24) :
    (buildElut fmt go).read elutBits i = encodeEntry fmt go i := by
  rw [buildElut, Table.read_ofFn _ _ _ _ h, Nat.zero_add]

end Sys2Proof.Machine
end

