-- ==== Sys2Proof/Laws/Ops.lean ====
section
/-! SUPPORT. What the shared operations can do, each said once: the first failing check, a command's run, each
command's body, and the whole of exec. -/

namespace Sys2Proof.Machine

/-! ## Checks in order (60_exceptions R182) -/

@[simp] theorem firstFailure_nil : firstFailure [] = none := rfl

@[simp] theorem firstFailure_pass (c : ErrCode) (l : List (Bool × ErrCode)) :
    firstFailure ((true, c) :: l) = firstFailure l := rfl

@[simp] theorem firstFailure_fail (c : ErrCode) (l : List (Bool × ErrCode)) :
    firstFailure ((false, c) :: l) = some c := rfl

/-- No check fails exactly when all pass. -/
theorem firstFailure_eq_none {l : List (Bool × ErrCode)} :
    firstFailure l = none ↔ ∀ p ∈ l, p.1 = true := by
  induction l with
  | nil => simp
  | cons p l ih =>
    obtain ⟨b, c⟩ := p
    cases b <;> simp [ih]

/-- The code reported is that of a check that fails after all before it pass. -/
theorem firstFailure_eq_some {l : List (Bool × ErrCode)} {c : ErrCode} :
    firstFailure l = some c ↔
      ∃ before after, l = before ++ (false, c) :: after ∧ ∀ p ∈ before, p.1 = true := by
  induction l with
  | nil => simp
  | cons p l ih =>
    obtain ⟨b, d⟩ := p
    cases b with
    | false =>
      simp only [firstFailure_fail, Option.some.injEq]
      constructor
      · rintro rfl
        exact ⟨[], l, rfl, by simp⟩
      · rintro ⟨before, after, h, hb⟩
        cases before with
        | nil => simpa using congrArg Prod.snd (List.cons.inj h).1
        | cons q before =>
          have := hb q List.mem_cons_self
          rw [← (List.cons.inj h).1] at this
          simp at this
    | true =>
      rw [firstFailure_pass, ih]
      constructor
      · rintro ⟨before, after, rfl, hb⟩
        exact ⟨(true, d) :: before, after, rfl, by simpa using hb⟩
      · rintro ⟨before, after, h, hb⟩
        cases before with
        | nil => simp at h
        | cons q before =>
          exact ⟨before, after, (List.cons.inj h).2, fun p hp => hb p (List.mem_cons_of_mem _ hp)⟩

/-! ## A command's run (60_exceptions R183, R184) -/

theorem runCommand_of_ok {body : State → Except ErrCode State} {s t : State}
    (h : body s.beginCommand = .ok t) : runCommand body s = .next t := by
  rw [runCommand, h]

theorem runCommand_of_error {body : State → Except ErrCode State} {s : State} {c : ErrCode}
    (h : body s.beginCommand = .error c) :
    runCommand body s = .next (s.beginCommand.raise .command c) := by
  rw [runCommand, h]

/-- A command always answers a next state: its effect, or its error with nothing else changed. -/
theorem runCommand_cases {body : State → Except ErrCode State} {s t : State}
    (h : runCommand body s = .next t) :
    body s.beginCommand = .ok t ∨
      ∃ c, body s.beginCommand = .error c ∧ t = s.beginCommand.raise .command c := by
  cases hb : body s.beginCommand with
  | ok u =>
    rw [runCommand_of_ok hb] at h
    cases h
    exact .inl rfl
  | error c =>
    rw [runCommand_of_error hb] at h
    cases h
    exact .inr ⟨c, rfl, rfl⟩

/-! ## Each command's body: what an effect can be -/

theorem buildBody_ok {s t : State} (h : buildBody s = .ok t) :
    validGamma s.gi = true ∧ validGamma s.go = true ∧
      t = { s with dlut := buildDlut s.fpFmt s.gi, elut := buildElut s.fpFmt s.go, lutValid := true } := by
  unfold buildBody at h
  split at h
  · rename_i hv
    rw [Bool.and_eq_true] at hv
    cases h
    exact ⟨hv.1, hv.2, rfl⟩
  · cases h

theorem dec3Body_ok {s t : State} (h : dec3Body s = .ok t) :
    t = { s with fv := (s.pixIn.map s.decodeSample).map Pair.ofF64 } := by
  unfold dec3Body at h
  split_ifs at h
  cases h
  rfl

theorem mat3Body_ok {s t : State} (h : mat3Body s = .ok t) :
    ∃ m, matrixRom s.fpFmt s.msel = some m ∧
      t = { s with
        fv := (settleLanes s.draws (applyMatrix s.fpFmt m s.lanes)).map Pair.ofF64
        draws := s.draws + 1 } := by
  unfold mat3Body at h
  split at h
  · cases h
  · rename_i m hm
    cases h
    exact ⟨m, hm, rfl⟩

theorem enc3Body_ok {s t : State} (h : enc3Body s = .ok t) :
    t = { s with pixOut := s.lanes.map fun v => s.encodeValue (clamp v) } := by
  unfold enc3Body at h
  split_ifs at h
  cases h
  rfl

theorem pixelBody_ok {s t : State} (h : pixelBody s = .ok t) :
    ∃ m, matrixRom s.fpFmt s.msel = some m ∧ t = { s with pixOut := s.convPixel m s.pixIn } := by
  unfold pixelBody at h
  split at h
  · cases h
  · rename_i m hm
    split_ifs at h
    cases h
    exact ⟨m, hm, rfl⟩

/-! ## Everything exec can do -/

/-- The next states exec may answer. -/
inductive ExecCase (s : State) : Instr → State → Prop
  | nop : ExecCase s .nop s.beginCommand
  | error (i : Instr) (c : ErrCode) : i ≠ .run → i ≠ .nop →
      ExecCase s i (s.beginCommand.raise .command c)
  | build : validGamma s.gi = true → validGamma s.go = true →
      ExecCase s .build { s.beginCommand with
        dlut := buildDlut s.fpFmt s.gi, elut := buildElut s.fpFmt s.go, lutValid := true }
  | run : ExecCase s .run { s.beginCommand with
      trunc := false, rowsDone := 0, stage := .init, busy := true, pend := .none }
  | dec3 (v : Lanes Pair) : ExecCase s .dec3 { s.beginCommand with fv := v }
  | mat3 (v : Lanes Pair) : ExecCase s .mat3 { s.beginCommand with fv := v, draws := s.draws + 1 }
  | enc3 (v : Lanes Sample) : ExecCase s .enc3 { s.beginCommand with pixOut := v }
  | pixel (v : Lanes Sample) : ExecCase s .pixel { s.beginCommand with pixOut := v }

theorem exec_cases {i : Instr} {s t : State} (h : exec i s = .next t) : ExecCase s i t := by
  cases i with
  | nop => cases h; exact .nop
  | run => cases h; exact .run
  | build =>
    rcases runCommand_cases h with h | ⟨c, -, rfl⟩
    · obtain ⟨hi, ho, rfl⟩ := buildBody_ok h
      exact .build hi ho
    · exact .error _ c (by decide) (by decide)
  | dec3 =>
    rcases runCommand_cases h with h | ⟨c, -, rfl⟩
    · rw [dec3Body_ok h]; exact .dec3 _
    · exact .error _ c (by decide) (by decide)
  | mat3 =>
    rcases runCommand_cases h with h | ⟨c, -, rfl⟩
    · obtain ⟨m, -, rfl⟩ := mat3Body_ok h
      exact .mat3 _
    · exact .error _ c (by decide) (by decide)
  | enc3 =>
    rcases runCommand_cases h with h | ⟨c, -, rfl⟩
    · rw [enc3Body_ok h]; exact .enc3 _
    · exact .error _ c (by decide) (by decide)
  | pixel =>
    rcases runCommand_cases h with h | ⟨c, -, rfl⟩
    · obtain ⟨m, -, rfl⟩ := pixelBody_ok h
      exact .pixel _
    · exact .error _ c (by decide) (by decide)

/-- exec never faults and never refuses. -/
theorem exec_next (i : Instr) (s : State) : ∃ t, exec i s = .next t := by
  have hrun (body : State → Except ErrCode State) : ∃ t, runCommand body s = .next t := by
    cases h : body s.beginCommand with
    | ok u => exact ⟨_, runCommand_of_ok h⟩
    | error c => exact ⟨_, runCommand_of_error h⟩
  cases i with
  | nop => exact ⟨_, rfl⟩
  | run => exact ⟨_, rfl⟩
  | build => exact hrun buildBody
  | dec3 => exact hrun dec3Body
  | mat3 => exact hrun mat3Body
  | enc3 => exact hrun enc3Body
  | pixel => exact hrun pixelBody

end Sys2Proof.Machine
end

