-- ==== Sys2Proof/Laws/PerInstr.lean ====
section
/-! SUPPORT. What holds of every command as syntax, one lemma per constructor (LAWS.json "per_instruction"). -/

namespace Sys2Proof.Laws.RoundTrip

/-- The command is well formed, its operation code is in the opcode map, and its word decodes to it
(30_encoding R70, R72). -/
def Statement (i : Instr) : Prop :=
  i.wf = true ∧ (Cmd32.ofWord (encode i)).wf = true ∧ decode (encode i) = .ok i

theorem nop : Statement .nop := by unfold Statement; decide
theorem build : Statement .build := by unfold Statement; decide
theorem run : Statement .run := by unfold Statement; decide
theorem dec3 : Statement .dec3 := by unfold Statement; decide
theorem mat3 : Statement .mat3 := by unfold Statement; decide
theorem enc3 : Statement .enc3 := by unfold Statement; decide
theorem pixel : Statement .pixel := by unfold Statement; decide

end Sys2Proof.Laws.RoundTrip
end

