-- ==== Sys2Proof/Laws/Scaled.lean ====
section
/-! SUPPORT. The arithmetic of the gamma steps on [+0.0, 1.0]: quotients of integers, products with an integer, the
sums of the matrix rows, rounding to an integer (40_gamma R106, R107, R113 to R116; 41_matrix R131, R133). -/

namespace Sys2Proof.Machine

/-! ## Values that are not negative -/

/-- A finite value that is not negative. -/
def F64.nonneg (x : F64) : Bool := !F64.sign x && F64.isFinite x

theorem F64.nonneg_iff (x : F64) : F64.nonneg x = true ↔ F64.sign x = false ∧ F64.mag x < F64.infMag := by
  simp [F64.nonneg, F64.isFinite]

theorem F64.nonneg_of_inUnit {x : F64} (h : F64.inUnit x = true) : F64.nonneg x = true := by
  have := (F64.inUnit_iff x).1 h
  exact (F64.nonneg_iff x).2 ⟨this.1, this.2.trans_lt F64.oneCode_lt_infMag⟩

theorem F64.nonneg_make {m : Nat} (h : m < F64.infMag) : F64.nonneg (F64.make false m) = true := by
  have := h.trans F64.infMag_lt
  rw [F64.nonneg_iff, F64.sign_make _ this, F64.mag_make _ this]
  exact ⟨rfl, h⟩

theorem F64.isNaN_of_nonneg {x : F64} (h : F64.nonneg x = true) : F64.isNaN x = false := by
  have := ((F64.nonneg_iff x).1 h).2
  simp only [F64.isNaN, decide_eq_false_iff_not]
  omega

theorem F64.isInf_of_nonneg {x : F64} (h : F64.nonneg x = true) : F64.isInf x = false := by
  have := ((F64.nonneg_iff x).1 h).2
  simp only [F64.isInf, beq_eq_false_iff_ne]
  omega

theorem F64.units_make {m : Nat} (h : m < 2 ^ 63) (neg : Bool) :
    F64.units (F64.make neg m) = F64.unitsOfMag m := by
  rw [F64.units, F64.mag_make _ h]

theorem F64.roundMag_zero (fmt : FpFmt) (d : Nat) : F64.roundMag fmt 0 d = 0 := by
  have h : fmt.roundCode 0 d = 0 := by simp [FpFmt.roundCode, roundToCode, roundHalfEven]
  rw [F64.roundMag, h]
  cases fmt <;> decide +kernel

/-- The magnitude of a value of the format that is not negative is one of the format's. -/
theorem F64.isMag_of_nonneg {fmt : FpFmt} {x : F64} (h : F64.holds fmt x = true) (hx : F64.nonneg x = true) :
    F64.IsMag fmt (F64.mag x) := by
  refine ((F64.holds_iff fmt x).1 h).resolve_left ?_
  have := ((F64.nonneg_iff x).1 hx).2
  simp only [F64.isNaN, decide_eq_true_eq]
  omega

/-- A product of two finite values that are not negative, as code. -/
theorem fmul_of_nonneg (fmt : FpFmt) {x y : F64} (hx : F64.nonneg x = true) (hy : F64.nonneg y = true) :
    fmul fmt x y = F64.make false (F64.roundMag fmt (F64.units x * F64.units y) F64.scale) := by
  simp [fmul, F64.isNaN_of_nonneg hx, F64.isNaN_of_nonneg hy, F64.isInf_of_nonneg hx,
    F64.isInf_of_nonneg hy, ((F64.nonneg_iff x).1 hx).1, ((F64.nonneg_iff y).1 hy).1]

/-- A sum of two finite values that are not negative, as code. -/
theorem fadd_of_nonneg (fmt : FpFmt) {x y : F64} (hx : F64.nonneg x = true) (hy : F64.nonneg y = true) :
    fadd fmt x y = F64.make false (F64.roundMag fmt (F64.units x + F64.units y) 1) := by
  have hsx := ((F64.nonneg_iff x).1 hx).1
  have hsy := ((F64.nonneg_iff y).1 hy).1
  have hsum : F64.signedUnits x + F64.signedUnits y = ((F64.units x + F64.units y : Nat) : Int) := by
    simp [F64.signedUnits, hsx, hsy]
  simp only [fadd, F64.isNaN_of_nonneg hx, F64.isNaN_of_nonneg hy, F64.isInf_of_nonneg hx,
    F64.isInf_of_nonneg hy, Bool.or_self, Bool.false_eq_true, if_false, hsx, hsy, Bool.and_self, hsum]
  split
  · rename_i h
    have h0 : F64.units x + F64.units y = 0 := by exact_mod_cast h
    rw [h0, F64.roundMag_zero]
  · have : ¬ (((F64.units x + F64.units y : Nat) : Int) < 0) := by omega
    simp only [this, decide_false, Int.natAbs_natCast]

/-! ## The identity row (41_matrix R133) -/

theorem one_fmul {fmt : FpFmt} {x : F64} (hf : F64.holds fmt x = true) (hx : F64.nonneg x = true) :
    fmul fmt F64.one x = x := by
  have h1 : F64.nonneg F64.one = true := by decide
  have hu : F64.units F64.one = F64.scale := F64.unitsOfMag_one
  rw [fmul_of_nonneg fmt h1 hx, hu, Nat.mul_comm, F64.units,
    F64.roundMag_exact F64.scale_pos (F64.isMag_of_nonneg hf hx), ← ((F64.nonneg_iff x).1 hx).1]
  exact F64.make_sign_mag x

theorem F64.units_posZero : F64.units F64.posZero = 0 := by decide

theorem zero_fmul (fmt : FpFmt) {x : F64} (hx : F64.nonneg x = true) :
    fmul fmt F64.posZero x = F64.posZero := by
  have h0 : F64.nonneg F64.posZero = true := by decide
  rw [fmul_of_nonneg fmt h0 hx, F64.units_posZero, Nat.zero_mul, F64.roundMag_zero]
  rfl

theorem fadd_zero {fmt : FpFmt} {x : F64} (hf : F64.holds fmt x = true) (hx : F64.nonneg x = true) :
    fadd fmt x F64.posZero = x := by
  have h0 : F64.nonneg F64.posZero = true := by decide
  have h := F64.roundMag_exact (d := 1) Nat.one_pos (F64.isMag_of_nonneg hf hx)
  rw [Nat.mul_one] at h
  rw [fadd_of_nonneg fmt hx h0, F64.units_posZero, Nat.add_zero, F64.units, h, ← ((F64.nonneg_iff x).1 hx).1]
  exact F64.make_sign_mag x

theorem zero_fadd {fmt : FpFmt} {x : F64} (hf : F64.holds fmt x = true) (hx : F64.nonneg x = true) :
    fadd fmt F64.posZero x = x := by
  have h0 : F64.nonneg F64.posZero = true := by decide
  have h := F64.roundMag_exact (d := 1) Nat.one_pos (F64.isMag_of_nonneg hf hx)
  rw [Nat.mul_one] at h
  rw [fadd_of_nonneg fmt h0 hx, F64.units_posZero, Nat.zero_add, F64.units, h, ← ((F64.nonneg_iff x).1 hx).1]
  exact F64.make_sign_mag x

/-! ## Every result is a value of the format (00_scope R8) -/

theorem F64.holds_fmul (fmt : FpFmt) (a b : F64) : F64.holds fmt (fmul fmt a b) = true := by
  have hn : F64.holds fmt F64.nan = true := F64.holds_nan fmt (by decide)
  unfold fmul
  simp only
  split_ifs
  · exact hn
  · exact hn
  · exact F64.holds_make _ ⟨_, le_rfl, fmt.magOfCode_inf.symm⟩
  · exact F64.holds_make _ (F64.isMag_roundMag _ _ _)

theorem F64.holds_fdiv (fmt : FpFmt) (a b : F64) : F64.holds fmt (fdiv fmt a b) = true := by
  have hn : F64.holds fmt F64.nan = true := F64.holds_nan fmt (by decide)
  have hi : ∀ neg, F64.holds fmt (F64.make neg F64.infMag) = true := fun neg =>
    F64.holds_make neg ⟨_, le_rfl, fmt.magOfCode_inf.symm⟩
  unfold fdiv
  simp only
  split_ifs
  · exact hn
  · exact hn
  · exact hi _
  · exact F64.holds_make _ (F64.isMag_zero fmt)
  · exact hn
  · exact hi _
  · exact F64.holds_make _ (F64.isMag_roundMag _ _ _)

theorem F64.holds_inf (fmt : FpFmt) {x : F64} (h : F64.isInf x = true) : F64.holds fmt x = true := by
  rw [F64.holds_iff, beq_iff_eq.1 h]
  exact .inr ⟨_, le_rfl, fmt.magOfCode_inf.symm⟩

theorem F64.holds_fadd (fmt : FpFmt) (a b : F64) : F64.holds fmt (fadd fmt a b) = true := by
  have hn : F64.holds fmt F64.nan = true := F64.holds_nan fmt (by decide)
  unfold fadd
  simp only
  split_ifs with h1 h2 h3 h4
  · exact hn
  · exact hn
  · exact F64.holds_inf fmt h2
  · exact F64.holds_inf fmt h4
  · exact F64.holds_make _ (F64.isMag_zero fmt)
  · exact F64.holds_make _ (F64.isMag_roundMag _ _ _)

/-- The patterns of the format read as themselves from a pair (10_state R47). -/
theorem Pair.f64_of_holds {fmt : FpFmt} {p : Pair} (h : F64.holds fmt p.bits = true) : p.f64 fmt = p.bits := by
  rw [Pair.f64, if_pos h]

theorem Pair.bits_ofF64 (x : F64) : (Pair.ofF64 x).bits = x := by
  apply BitVec.eq_of_toNat_eq
  have := x.isLt
  simp only [Pair.bits, Pair.ofF64, BitVec.toNat_append, BitVec.extractLsb'_toNat, Nat.shiftRight_zero]
  rw [← Nat.shiftLeft_add_eq_or_of_lt (Nat.mod_lt _ (by decide)), Nat.shiftLeft_eq, Nat.shiftRight_eq_div_pow]
  omega

/-- What a command writes to a pair reads back as it was written (10_state R47). -/
theorem Pair.f64_ofF64 {fmt : FpFmt} {x : F64} (h : F64.holds fmt x = true) : (Pair.ofF64 x).f64 fmt = x := by
  rw [Pair.f64_of_holds (by rwa [Pair.bits_ofF64]), Pair.bits_ofF64]

/-! ## Integers as FP values -/

theorem F64.ofNat_mag_mono {i n : Nat} (h : i ≤ n) : F64.mag (F64.ofNat i) ≤ F64.mag (F64.ofNat n) := by
  unfold F64.ofNat
  rw [F64.mag_make _ ((F64.roundMag_le_infMag _ _ _).trans_lt F64.infMag_lt),
    F64.mag_make _ ((F64.roundMag_le_infMag _ _ _).trans_lt F64.infMag_lt)]
  exact F64.roundMag_mono .binary64 (Nat.mul_le_mul_right _ h)

theorem F64.ofNat_sign (i : Nat) : F64.sign (F64.ofNat i) = false :=
  F64.sign_make _ ((F64.roundMag_le_infMag _ _ _).trans_lt F64.infMag_lt)

theorem F64.units_mono {x y : F64} (h : F64.mag x ≤ F64.mag y) : F64.units x ≤ F64.units y :=
  F64.unitsOfMag_mono h

/-- The quotient i / n of integers, as code, for a divisor that is finite and not zero. -/
theorem fdiv_ofNat (fmt : FpFmt) {i n : Nat} (hi : i ≤ n) (hf : F64.mag (F64.ofNat n) < F64.infMag)
    (h0 : F64.mag (F64.ofNat n) ≠ 0) :
    fdiv fmt (F64.ofNat i) (F64.ofNat n)
      = F64.make false (F64.roundMag fmt (F64.units (F64.ofNat i) * F64.scale) (F64.units (F64.ofNat n))) := by
  have hx : F64.nonneg (F64.ofNat i) = true :=
    (F64.nonneg_iff _).2 ⟨F64.ofNat_sign i, (F64.ofNat_mag_mono hi).trans_lt hf⟩
  have hy : F64.nonneg (F64.ofNat n) = true := (F64.nonneg_iff _).2 ⟨F64.ofNat_sign n, hf⟩
  simp [fdiv, F64.isNaN_of_nonneg hx, F64.isNaN_of_nonneg hy, F64.isInf_of_nonneg hx,
    F64.isInf_of_nonneg hy, F64.ofNat_sign, h0]

/-- i / n is in [+0.0, 1.0] (40_gamma R106, R107). -/
theorem fdiv_ofNat_inUnit (fmt : FpFmt) {i n : Nat} (hi : i ≤ n) (hf : F64.mag (F64.ofNat n) < F64.infMag)
    (h0 : F64.mag (F64.ofNat n) ≠ 0) (hu : 0 < F64.units (F64.ofNat n)) :
    F64.inUnit (fdiv fmt (F64.ofNat i) (F64.ofNat n)) = true := by
  rw [fdiv_ofNat fmt hi hf h0]
  refine F64.inUnit_make (F64.roundMag_le hu (F64.isMag_oneCode fmt) ?_)
  rw [F64.unitsOfMag_one, Nat.mul_comm]
  exact Nat.mul_le_mul_left _ (F64.units_mono (F64.ofNat_mag_mono hi))

/-- i / n is monotone in i (40_gamma R120). -/
theorem fdiv_ofNat_mono (fmt : FpFmt) {i j n : Nat} (hij : i ≤ j) (hj : j ≤ n)
    (hf : F64.mag (F64.ofNat n) < F64.infMag) (h0 : F64.mag (F64.ofNat n) ≠ 0)
    (hu : 0 < F64.units (F64.ofNat n)) :
    F64.le (fdiv fmt (F64.ofNat i) (F64.ofNat n)) (fdiv fmt (F64.ofNat j) (F64.ofNat n)) = true := by
  rw [F64.le_iff_mag (fdiv_ofNat_inUnit fmt (hij.trans hj) hf h0 hu) (fdiv_ofNat_inUnit fmt hj hf h0 hu),
    fdiv_ofNat fmt (hij.trans hj) hf h0, fdiv_ofNat fmt hj hf h0,
    F64.mag_make _ ((F64.roundMag_le_infMag _ _ _).trans_lt F64.infMag_lt),
    F64.mag_make _ ((F64.roundMag_le_infMag _ _ _).trans_lt F64.infMag_lt)]
  exact F64.roundMag_mono fmt (Nat.mul_le_mul_right _ (F64.units_mono (F64.ofNat_mag_mono hij)))

/-! ## The three scale factors -/

/-- A scale factor n is exactly the integer n, a value of both formats (00_scope R8). -/
structure F64.IsScale (n : Nat) : Prop where
  finite : F64.mag (F64.ofNat n) < F64.infMag
  units  : F64.units (F64.ofNat n) = n * F64.scale
  isMag  : ∀ fmt, F64.IsMag fmt (F64.mag (F64.ofNat n))

/-- A factor that is an integer of binary32 as well, by its code there. -/
theorem F64.IsScale.of_code {n : Nat} (c : Nat) (hf : F64.mag (F64.ofNat n) < F64.infMag)
    (hu : F64.units (F64.ofNat n) = n * F64.scale) (hc : c ≤ FpFmt.infCode .binary32)
    (hm : F64.mag (F64.ofNat n) = FpFmt.magOfCode .binary32 c) : F64.IsScale n :=
  ⟨hf, hu, fun fmt => match fmt with
    | .binary64 => F64.isMag_binary64 hf.le
    | .binary32 => ⟨c, hc, hm⟩⟩

theorem scale_65535 : F64.IsScale 65535 :=
  .of_code 0x477FFF00 (by decide +kernel) (by decide +kernel) (by decide) (by decide +kernel)

theorem scale_16777215 : F64.IsScale 16777215 :=
  .of_code 0x4B7FFFFF (by decide +kernel) (by decide +kernel) (by decide) (by decide +kernel)

theorem scale_4095 : F64.IsScale 4095 :=
  .of_code 0x457FF000 (by decide +kernel) (by decide +kernel) (by decide) (by decide +kernel)

theorem F64.IsScale.nonneg {n : Nat} (h : F64.IsScale n) : F64.nonneg (F64.ofNat n) = true :=
  (F64.nonneg_iff _).2 ⟨F64.ofNat_sign n, h.finite⟩

/-- The product of a value in [+0.0, 1.0] and a scale factor, as code, is at most the factor. -/
theorem fmul_scale (fmt : FpFmt) {c : F64} {n : Nat} (hc : F64.inUnit c = true) (hn : F64.IsScale n) :
    fmul fmt c (F64.ofNat n)
        = F64.make false (F64.roundMag fmt (F64.units c * F64.units (F64.ofNat n)) F64.scale) ∧
      F64.roundMag fmt (F64.units c * F64.units (F64.ofNat n)) F64.scale ≤ F64.mag (F64.ofNat n) := by
  refine ⟨fmul_of_nonneg fmt (F64.nonneg_of_inUnit hc) hn.nonneg,
    F64.roundMag_le F64.scale_pos (hn.isMag fmt) ?_⟩
  have : F64.unitsOfMag (F64.mag (F64.ofNat n)) = F64.units (F64.ofNat n) := rfl
  rw [this, Nat.mul_comm]
  exact Nat.mul_le_mul_left _ (F64.units_le_of_inUnit hc)

/-- `round` of a finite value that is not negative (40_gamma R104). -/
theorem roundHalfAway_of_nonneg {x : F64} (h : F64.nonneg x = true) :
    roundHalfAway x = ((2 * F64.units x + F64.scale) / (2 * F64.scale) : Nat) := by
  have := (F64.nonneg_iff x).1 h
  have hf : F64.isFinite x = true := decide_eq_true this.2
  rw [roundHalfAway, if_pos hf]
  simp only [this.1, Bool.false_eq_true, if_false]

/-- `trunc` of a finite value that is not negative (40_gamma R105). -/
theorem truncToInt_of_nonneg {x : F64} (h : F64.nonneg x = true) :
    truncToInt x = (F64.units x / F64.scale : Nat) := by
  have := (F64.nonneg_iff x).1 h
  have hf : F64.isFinite x = true := decide_eq_true this.2
  rw [truncToInt, if_pos hf]
  simp only [this.1, Bool.false_eq_true, if_false]

/-- The product of a value in [+0.0, 1.0] and a scale factor n rounds to 0..n (40_gamma R106, R114, R116). -/
theorem round_fmul_scale (fmt : FpFmt) {c : F64} {n : Nat} (hc : F64.inUnit c = true) (hn : F64.IsScale n) :
    ∃ k : Nat, roundHalfAway (fmul fmt c (F64.ofNat n)) = k ∧ k ≤ n := by
  obtain ⟨he, hle⟩ := fmul_scale fmt hc hn
  have hnn : F64.nonneg (fmul fmt c (F64.ofNat n)) = true := by
    rw [he]
    exact F64.nonneg_make (hle.trans_lt hn.finite)
  refine ⟨_, roundHalfAway_of_nonneg hnn, ?_⟩
  have hu : F64.units (fmul fmt c (F64.ofNat n)) ≤ n * F64.scale := by
    rw [he, F64.units_make (hle.trans_lt (hn.finite.trans F64.infMag_lt)), ← hn.units]
    exact F64.unitsOfMag_mono hle
  have hs := F64.scale_pos
  refine Nat.le_of_lt_succ ((Nat.div_lt_iff_lt_mul (by omega)).2 ?_)
  have : n.succ * (2 * F64.scale) = 2 * (n * F64.scale) + 2 * F64.scale := by
    rw [Nat.succ_mul, Nat.mul_left_comm]
  omega

/-- The product of a value in [+0.0, 1.0] and a scale factor n truncates to 0..n (40_gamma R116). -/
theorem trunc_fmul_scale (fmt : FpFmt) {c : F64} {n : Nat} (hc : F64.inUnit c = true) (hn : F64.IsScale n) :
    ∃ k : Nat, truncToInt (fmul fmt c (F64.ofNat n)) = k ∧ k ≤ n := by
  obtain ⟨he, hle⟩ := fmul_scale fmt hc hn
  have hnn : F64.nonneg (fmul fmt c (F64.ofNat n)) = true := by
    rw [he]
    exact F64.nonneg_make (hle.trans_lt hn.finite)
  refine ⟨_, truncToInt_of_nonneg hnn, ?_⟩
  have hu : F64.units (fmul fmt c (F64.ofNat n)) ≤ n * F64.scale := by
    rw [he, F64.units_make (hle.trans_lt (hn.finite.trans F64.infMag_lt)), ← hn.units]
    exact F64.unitsOfMag_mono hle
  exact Nat.div_le_of_le_mul (by rw [Nat.mul_comm]; exact hu)

/-- The units of the product with a scale factor are monotone (40_gamma R120). -/
theorem units_fmul_scale_mono (fmt : FpFmt) {c c' : F64} {n : Nat} (hc : F64.inUnit c = true) (hc' : F64.inUnit c' = true)
    (hn : F64.IsScale n) (h : F64.le c c' = true) :
    F64.units (fmul fmt c (F64.ofNat n)) ≤ F64.units (fmul fmt c' (F64.ofNat n)) := by
  have hm := (F64.le_iff_mag hc hc').1 h
  have hlt {m : Nat} (hm : m ≤ F64.mag (F64.ofNat n)) : m < 2 ^ 63 :=
    hm.trans_lt (hn.finite.trans F64.infMag_lt)
  obtain ⟨he, hle⟩ := fmul_scale fmt hc hn
  obtain ⟨he', hle'⟩ := fmul_scale fmt hc' hn
  rw [he, he', F64.units_make (hlt hle), F64.units_make (hlt hle')]
  exact F64.unitsOfMag_mono (F64.roundMag_mono fmt (Nat.mul_le_mul_right _ (F64.units_mono hm)))

/-! ## Clamp (40_gamma R113) -/

theorem clamp_of_inUnit {v : F64} (h : F64.inUnit v = true) : clamp v = v := by
  have h0 : F64.inUnit F64.posZero = true := by decide
  have h1 : F64.inUnit F64.one = true := by decide
  have hv := (F64.inUnit_iff v).1 h
  have hm := F64.make_sign_mag v
  unfold clamp
  split
  · rename_i hle
    have : F64.mag v ≤ F64.mag F64.posZero := (F64.le_iff_mag h h0).1 hle
    have hz : F64.mag F64.posZero = 0 := by decide
    have : F64.mag v = 0 := by omega
    rw [hv.1, this] at hm
    exact hm
  · split
    · rename_i hle
      have : F64.mag F64.one ≤ F64.mag v := (F64.le_iff_mag h1 h).1 hle
      have ho : F64.mag F64.one = oneCode := by decide
      have : F64.mag v = oneCode := by omega
      rw [hv.1, this] at hm
      exact hm
    · rfl

end Sys2Proof.Machine
end

