-- ==== Sys2Proof/Laws/Step.lean ====
section
/-! SUPPORT. What each agent's turn can do, each said once: the engine's steps with their guards (42_pipeline R157),
the accessor's, the host's, and the machine's step. -/

namespace Sys2Proof.Machine

/-! ## The register map (10_state R22) -/

theorem Reg.mem_all (r : Reg) : r ∈ Reg.all := by
  cases r <;> decide

@[simp] theorem Reg.ofOffset_offset (r : Reg) : Reg.ofOffset r.offset = some r := by
  cases r <;> rfl

theorem Reg.offset_of_ofOffset {o : Nat} {r : Reg} (h : Reg.ofOffset o = some r) : r.offset = o := by
  simpa using List.find?_some h

@[simp] theorem State.readAt_offset (s : State) (r : Reg) : s.readAt r.offset = s.readReg r := by
  simp [State.readAt]

/-! ## The engine (42_pipeline R145 to R154) -/

/-- The engine's steps, each with the guard that enables it (42_pipeline R157). -/
inductive EngineCase (s : State) : State → Prop
  | init : s.stage = .init → EngineCase s (stepInit s)
  | validating : s.stage = .validating → EngineCase s (stepValidating s)
  | issueMeta : s.stage = .preparingOutput → s.pend = .none → EngineCase s (stepIssueMeta s)
  | metaOk : s.stage = .preparingOutput → s.pend = .metaPending → s.answer = some .ok →
      EngineCase s (stepMetaOk s)
  | metaError : s.stage = .preparingOutput → s.pend = .metaPending → s.answer = some .error →
      EngineCase s (stepMetaError s)
  | endOfImage : s.stage = .processing → s.pend = .none → s.rowsDone = s.height →
      EngineCase s (stepEndOfImage s)
  | readRow : s.stage = .processing → s.pend = .none → s.rowsDone.toNat < s.height.toNat →
      EngineCase s (stepReadRow s)
  | truncated (r : Word) : s.stage = .processing → s.pend = .readPending r →
      s.answer = some .endOfData → EngineCase s (stepTruncated s)
  | convertRow (r : Word) (x : Row) : s.stage = .processing → s.pend = .readPending r →
      s.answer = some (.row x) → EngineCase s (stepConvertRow r x s)
  | rowWritten (r : Word) : s.stage = .processing → s.pend = .writePending r →
      s.answer = some .ok → EngineCase s (stepRowWritten r s)
  | writeFailed (r : Word) : s.stage = .processing → s.pend = .writePending r →
      s.answer = some .writeFailed → EngineCase s (stepWriteFailed s)

theorem preparingStep_cases {s t : State} (hs : s.stage = .preparingOutput)
    (h : s.preparingStep = some t) : EngineCase s t := by
  unfold State.preparingStep at h
  split at h
  · rename_i hp
    cases h
    exact .issueMeta hs hp
  · rename_i hp
    split at h <;> cases h
    · exact .metaOk hs hp ‹_›
    · exact .metaError hs hp ‹_›
  · cases h
  · cases h

theorem processingStep_cases {s t : State} (hs : s.stage = .processing)
    (h : s.processingStep = some t) : EngineCase s t := by
  unfold State.processingStep at h
  split at h
  · rename_i hp
    unfold State.nextRowStep at h
    split_ifs at h with h1 h2 <;> cases h
    · exact .endOfImage hs hp h1
    · exact .readRow hs hp h2
  · rename_i r hp
    split at h <;> cases h
    · exact .convertRow r _ hs hp ‹_›
    · exact .truncated r hs hp ‹_›
  · rename_i r hp
    split at h <;> cases h
    · exact .rowWritten r hs hp ‹_›
    · exact .writeFailed r hs hp ‹_›
  · cases h

/-- Everything an engine step can be, with its guard. -/
theorem engineStep_cases {s t : State} (h : engineStep s = some t) : s.busy = true ∧ EngineCase s t := by
  unfold engineStep at h
  split_ifs at h with hb
  refine ⟨hb, ?_⟩
  split at h
  · cases h; exact .init ‹_›
  · cases h; exact .validating ‹_›
  · exact preparingStep_cases ‹_› h
  · exact processingStep_cases ‹_› h
  · cases h
  · cases h

/-- With BUSY = 0 the engine has no step (42_pipeline R157). -/
theorem engineStep_idle {s : State} (h : s.busy = false) : engineStep s = none := by
  simp [engineStep, h]

/-- Converting a row: the two conditions that cannot occur end the run, else the row goes out (42_pipeline R152). -/
theorem stepConvertRow_cases (r : Word) (x : Row) (s : State) :
    (normalizeRow .shift s.bps x = none ∧ stepConvertRow r x s = s.takeAnswer.raise .run .badBitDepth) ∨
    (matrixRom s.fpFmt s.msel = none ∧ stepConvertRow r x s = s.takeAnswer.raise .run .badMatrix) ∨
    ∃ row m, normalizeRow .shift s.bps x = some row ∧ matrixRom s.fpFmt s.msel = some m ∧
      stepConvertRow r x s = { (s.issue (.writeRow r (s.convRow m row)) (.writePending r)) with
        inBuf := x, outBuf := s.convRow m row, answer := none } := by
  cases hn : normalizeRow .shift s.bps x with
  | none => exact .inl ⟨rfl, by simp [stepConvertRow, hn]⟩
  | some row =>
    cases hm : matrixRom s.fpFmt s.msel with
    | none => exact .inr (.inl ⟨rfl, by simp [stepConvertRow, hn, hm]⟩)
    | some m => exact .inr (.inr ⟨row, m, rfl, rfl, by simp [stepConvertRow, hn, hm]⟩)

/-! ## The accessor (20_memory R67) -/

/-- Everything an accessor step can be. -/
theorem accessorStep_cases {s t : State} (h : accessorStep s = .next t) :
    ∃ r rest, s.replies = r :: rest ∧
      ((s.answersOutstanding r = false ∧ t = { s with replies := rest }) ∨
       (s.answersOutstanding r = true ∧ s.answer = none ∧ s.admitsAnswer r.answer = true ∧
        t = State.deliver r.answer { s with replies := rest })) := by
  unfold accessorStep at h
  split at h
  · cases h
  · rename_i r rest hr
    refine ⟨r, rest, hr, ?_⟩
    simp only at h
    split_ifs at h with h1 h2
    · cases h
      rw [Bool.and_eq_true, Option.isNone_iff_eq_none] at h2
      exact .inr ⟨h1, h2.1, h2.2, rfl⟩
    · cases h
      exact .inl ⟨by simpa using h1, rfl⟩

/-! ## The host (10_state R48, 30_encoding R75, R76) -/

/-- Everything a host write to a register can be. -/
theorem hostWriteReg_cases {r : Reg} {w : Word} {s t : State} (h : hostWriteReg r w s = .next t) :
    (s.busy = true ∧ (t = s ∨ t = { s with wign := true })) ∨
    (s.busy = false ∧ (t = s.writeReg r w ∨ (∃ i, decode w = .ok i ∧ exec i s = .next t) ∨
      t = s.beginCommand.raise .command .illegalCommand)) := by
  unfold hostWriteReg at h
  split_ifs at h with h1 h2 h3
  · cases h; exact .inl ⟨h1, .inl rfl⟩
  · cases h; exact .inl ⟨h1, .inr rfl⟩
  · refine .inr ⟨by simpa using h1, .inr ?_⟩
    unfold issueCommand at h
    split at h
    · rename_i i hi
      exact .inl ⟨i, hi, h⟩
    · cases h; exact .inr rfl
  · cases h
    exact .inr ⟨by simpa using h1, .inl rfl⟩

/-- Everything a host write at an offset can be. -/
theorem hostWrite_cases {o : Nat} {w : Word} {s t : State} (h : hostWrite o w s = .next t) :
    t = s ∨ (s.busy = true ∧ t = { s with wign := true }) ∨
    (s.busy = false ∧ ((∃ r, t = s.writeReg r w) ∨ (∃ i, decode w = .ok i ∧ exec i s = .next t) ∨
      t = s.beginCommand.raise .command .illegalCommand)) := by
  unfold hostWrite at h
  split at h
  · rename_i r hr
    rcases hostWriteReg_cases h with ⟨hb, rfl | rfl⟩ | ⟨hb, rfl | h | rfl⟩
    · exact .inl rfl
    · exact .inr (.inl ⟨hb, rfl⟩)
    · exact .inr (.inr ⟨hb, .inl ⟨r, rfl⟩⟩)
    · exact .inr (.inr ⟨hb, .inr (.inl h)⟩)
    · exact .inr (.inr ⟨hb, .inr (.inr rfl)⟩)
  · cases h
    exact .inl rfl

/-- The state with the host's own fields changed: its program, its values read, its failed check. -/
def State.withHost (s : State) (host : List HostOp) (reads : List Word) (failed : Bool) : State :=
  { s with host := host, reads := reads, checkFailed := failed }

/-- Everything a host step can be: the host's own fields move on, and the block takes at most one write. -/
theorem hostStep_cases {s t : State} (h : hostStep s = .next t) :
    ∃ host reads failed, ∃ u, u = s.withHost host reads failed ∧
      (t = u ∨ (s.busy = true ∧ t = { u with wign := true }) ∨
       (s.busy = false ∧ ((∃ r w, t = u.writeReg r w) ∨ (∃ i w, decode w = .ok i ∧ exec i u = .next t) ∨
          t = u.beginCommand.raise .command .illegalCommand))) := by
  unfold hostStep at h
  split at h
  · cases h
  · rename_i a w rest hh
    split_ifs at h
    refine ⟨rest, s.reads, s.checkFailed, _, rfl, ?_⟩
    rcases hostWrite_cases h with h | ⟨hb, h⟩ | ⟨hb, ⟨r, h⟩ | ⟨i, hi, h⟩ | h⟩
    · exact .inl h
    · exact .inr (.inl ⟨hb, h⟩)
    · exact .inr (.inr ⟨hb, .inl ⟨r, w, h⟩⟩)
    · exact .inr (.inr ⟨hb, .inr (.inl ⟨i, w, hi, h⟩)⟩)
    · exact .inr (.inr ⟨hb, .inr (.inr h)⟩)
  · rename_i a rest hh
    split_ifs at h
    cases h
    exact ⟨_, _, _, _, rfl, .inl rfl⟩
  · cases h
    exact ⟨_, _, _, _, rfl, .inl rfl⟩
  · rename_i o v rest hh
    split_ifs at h
    cases h
    exact ⟨_, _, _, _, rfl, .inl rfl⟩

/-! ## The machine -/

/-- Everything a turn can be. -/
theorem turn_cases {a : Agent} {s t : State} (h : turn a s = .next t) :
    (a = .engine ∧ engineStep s = some t) ∨ (a = .host ∧ hostStep s = .next t) ∨
    (a = .accessor ∧ accessorStep s = .next t) ∨ (a = .reset ∧ t = s.applyReset) := by
  cases a with
  | engine =>
    unfold turn at h
    simp only at h
    split at h
    · rename_i u hu
      cases h
      exact .inl ⟨rfl, hu⟩
    · cases h
  | host => exact .inr (.inl ⟨rfl, h⟩)
  | accessor => exact .inr (.inr (.inl ⟨rfl, h⟩))
  | reset =>
    cases h
    exact .inr (.inr (.inr ⟨rfl, rfl⟩))

/-- A step is a turn of the scheduled agent, or of the default agent. -/
theorem step_cases {s t : State} (h : step s = .next t) :
    ∃ a rest, turn a { s with sched := rest } = .next t ∧
      ((s.sched = a :: rest) ∨ (s.sched = [] ∧ rest = [] ∧ defaultAgent s = some a)) := by
  unfold step machineStep at h
  split at h
  · rename_i a rest hs
    exact ⟨a, rest, h, .inl hs⟩
  · rename_i hs
    split at h
    · rename_i a ha
      refine ⟨a, [], ?_, .inr ⟨hs, rfl, ha⟩⟩
      have : { s with sched := [] } = s := by rw [← hs]
      rw [this]
      exact h
    · cases h

end Sys2Proof.Machine
end

