-- ==== Sys2Proof/Tests/Slice0.lean ====
section
/-! SUPPORT. Small tests: each well-formedness check refuses a term; words written out from 30_encoding decode to
their commands; at most two results per command, from the worked examples of the spec; a witness for the hypotheses
of every statement that has some. -/

namespace Sys2Proof.Tests

open Sys2Proof.Machine

/-! ## Well-formedness (30_encoding R70, R72; 20_memory R52) -/

theorem test_rsv_not_zero_refused : (Cmd32.mk 1 0x01).rsvZero = false ∧ (Cmd32.mk 1 0x01).wf = false := by decide
theorem test_opc_unknown_refused : (Cmd32.mk 0 0x07).opcKnown = false ∧ (Cmd32.mk 0 0x07).wf = false := by decide
theorem test_halfword_refused : (Access.mk 2 0x004).widthOk = false ∧ (Access.mk 2 0x004).wf = false := by decide
theorem test_misaligned_refused : (Access.mk 4 0x006).aligned = false ∧ (Access.mk 4 0x006).wf = false := by decide
theorem test_outside_refused : (Access.mk 4 0x100).inWindow = false ∧ (Access.mk 4 0x100).wf = false := by decide
theorem test_last_offset_accepted : (Access.mk 4 0x0FC).wf = true := by decide

/-! ## Decoding: RSV in bits 31:8, OPC in bits 7:0 (30_encoding R70, R72, R73) -/

theorem test_decode_nop : decode 0b000000000000000000000000_00000000#32 = .ok .nop := by decide
theorem test_decode_build : decode 0b000000000000000000000000_00000001#32 = .ok .build := by decide
theorem test_decode_run : decode 0b000000000000000000000000_00000010#32 = .ok .run := by decide
theorem test_decode_dec3 : decode 0b000000000000000000000000_00000011#32 = .ok .dec3 := by decide
theorem test_decode_mat3 : decode 0b000000000000000000000000_00000100#32 = .ok .mat3 := by decide
theorem test_decode_enc3 : decode 0b000000000000000000000000_00000101#32 = .ok .enc3 := by decide
theorem test_decode_pixel : decode 0b000000000000000000000000_00000110#32 = .ok .pixel := by decide
theorem test_decode_rsv : decode 0x00000107 = .error .reservedBits := by decide
theorem test_decode_opc : decode 0x00000007 = .error .unknownOpcode := by decide

/-! ## FP_FMT = binary32 (00_scope R6; the IEEE 754 binary32 values of the literals) -/

/-- 0.1610 in binary32 is 0x3E24DD2F, the value 0.16099999845027924. -/
theorem test_literal_binary32 : F64.ofRatio .binary32 false 1610 10000 = 0x3FC49BA5E0000000 := by decide +kernel

/-- 2^-149 is the smallest positive binary32 value and half of it rounds to zero, a tie. -/
theorem test_smallest_binary32 :
    fmul .binary32 0x36A0000000000000 0x3FE0000000000000 = 0 ∧ F64.holds .binary32 0x36A0000000000000 = true := by
  decide +kernel

/-- The largest binary32 value doubled overflows. -/
theorem test_overflow_binary32 : fadd .binary32 0x47EFFFFFE0000000 0x47EFFFFFE0000000 = 0x7FF0000000000000 := by
  decide +kernel

/-! ## Small states -/

/-- The next state of an outcome. -/
def after (o : Host.Outcome State Fault Refusal) : Option State :=
  match o with
  | .next s => some s
  | .fault _ => none
  | .refused _ => none

/-- The pair that holds 1.0. -/
def onePair : Pair := Pair.ofF64 F64.one

/-- After reset, both gammas 1.0, the Power path. -/
def powerState : State := { State.reset with strategy := .power, gammaIn := onePair, gammaOut := onePair }

/-- After reset, both gammas 1.0, the tables built, the LUT path, SMPTE selected. -/
def lutState : State := { State.reset with
  gammaIn := onePair, gammaOut := onePair, lutValid := true
  dlut := buildDlut .binary64 onePair.bits, elut := buildElut .binary64 onePair.bits }

/-- A run on the Power path of an image of one row and one pixel, 16 bits, three samples, Identity; the stage is
Init. -/
def runState : State := { powerState with
  msel := 0, width := 1, height := 1, bps := 16, spp := 3, isRgb := true, isContig := true, busy := true }

/-- The same run with row 0 converted and its write outstanding. -/
def writeState : State := { runState with
  stage := .processing
  inBuf := [1, 2, 3]
  outBuf := runState.convRow identityMatrix [1, 2, 3]
  requests := [.writeRow 0 (runState.convRow identityMatrix [1, 2, 3]), .readRow 0, .setMeta runState.runMetadata]
  pend := .writePending 0
  replies := [⟨3, .ok⟩] }

/-- The same run with its read outstanding and the row on the port. -/
def readState : State := { runState with
  stage := .processing, requests := [.readRow 0, .setMeta runState.runMetadata]
  pend := .readPending 0, answer := some (.row [1, 2, 3]) }

/-- The same run with SetMeta outstanding. -/
def metaState : State := { runState with
  stage := .preparingOutput, requests := [.setMeta runState.runMetadata], pend := .metaPending }

/-! ## Results from the spec's worked examples -/

/-- 42_pipeline R156: NOP clears ERR and WIGN only. -/
theorem test_nop : (after (exec .nop { lutState with err := .nanOperand, wign := true })).map State.statusWord
    = some 0x00000020 := by decide +kernel

/-- 40_gamma R109, V-G2: -0.0 is no gamma; ERR = INVALID_GAMMA, LUT_VALID stays 0. -/
theorem test_build_invalid :
    (after (exec .build { powerState with gammaOut := Pair.ofF64 0x8000000000000000 })).map State.statusWord
    = some 0x00001000 := by decide +kernel

/-- V-D3, V-E6: the tables for 1.0. -/
theorem test_build_entries :
    (after (exec .build powerState)).map (fun t =>
      (t.dlut.read dlutBits 32768, t.elut.read elutBits 8388608, t.elut.read elutBits 129))
    = some (0x3FE0001000100010, 32768, 1) := by decide +kernel

/-- 42_pipeline R144: the issue of RUN after a failed run. -/
theorem test_run : (after (exec .run { lutState with
      stage := .failed, err := .writeError, trunc := true, wign := true, rowsDone := 7 })).map
      (fun t => (t.statusWord, t.rowsDone)) = some (0x00000030, 0) := by decide +kernel

/-- V-D3, V-D1, V-D5: DEC3 on the LUT path. -/
theorem test_dec3 : (after (exec .dec3 { lutState with pixIn := ⟨32768, 0, 65535⟩ })).map
      (fun t => t.lanes) = some ⟨0x3FE0001000100010, 0, 0x3FF0000000000000⟩ := by decide +kernel

/-- 40_gamma R112: DEC3 with no tables on the LUT path (program L3-7). -/
theorem test_dec3_not_built : (after (exec .dec3 State.reset)).map State.statusWord = some 0x00008000 := by
  decide +kernel

/-- V-M2: the row sums of SMPTE. -/
theorem test_mat3 : (after (exec .mat3 { lutState with fv := ⟨onePair, onePair, onePair⟩ })).map
      (fun t => t.lanes) = some ⟨0x3FECA074B1F79722, 0x3FF0000000000000, 0x3FEE8A9353EB75C1⟩ := by
  decide +kernel

/-- 41_matrix R132: MSEL = 3. -/
theorem test_mat3_no_matrix : (after (exec .mat3 { lutState with msel := 3 })).map State.statusWord
    = some 0x00009020 := by decide +kernel

/-- V-C1, V-C5, V-Q12, V-E6: ENC3 clamps, quantizes and looks up. -/
theorem test_enc3 : (after (exec .enc3 { lutState with
      fv := ⟨Pair.ofF64 0x3FE0001000100010, onePair, Pair.ofF64 0xC008000000000000⟩ })).map State.pixOut
    = some ⟨32768, 65535, 0⟩ := by decide +kernel

/-- V-P3: the Power path's lanes (1.0 and below 0) of the same command. -/
theorem test_enc3_power : encPow .binary64 .trunc F64.one (clamp 0x3FE0000000000000) = 32752 ∧
    encPow .binary64 .round F64.one (clamp 0x3FE0000000000000) = 32768 ∧
    encPow .binary64 .trunc F64.one (clamp 0xC008000000000000) = 0 := by decide +kernel

/-- V-X4: a pixel on the LUT path, SMPTE. -/
theorem test_pixel : (after (exec .pixel { lutState with pixIn := ⟨32768, 16384, 8192⟩ })).map State.pixOut
    = some ⟨20539, 19252, 8204⟩ := by decide +kernel

/-- V-X11: a pixel on the LUT path, StEM. -/
theorem test_pixel_stem : (after (exec .pixel { lutState with msel := 2, pixIn := ⟨32768, 16384, 8192⟩ })).map
      State.pixOut = some ⟨20934, 19304, 8193⟩ := by decide +kernel

/-- 30_encoding R77: `-p -S`. -/
theorem test_cli_ctrl : CliOptions.ctrlWord ⟨true, .optionS, none, none⟩ = 0x00000005 := by decide

/-- 42_pipeline R142: 8-bit samples widened into the upper byte, samples beyond the third unused (program L3-4). -/
theorem test_row_pixel : (normalizeRow .shift 8 [255, 128, 1, 77]).map (pixelOfRow 4 0)
    = some ⟨65280, 32768, 256⟩ := by decide

/-! ## Good states -/

theorem one_valid : validGamma onePair.bits = true := by decide +kernel

theorem lutState_current : lutState.TablesCurrent := fun _ => ⟨one_valid, one_valid, rfl, rfl⟩

theorem lutState_good : lutState.Inv where
  rowsCanonical := rfl
  tablesCurrent := lutState_current
  stageFitsBusy := trivial
  pendFitsStage := trivial
  pendOnlyBusy _ := rfl
  answerFitsPend := trivial
  validated h := by rcases h with h | h <;> cases h
  runCounters h := by cases h
  metaIsDeclared h := by cases h
  writeIsConversion := trivial
  requestsInOrder h := by cases h

theorem runState_good : runState.Inv where
  rowsCanonical := rfl
  tablesCurrent h := by cases h
  stageFitsBusy := trivial
  pendFitsStage := trivial
  pendOnlyBusy h := by cases h
  answerFitsPend := trivial
  validated h := by rcases h with h | h <;> cases h
  runCounters _ := ⟨rfl, rfl, rfl⟩
  metaIsDeclared h := by cases h
  writeIsConversion := trivial
  requestsInOrder _ := List.nil_prefix

theorem runState_valid : firstFailure runState.validationChecks = none := by decide +kernel

theorem metaState_good : metaState.Inv where
  rowsCanonical := rfl
  tablesCurrent h := by cases h
  stageFitsBusy := rfl
  pendFitsStage := rfl
  pendOnlyBusy h := by cases h
  answerFitsPend := trivial
  validated _ := runState_valid
  runCounters _ := ⟨rfl, rfl, rfl⟩
  metaIsDeclared _ := rfl
  writeIsConversion := trivial
  requestsInOrder _ := List.prefix_rfl

theorem readState_good : readState.Inv where
  rowsCanonical := rfl
  tablesCurrent h := by cases h
  stageFitsBusy := rfl
  pendFitsStage := ⟨rfl, rfl, by decide⟩
  pendOnlyBusy h := by cases h
  answerFitsPend := show readState.admitsAnswer (.row [1, 2, 3]) = true by decide
  validated _ := runState_valid
  runCounters _ := ⟨rfl, rfl, by decide⟩
  metaIsDeclared h := by cases h
  writeIsConversion := trivial
  requestsInOrder _ := List.prefix_rfl

/-- The conversion of a row does not depend on the buffers and the port. -/
theorem convRow_ports (s : State) (stage : Stage) (x out : Row) (reqs : List Request) (p : Pend)
    (replies : List Reply) (m : Matrix3) (row : Row) :
    State.convRow { s with
      stage := stage, inBuf := x, outBuf := out, requests := reqs, pend := p, replies := replies } m row
    = s.convRow m row := rfl

theorem writeState_good : writeState.Inv where
  rowsCanonical := rfl
  tablesCurrent h := by cases h
  stageFitsBusy := rfl
  pendFitsStage := ⟨rfl, rfl, by decide⟩
  pendOnlyBusy h := by cases h
  answerFitsPend := trivial
  validated _ := runState_valid
  runCounters _ := ⟨rfl, rfl, by decide⟩
  metaIsDeclared h := by cases h
  writeIsConversion :=
    ⟨by decide, ⟨[1, 2, 3], identityMatrix, rfl, rfl, (convRow_ports runState ..).symm⟩, rfl⟩
  requestsInOrder _ := List.prefix_rfl

/-! ## Witnesses: states and operands that meet all hypotheses of a statement, clause by clause -/

theorem witness_IllegalWordRaisesIllegalCommand :
    ((0x00000100 : Word).extractLsb' 8 24 ≠ 0) ∧ 7 ≤ ((0x00000007 : Word).extractLsb' 0 8).toNat ∧
    7 ≤ ((0x000000FF : Word).extractLsb' 0 8).toNat ∧ State.reset.busy = false := by decide

/-- A scheduled host, and a host that moves by default. -/
theorem witness_StepIssuesTheDecodedCommand :
    let line : HostOp := .write ⟨4, 0x008⟩ 0x00000006
    (State.mover { lutState with host := [line], sched := [.host, .engine] } = some .host) ∧
    (State.mover { lutState with host := [line] } = some .host) ∧
    lutState.busy = false ∧ decode 0x00000006 = .ok .pixel := by
  refine ⟨rfl, rfl, rfl, ?_⟩
  decide

theorem witness_PlacedCommandRunsNext : State.reset.busy = false := rfl

theorem witness_WritesWhileBusyAreIgnored :
    runState.busy = true ∧ (Reg.cmd ≠ .id ∧ Reg.cmd ≠ .status) ∧ Reg.ofOffset 0x02C = none ∧
    (Access.mk 4 0x0FC).wf = true ∧
    State.host { runState with host := [.read ⟨4, 0x0FC⟩] } = .read ⟨4, 0x0FC⟩ :: [] := by
  refine ⟨rfl, ?_, rfl, ?_, rfl⟩ <;> decide

theorem witness_ReservedOffsetsReadZero : ∀ o ∈ [0x02C, 0x04C, 0x05C, 0x078, 0x0FC],
    o = 0x02C ∨ o = 0x04C ∨ o = 0x05C ∨ (0x078 ≤ o ∧ o ≤ 0x0FC ∧ o % 4 = 0) := by decide

/-- A write and a read; the last offset, the next one, a misaligned one and a narrow one. -/
theorem witness_OnlyAlignedWordAccessesHaveAStep :
    State.host { lutState with host := [.write ⟨4, 0x0FC⟩ 0] } = .write ⟨4, 0x0FC⟩ 0 :: [] ∧
    State.host { lutState with host := [.read ⟨4, 0x100⟩] } = .read ⟨4, 0x100⟩ :: [] ∧
    (∀ a : Access, a = ⟨4, 0x0FC⟩ ∨ a = ⟨4, 0⟩ → a.bytes = 4 ∧ a.offset % 4 = 0 ∧ a.offset ≤ 0x0FC) ∧
    (∀ a : Access, a = ⟨4, 0x100⟩ ∨ a = ⟨4, 0x002⟩ ∨ a = ⟨2, 0x000⟩ →
      ¬ (a.bytes = 4 ∧ a.offset % 4 = 0 ∧ a.offset ≤ 0x0FC)) := by
  refine ⟨rfl, rfl, ?_, ?_⟩
  · rintro a (rfl | rfl) <;> decide
  · rintro a (rfl | rfl | rfl) <;> decide

theorem witness_ReadsHaveNoSideEffect :
    (Access.mk 4 0x00C).wf = true ∧
    State.host { lutState with host := [.read ⟨4, 0x00C⟩, .read ⟨4, 0x00C⟩] }
      = .read ⟨4, 0x00C⟩ :: .read ⟨4, 0x00C⟩ :: [] := ⟨by decide, rfl⟩

theorem witness_RegistersHoldTheirWritableBits :
    lutState.busy = false ∧ Reg.ctrl.kind = .rw ∧ Reg.ctrl.isGammaHalf = false ∧ Reg.rowsDone.kind = .ro ∧
    (Reg.width ≠ .ctrl ∧ Reg.width ≠ .status) := by
  refine ⟨rfl, ?_⟩
  decide

theorem witness_CtrlWriteSetsStrategyAndMatrix :
    lutState.busy = false ∧ (0xFFFFFFFE : Word).getLsbD 0 = false ∧ (0x00000007 : Word).getLsbD 0 = true :=
  ⟨rfl, by decide, by decide⟩

theorem witness_GammaWriteClearsLutValid : lutState.busy = false ∧
    ∀ r ∈ [Reg.gammaInLo, .gammaInHi, .gammaOutLo, .gammaOutHi], r.isGammaHalf = true := ⟨rfl, by decide⟩

/-- The three ways: a reset, a GAMMA write, BUILD. -/
theorem witness_OnlyBuildSetsLutValid :
    (∃ s t, step s = .next t ∧ t.lutValid ≠ s.lutValid ∧ s.mover = some .reset) ∧
    (∃ s t, step s = .next t ∧ t.lutValid ≠ s.lutValid ∧ s.host = [.write ⟨4, 0x034⟩ 0]) ∧
    (∃ s t, step s = .next t ∧ t.lutValid ≠ s.lutValid ∧ s.host = [.write ⟨4, 0x008⟩ 1]) := by
  refine ⟨⟨{ lutState with sched := [.reset] }, _, rfl, ?_, rfl⟩,
    ⟨{ lutState with host := [.write ⟨4, 0x034⟩ 0] }, _, rfl, ?_, rfl⟩,
    ⟨{ powerState with host := [.write ⟨4, 0x008⟩ 1] }, { powerState with
      lutValid := true, dlut := buildDlut .binary64 onePair.bits, elut := buildElut .binary64 onePair.bits }, ?_, ?_, rfl⟩⟩
  · exact Bool.false_ne_true
  · exact Bool.false_ne_true
  · have h : buildBody powerState.beginCommand = .ok { powerState with
        lutValid := true, dlut := buildDlut .binary64 onePair.bits, elut := buildElut .binary64 onePair.bits } :=
      if_pos (show (validGamma onePair.bits && validGamma onePair.bits) = true by rw [one_valid]; rfl)
    exact runCommand_of_ok h
  · exact Bool.false_ne_true.symm

theorem witness_WaitRepeatsUntilNotBusy :
    State.host { runState with host := [.wait] } = .wait :: [] ∧
    State.host { lutState with host := [.wait] } = .wait :: [] := ⟨rfl, rfl⟩

/-- An answer of a request abandoned by the reset is still to come. -/
theorem witness_ResetGivesEveryRegisterItsValue :
    ∃ t, turn .reset writeState = .next t ∧ t.replies = ⟨3, .ok⟩ :: [] := ⟨_, rfl, rfl⟩

/-- The host reads a register. -/
theorem witness_IdleAfterResetUntilACommand :
    ∃ s t : State, s.busy = false ∧ step s = .next t ∧
      ¬ (s.mover = some .host ∧ ∃ a w rest, s.host = .write a w :: rest ∧ a.offset = Reg.cmd.offset) :=
  ⟨{ lutState with host := [.read ⟨4, 0x000⟩] }, _, rfl, rfl, fun ⟨_, _, _, _, h, _⟩ => by cases h⟩

/-- A tie between the codes 1 and 2, and a quotient that overflows. -/
theorem witness_RoundingIsToNearestTiesToEven :
    (0 < 2 ∧ 1 ≤ FpFmt.infCode .binary64 ∧ FpFmt.roundCode .binary64 3 2 < FpFmt.infCode .binary64) ∧
    (0 < 1 ∧ FpFmt.infCode .binary32 ≤ FpFmt.infCode .binary32 ∧
      FpFmt.roundCode .binary32 (2 ^ 1500) 1 = FpFmt.infCode .binary32) := by decide +kernel

/-- 2.5 and -2.5. -/
theorem witness_RoundAndTruncOfFiniteValues :
    F64.isFinite 0x4004000000000000 = true ∧ F64.isFinite 0xC004000000000000 = true := by decide +kernel

theorem witness_NormalizerWidensByMode : (255 : Sample).toNat < 256 ∧ ((12 : Word) ≠ 8 ∧ (12 : Word) ≠ 16) := by
  decide

/-- -3.0, 1.0 and 0.5, one for each case of clamp. -/
theorem witness_ClampAndQuantizeStayInRange :
    (F64.isNaN 0xC008000000000000 = false ∧ F64.le 0xC008000000000000 F64.posZero = true) ∧
    (F64.isNaN F64.one = false ∧ F64.le F64.one F64.one = true ∧ F64.le F64.one F64.posZero = false) ∧
    (F64.le 0x3FE0000000000000 F64.posZero = false ∧ F64.le F64.one 0x3FE0000000000000 = false) ∧
    F64.inUnit F64.one = true := by decide +kernel

theorem witness_PowerEncodeIsQuantizedTimesSixteen :
    validGamma F64.one = true ∧ F64.inUnit F64.posZero = true ∧ F64.inUnit F64.one = true := by decide +kernel

theorem witness_EncodePathsDiverge : validGamma F64.one = true ∧ F64.inUnit F64.one = true := by decide +kernel

theorem witness_GammaStepsAreMonotone :
    validGamma 0x4004CCCCCCCCCCCD = true ∧ validGamma F64.one = true ∧ F64.inUnit 0x3FE0000000000000 = true ∧
    F64.inUnit F64.one = true ∧ F64.le 0x3FE0000000000000 F64.one = true := by decide +kernel

theorem witness_DecodePathsAgreeWhileTablesCurrent : lutState.TablesCurrent ∧ lutState.lutValid = true :=
  ⟨lutState_current, rfl⟩

theorem witness_MatrixKeepsUnitLanesFinite :
    matrixRom .binary32 2 = some (stemMatrix .binary32) ∧ F64.inUnit F64.one = true ∧ F64.inUnit F64.posZero = true := by decide +kernel

/-- -0.0 with two negative others, and with one that is not. -/
theorem witness_IdentityMatrixKeepsFiniteLanes :
    F64.isFinite 0x8000000000000000 = true ∧ F64.isFinite 0xBFF0000000000000 = true ∧
    F64.isFinite 0x0000000000000000 = true ∧ F64.holds .binary32 0x8000000000000000 = true ∧
    F64.holds .binary32 0xBFF0000000000000 = true ∧ F64.holds .binary32 0x0000000000000000 = true ∧
    F64.sign 0xBFF0000000000000 = true ∧
    F64.sign 0x8000000000000000 = true ∧ F64.sign 0x0000000000000000 = false := by decide +kernel

theorem witness_BuildFillsBothTables :
    (validGamma lutState.gi = true ∧ validGamma lutState.go = true ∧
      lutState.TablesCurrent ∧ lutState.lutValid = true) ∧
    (validGamma State.reset.gi = false ∧ State.reset.TablesCurrent) :=
  ⟨⟨one_valid, one_valid, lutState_current, rfl⟩, by decide +kernel, fun h => by cases h⟩

theorem witness_Dec3DecodesTheThreeSamples :
    (lutState.canDecode ∧ lutState.strategy = .lut) ∧ (powerState.canDecode ∧ powerState.strategy = .power) ∧
    (State.reset.strategy = .lut ∧ State.reset.lutValid = false) ∧
    (State.strategy { powerState with gammaIn := ⟨0, 0⟩ } = .power ∧ validGamma (Pair.bits ⟨0, 0⟩) = false) ∧
    (lutState.TablesCurrent ∧ lutState.pixIn.r = 0 ∧
      Lanes.g (State.pixIn { lutState with pixIn := ⟨0, 65535, 0⟩ }) = 65535) :=
  ⟨⟨.inl ⟨rfl, rfl⟩, rfl⟩, ⟨.inr ⟨rfl, one_valid⟩, rfl⟩, ⟨rfl, rfl⟩, ⟨rfl, by decide +kernel⟩,
    lutState_current, rfl, rfl⟩

/-- The lanes after reset give no NaN; an infinite lane under SMPTE gives one. -/
theorem witness_Mat3MultipliesTheOldLanes :
    matrixRom lutState.fpFmt lutState.msel = some (smpteMatrix .binary64) ∧ lutState.msel ≠ 3 ∧
    F64.isNaN (dot3 .binary64 (smpteMatrix .binary64).r lutState.lanes) = false ∧
    F64.isNaN (dot3 .binary64 (smpteMatrix .binary64).b ⟨0x7FF0000000000000, 0, 0⟩) = true ∧
    F64.isNaN (Pair.bits ⟨0xFFFFFFFF, 0xFFFFFFFF⟩) = true ∧
    State.msel { lutState with msel := 3 } = 3 := by decide +kernel

theorem witness_Enc3EncodesTheClampedLanes :
    (lutState.canEncode ∧ lutState.fvHasNaN = false ∧ lutState.strategy = .lut) ∧
    (powerState.canEncode ∧ powerState.fvHasNaN = false ∧ powerState.strategy = .power) ∧
    (State.reset.strategy = .lut ∧ State.reset.lutValid = false) ∧
    (State.strategy { powerState with gammaOut := ⟨0, 0⟩ } = .power ∧ validGamma (Pair.bits ⟨0, 0⟩) = false) ∧
    State.fvHasNaN { lutState with fv := ⟨onePair, ⟨0x7FF80000, 0⟩, onePair⟩ } = true ∧
    (lutState.TablesCurrent ∧ F64.le lutState.lanes.r F64.posZero = true ∧
      F64.le F64.one onePair.bits = true) :=
  ⟨⟨.inl ⟨rfl, rfl⟩, by decide +kernel, rfl⟩, ⟨.inr ⟨rfl, one_valid⟩, by decide +kernel, rfl⟩, ⟨rfl, rfl⟩,
    ⟨rfl, by decide +kernel⟩, by decide +kernel, lutState_current, by decide +kernel, by decide +kernel⟩

theorem witness_PixelConvertsOnePixel :
    (matrixRom lutState.fpFmt lutState.msel = some (smpteMatrix .binary64) ∧ lutState.canDecode ∧ lutState.canEncode ∧
      lutState.strategy = .lut) ∧
    (matrixRom powerState.fpFmt powerState.msel = some (smpteMatrix .binary64) ∧ powerState.canDecode ∧ powerState.canEncode ∧
      powerState.strategy = .power) ∧
    State.msel { lutState with msel := 3 } = 3 ∧
    (powerState.msel ≠ 3 ∧ validGamma (Pair.bits ⟨0, 0⟩) = false) ∧
    (State.reset.msel ≠ 3 ∧ State.reset.strategy = .lut ∧ State.reset.lutValid = false) :=
  ⟨⟨rfl, .inl ⟨rfl, rfl⟩, .inl ⟨rfl, rfl⟩, rfl⟩, ⟨rfl, .inr ⟨rfl, one_valid⟩, .inr ⟨rfl, one_valid⟩, rfl⟩, rfl,
    ⟨by decide, by decide +kernel⟩, by decide, rfl, rfl⟩

theorem witness_PixelEqualsDec3Mat3Enc3 : lutState.TablesCurrent ∧
    matrixRom lutState.fpFmt lutState.msel = some (smpteMatrix .binary64) ∧ lutState.canDecode ∧ lutState.canEncode :=
  ⟨lutState_current, rfl, .inl ⟨rfl, rfl⟩, .inl ⟨rfl, rfl⟩⟩

theorem witness_IdentityLutConversionIsPerChannel :
    lutState.TablesCurrent ∧ lutState.lutValid = true ∧ lutState.strategy = .lut := ⟨lutState_current, rfl, rfl⟩

/-- A command without an error, and one that ends with one. -/
theorem witness_CommandErrorsArePrecise :
    (∃ t, exec .nop lutState = .next t) ∧
    (∃ t, exec .dec3 State.reset = .next t ∧ t.err ≠ .none) := by
  refine ⟨⟨_, rfl⟩, { State.reset with err := .lutNotBuilt }, rfl, ?_⟩
  decide

theorem witness_CommandsChangeOnlyWhatTheyWrite : ∃ t, exec .pixel State.reset = .next t := ⟨_, rfl⟩

theorem witness_InitStepEntersValidating : runState.busy = true ∧ runState.stage = .init := ⟨rfl, rfl⟩

theorem witness_ValidatingReportsTheFirstFailure :
    State.busy { runState with stage := .validating } = true ∧
    State.stage { runState with stage := .validating } = .validating := ⟨rfl, rfl⟩

theorem witness_PreparingOutputDeclaresTheMetadata :
    (metaState.busy = true ∧ metaState.stage = .preparingOutput ∧ metaState.pend = .metaPending) ∧
    State.pend { metaState with pend := .none } = .none ∧
    State.answer { metaState with answer := some .ok } = some .ok ∧
    State.answer { metaState with answer := some .error } = some .error := ⟨⟨rfl, rfl, rfl⟩, rfl, rfl, rfl⟩

theorem witness_ProcessingReadsOrEnds :
    (readState.busy = true ∧ readState.stage = .processing) ∧
    (∃ s : State, s = { readState with pend := .none, rowsDone := 1 } ∧ s.pend = .none ∧ s.rowsDone = s.height) ∧
    (∃ s : State, s = { readState with pend := .none } ∧ s.pend = .none ∧ s.rowsDone.toNat < s.height.toNat) ∧
    (∃ s : State, s = { readState with answer := some .endOfData } ∧ s.pend = .readPending 0 ∧
      s.answer = some .endOfData) :=
  ⟨⟨rfl, rfl⟩, ⟨_, rfl, rfl, rfl⟩, ⟨_, rfl, rfl, by decide⟩, _, rfl, rfl, rfl⟩

theorem witness_ConvertedRowIsPixelByPixel :
    readState.busy = true ∧ readState.stage = .processing ∧ readState.pend = .readPending 0 ∧
    readState.answer = some (.row [1, 2, 3]) ∧ readState.rowShapeOk [1, 2, 3] = true ∧
    (readState.bps = 8 ∨ readState.bps = 16) ∧ 3 ≤ readState.spp.toNat ∧
    matrixRom readState.fpFmt readState.msel = some identityMatrix ∧ 0 < readState.width.toNat :=
  ⟨rfl, rfl, rfl, rfl, by decide, .inr rfl, by decide, rfl, by decide⟩

theorem witness_WriteAnswerCountsOrEnds :
    (writeState.busy = true ∧ writeState.stage = .processing ∧ writeState.pend = .writePending 0) ∧
    State.answer { writeState with answer := some .ok } = some .ok ∧
    State.answer { writeState with answer := some .writeFailed } = some .writeFailed := ⟨⟨rfl, rfl, rfl⟩, rfl, rfl⟩

/-- Idle; waiting for the accessor; with a step. -/
theorem witness_EngineMovesOrWaitsForTheAccessor :
    lutState.busy = false ∧
    (metaState.Inv ∧ metaState.busy = true ∧ metaState.pend ≠ .none ∧ metaState.answer = none) ∧
    (runState.Inv ∧ runState.busy = true ∧ ¬ (runState.pend ≠ .none ∧ runState.answer = none)) :=
  ⟨rfl, ⟨metaState_good, rfl, by decide, rfl⟩, runState_good, rfl, fun h => h.1 rfl⟩

/-- A row of the stated shape to a read, one too short, and a second answer. -/
theorem witness_OnlyAdmittedAnswersReachThePort :
    (∃ s : State, s = { readState with answer := none, replies := [⟨2, .row [1, 2, 3]⟩] } ∧
      s.replies = ⟨s.requests.length, .row [1, 2, 3]⟩ :: [] ∧ s.pend ≠ .none ∧ s.answer = none ∧
      [1, 2, 3].length = s.width.toNat * s.spp.toNat ∧
      ∀ v ∈ ([1, 2, 3] : Row), v.toNat < 2 ^ s.bps.toNat) ∧
    (∃ s : State, s = { readState with answer := none, replies := [⟨2, .row [1]⟩] } ∧
      s.replies = ⟨s.requests.length, .row [1]⟩ :: [] ∧ s.pend ≠ .none ∧ s.answer = none ∧
      [1].length ≠ s.width.toNat * s.spp.toNat) ∧
    (∃ s : State, s = { readState with replies := [⟨2, .endOfData⟩] } ∧
      s.replies = ⟨s.requests.length, .endOfData⟩ :: [] ∧ s.pend ≠ .none ∧ s.answer ≠ none) := by
  exact ⟨⟨_, rfl, rfl, by decide, rfl, rfl, fun v _ => v.isLt⟩, ⟨_, rfl, rfl, by decide, rfl, by decide⟩,
    _, rfl, rfl, by decide, by decide⟩

theorem witness_OkWritesTheConvertedRow : writeState.Inv ∧ writeState.pend = .writePending 0 ∧
    writeState.answer = none ∧ writeState.replies = ⟨writeState.requests.length, .ok⟩ :: [] :=
  ⟨writeState_good, rfl, rfl, rfl⟩

theorem witness_EveryStepKeepsTheInvariant : ∃ s t, State.Inv s ∧ step s = .next t :=
  ⟨runState, _, runState_good, rfl⟩

theorem witness_NothingConfiguredChangesDuringARun :
    runState.busy = true ∧ runState.mover ≠ some .reset ∧ ∃ t, step runState = .next t :=
  ⟨rfl, by decide, _, rfl⟩

/-- The step that issues SetMeta. -/
theorem witness_RequestsGoOutOneAtATimeInOrder :
    ∃ s t, State.Inv s ∧ step s = .next t ∧ s.requests = [] ∧ t.requests = [.setMeta runState.runMetadata] := by
  refine ⟨{ runState with stage := .preparingOutput }, _, ?_, rfl, rfl, rfl⟩
  exact {
    rowsCanonical := rfl
    tablesCurrent := fun h => by cases h
    stageFitsBusy := rfl
    pendFitsStage := trivial
    pendOnlyBusy := fun h => by cases h
    answerFitsPend := trivial
    validated := fun _ => runState_valid
    runCounters := fun _ => ⟨rfl, rfl, rfl⟩
    metaIsDeclared := fun h => by cases h
    writeIsConversion := trivial
    requestsInOrder := fun _ => List.nil_prefix }

/-- The step that writes row 0 leaves row 5. -/
theorem witness_WrittenRowsStayWritten : writeState.Inv ∧ (∃ t, step writeState = .next t) ∧
    ∀ r, writeState.pend = .writePending r → 5 ≠ r.toNat :=
  ⟨writeState_good, ⟨_, rfl⟩, fun r h => by cases h; decide⟩

/-- A run of no row that ends at once, the image being complete. -/
theorem witness_RunsEndInOneOfThreeWays :
    ∃ s t, State.Inv s ∧ s.busy = true ∧ s.mover ≠ some .reset ∧ step s = .next t ∧ t.busy = false := by
  refine ⟨{ metaState with stage := .processing, pend := .none, height := 0 }, _, ?_, rfl, by decide, rfl, rfl⟩
  exact {
    rowsCanonical := rfl
    tablesCurrent := fun h => by cases h
    stageFitsBusy := rfl
    pendFitsStage := trivial
    pendOnlyBusy := fun h => by cases h
    answerFitsPend := trivial
    validated := fun _ => runState_valid
    runCounters := fun _ => ⟨rfl, rfl, by decide⟩
    metaIsDeclared := fun h => by cases h
    writeIsConversion := trivial
    requestsInOrder := fun _ => List.prefix_rfl }

/-- The first two engine turns of a run. -/
theorem witness_RunsTakeBoundedEngineSteps :
    ∃ s : State, s.Inv ∧ s.busy = true ∧ s.stage = .init ∧ s.sched = [.engine] ∧
      Agent.reset ∉ [Agent.engine] ∧
      ∀ k, k ≤ [Agent.engine].length → ∃ t, Host.Core.run Sys2Proof.core k s = .next t ∧ t.busy = true := by
  refine ⟨{ runState with sched := [.engine] }, ⟨runState_good.1, runState_good.2, runState_good.3,
    runState_good.4, runState_good.5, runState_good.6, runState_good.7, runState_good.8, runState_good.9,
    runState_good.10,
    runState_good.11⟩, rfl, rfl, rfl, by decide, fun k hk => ?_⟩
  match k, hk with
  | 0, _ => exact ⟨_, rfl, rfl⟩
  | 1, _ => exact ⟨_, rfl, rfl⟩

/-- Each case: NaN, a sum that is not zero and one that is, division by zero, two infinities, one infinity. -/
theorem witness_FpOperationsRoundTheExactResult :
    F64.isNaN 0x7FF8000000000000 = true ∧
    (F64.isFinite F64.one = true ∧ F64.signedUnits F64.one + F64.signedUnits F64.one ≠ 0 ∧
      F64.units F64.one ≠ 0) ∧
    (F64.isFinite 0xBFF0000000000000 = true ∧ F64.signedUnits F64.one + F64.signedUnits 0xBFF0000000000000 = 0) ∧
    (F64.isFinite F64.posZero = true ∧ F64.units F64.posZero = 0) ∧
    (F64.isInf 0x7FF0000000000000 = true ∧ F64.isInf 0xFFF0000000000000 = true) := by decide +kernel

theorem witness_OkDeclaresTheOutputMetadata :
    ∃ s : State, s = { metaState with replies := [⟨1, .ok⟩] } ∧ s.Inv ∧ s.pend = .metaPending ∧ s.answer = none ∧
      s.replies = ⟨s.requests.length, .ok⟩ :: [] :=
  ⟨_, rfl, ⟨metaState_good.1, metaState_good.2, metaState_good.3, metaState_good.4, metaState_good.5,
    metaState_good.6, metaState_good.7, metaState_good.8, metaState_good.9, metaState_good.10,
    metaState_good.11⟩, rfl, rfl, rfl⟩

end Sys2Proof.Tests
end

section
/-! PROOFS. The register window (10_state R39, R48): offsets that no register has, host writes with the gate closed,
and host reads. -/

namespace Sys2Proof.Machine

/-! ## Offsets that no register has (10_state R39) -/

theorem Reg.ofOffset_eq_none {o : Nat} (h : ∀ r : Reg, r.offset ≠ o) : Reg.ofOffset o = none :=
  Option.eq_none_iff_forall_ne_some.mpr fun r hr => h r (Reg.offset_of_ofOffset hr)

/-- Where the registers lie: up to 0x074, outside the three holes below it (10_state R22). -/
theorem Reg.offset_bounds (r : Reg) :
    r.offset ≤ 0x074 ∧ r.offset ≠ 0x02C ∧ r.offset ≠ 0x04C ∧ r.offset ≠ 0x05C := by
  cases r <;> decide

/-- No register has a reserved offset. -/
theorem Reg.ofOffset_reserved {o : Nat}
    (ho : o = 0x02C ∨ o = 0x04C ∨ o = 0x05C ∨ (0x078 ≤ o ∧ o ≤ 0x0FC ∧ o % 4 = 0)) :
    Reg.ofOffset o = none := by
  refine Reg.ofOffset_eq_none fun r hr => ?_
  obtain ⟨hle, h2C, h4C, h5C⟩ := r.offset_bounds
  omega

theorem State.readAt_of_ofOffset_none {o : Nat} (s : State) (h : Reg.ofOffset o = none) : s.readAt o = 0 := by
  simp [State.readAt, h]

theorem hostWrite_of_ofOffset_none {o : Nat} (w : Word) (s : State) (h : Reg.ofOffset o = none) :
    hostWrite o w s = .next s := by
  simp [hostWrite, h]

/-- Settles O7: no register has a reserved offset, so a read finds 0 and a write finds nothing to change. -/
theorem reservedOffsetsReadZero : Obligations.ReservedOffsetsReadZero := by
  intro s o w ho
  have hnone := Reg.ofOffset_reserved ho
  exact ⟨s.readAt_of_ofOffset_none hnone, hostWrite_of_ofOffset_none w s hnone⟩

/-! ## Host writes with BUSY = 1 (10_state R48) -/

@[simp] theorem hostWrite_offset (r : Reg) (w : Word) (s : State) :
    hostWrite r.offset w s = hostWriteReg r w s := by
  simp [hostWrite]

theorem Reg.ungated_iff (r : Reg) : r.ungated = true ↔ r = .id ∨ r = .status := by
  cases r <;> decide

/-- A gated register: the write is lost, and WIGN says so. -/
theorem hostWriteReg_busy_gated {r : Reg} {s : State} (w : Word) (hb : s.busy = true)
    (hid : r ≠ .id) (hstatus : r ≠ .status) : hostWriteReg r w s = .next { s with wign := true } := by
  simp [hostWriteReg, hb, Reg.ungated_iff, hid, hstatus]

/-- ID and STATUS: the write is lost without WIGN. -/
theorem hostWriteReg_busy_ungated {r : Reg} {s : State} (w : Word) (hb : s.busy = true)
    (hr : r.ungated = true) : hostWriteReg r w s = .next s := by
  simp [hostWriteReg, hb, hr]

/-! ## Host reads (20_memory R55) -/

/-- A read sees the block only, not the lines the host has still to run. -/
theorem State.readAt_setHost (s : State) (host : List HostOp) (o : Nat) :
    State.readAt { s with host := host } o = s.readAt o := rfl

/-- An admitted read line gives the host its value and changes nothing else, whatever BUSY is. -/
theorem hostStep_read {s : State} {a : Access} {rest : List HostOp} (ha : a.wf = true)
    (hhost : s.host = .read a :: rest) :
    hostStep s = .next { s with host := rest, reads := s.readAt a.offset :: s.reads } := by
  simp [hostStep, hhost, ha, State.hostRead, State.readAt_setHost]

/-- Settles O6: the gate of `hostWriteReg` for the registers, no register at a reserved offset, and `hostStep` reads
without asking for BUSY. -/
theorem writesWhileBusyAreIgnored : Obligations.WritesWhileBusyAreIgnored := by
  intro s hb
  refine ⟨fun r w hid hstatus => ?_, fun o w ho => ?_, fun a rest => hostStep_read⟩
  · rw [hostWrite_offset]
    exact hostWriteReg_busy_gated w hb hid hstatus
  · rcases ho with rfl | rfl | hnone
    · rw [hostWrite_offset]
      exact hostWriteReg_busy_ungated w hb rfl
    · rw [hostWrite_offset]
      exact hostWriteReg_busy_ungated w hb rfl
    · exact hostWrite_of_ofOffset_none w s hnone

end Sys2Proof.Machine
end

section
/-! PROOFS. Which accesses have a step (20_memory R52): a host write always has an outcome that is a state, so only the
admission check of `hostStep` can stop an access. -/

namespace Sys2Proof.Machine

/-! ## Admitted accesses (20_memory R52) -/

theorem Access.wf_iff (a : Access) :
    a.wf = true ↔ a.bytes = 4 ∧ a.offset % 4 = 0 ∧ a.offset ≤ 0x0FC := by
  simp [Access.wf, Access.widthOk, Access.aligned, Access.inWindow, and_assoc]

/-- Every word written to CMD has an outcome, a command's or ILLEGAL_COMMAND's (10_state R25, 30_encoding R73). -/
theorem issueCommand_next (w : Word) (s : State) : ∃ t, issueCommand w s = .next t := by
  unfold issueCommand
  split
  · exact exec_next _ s
  · exact ⟨_, rfl⟩

theorem hostWriteReg_next (r : Reg) (w : Word) (s : State) : ∃ t, hostWriteReg r w s = .next t := by
  unfold hostWriteReg
  split_ifs
  · exact ⟨_, rfl⟩
  · exact ⟨_, rfl⟩
  · exact issueCommand_next w s
  · exact ⟨_, rfl⟩

theorem hostWrite_next (o : Nat) (w : Word) (s : State) : ∃ t, hostWrite o w s = .next t := by
  cases hr : Reg.ofOffset o with
  | some r =>
    rw [← Reg.offset_of_ofOffset hr, hostWrite_offset]
    exact hostWriteReg_next r w s
  | none => exact ⟨s, hostWrite_of_ofOffset_none w s hr⟩

/-- An admitted write line is a host write with the line taken off the program. -/
theorem hostStep_write {s : State} {a : Access} {w : Word} {rest : List HostOp} (ha : a.wf = true)
    (hhost : s.host = .write a w :: rest) :
    hostStep s = hostWrite a.offset w { s with host := rest } := by
  simp [hostStep, hhost, ha]

/-- A write or read line whose access is not admitted stops the host (20_memory R52). -/
theorem hostStep_unadmitted {s : State} {a : Access} {w : Word} {rest : List HostOp} (ha : ¬ a.wf = true)
    (hhost : s.host = .write a w :: rest ∨ s.host = .read a :: rest) :
    hostStep s = .fault .unadmittedAccess := by
  rcases hhost with hwrite | hread
  · simp [hostStep, hwrite, ha]
  · simp [hostStep, hread, ha]

/-- Settles O8: `Access.wf` is the condition of R52; past it a write and a read always go through, and without it
`hostStep` faults. -/
theorem onlyAlignedWordAccessesHaveAStep : Obligations.OnlyAlignedWordAccessesHaveAStep := by
  intro s a w rest hhost
  rw [← Access.wf_iff]
  refine ⟨fun ha => ?_, fun ha => hostStep_unadmitted ha hhost⟩
  rcases hhost with hwrite | hread
  · rw [hostStep_write ha hwrite]
    exact hostWrite_next _ w _
  · exact ⟨_, hostStep_read ha hread⟩

end Sys2Proof.Machine
end

section
/-! PROOFS. Decoding and encoding of command words (30_encoding R70, R72, R73): a word is its two fields, an operation
code is its command's, and `decode` is the inverse of `encode` on the well-formed words. -/

namespace Sys2Proof

/-! ## The fields of a word (30_encoding R70) -/

/-- RSV and OPC together are the whole word. -/
@[simp] theorem Cmd32.toWord_ofWord (w : Word) : (Cmd32.ofWord w).toWord = w :=
  (BitVec.extractLsb'_append_extractLsb'_eq_extractLsb' (start₁ := 0) (len₁ := 8) rfl).trans
    BitVec.extractLsb'_eq_self

@[simp] theorem Cmd32.ofWord_toWord (c : Cmd32) : Cmd32.ofWord c.toWord = c :=
  congrArg₂ Cmd32.mk BitVec.extractLsb'_append_eq_left BitVec.extractLsb'_append_eq_right

/-- A command's word is the word whose fields are RSV = 0 and the command's operation code. -/
theorem eq_encode_iff (w : Word) (i : Instr) : w = encode i ↔ Cmd32.ofWord w = ⟨0, i.opc⟩ := by
  constructor
  · rintro rfl
    exact Cmd32.ofWord_toWord _
  · intro hfields
    rw [encode, ← hfields, Cmd32.toWord_ofWord]

theorem Cmd32.rsvZero_iff (c : Cmd32) : c.rsvZero = true ↔ c.rsv = 0 := beq_iff_eq

theorem Cmd32.opcKnown_iff (c : Cmd32) : c.opcKnown = true ↔ c.opc.toNat ≤ 6 := decide_eq_true_iff

theorem Cmd32.wf_iff (c : Cmd32) : c.wf = true ↔ c.rsv = 0 ∧ c.opc.toNat ≤ 6 := by
  rw [Cmd32.wf, Bool.and_eq_true, Cmd32.rsvZero_iff, Cmd32.opcKnown_iff]

theorem Cmd32.wf_ofWord_iff (w : Word) :
    (Cmd32.ofWord w).wf = true ↔ w.extractLsb' 8 24 = 0 ∧ (w.extractLsb' 0 8).toNat ≤ 0x06 := by
  rw [Cmd32.wf_iff, Cmd32.ofWord]

/-! ## The opcode map (30_encoding R72) -/

/-- A row of the opcode map, checked against each of the 256 operation codes. -/
theorem instrOfOpc_eq_some_iff (opc : BitVec 8) (i : Instr) : instrOfOpc opc = some i ↔ opc = i.opc := by
  revert opc
  cases i <;> decide

/-- The operation codes of the map are those up to 0x06. -/
theorem exists_instrOfOpc_iff (opc : BitVec 8) : (∃ i, instrOfOpc opc = some i) ↔ opc.toNat ≤ 6 := by
  rw [← Option.isSome_iff_exists]
  revert opc
  decide

/-! ## Decoding (30_encoding R72, R73) -/

/-- What `decode` accepts, by the fields: RSV = 0 and OPC in the opcode map. -/
theorem decode_eq_ok_iff (w : Word) (i : Instr) :
    decode w = .ok i ↔ (Cmd32.ofWord w).rsv = 0 ∧ instrOfOpc (Cmd32.ofWord w).opc = some i := by
  rw [← Cmd32.rsvZero_iff]
  by_cases hrsv : (Cmd32.ofWord w).rsvZero = true
  · cases hopc : instrOfOpc (Cmd32.ofWord w).opc <;> simp [decode, hrsv, hopc]
  · simp [decode, hrsv]

theorem decode_eq_ok_iff_eq_encode (w : Word) (i : Instr) : decode w = .ok i ↔ w = encode i := by
  rw [decode_eq_ok_iff, instrOfOpc_eq_some_iff, eq_encode_iff, Cmd32.mk.injEq]

/-- The words that spell a command are the well-formed ones. -/
theorem exists_decode_eq_ok_iff_wf (w : Word) : (∃ i, decode w = .ok i) ↔ (Cmd32.ofWord w).wf = true := by
  simp only [decode_eq_ok_iff, exists_and_left, exists_instrOfOpc_iff, Cmd32.wf_iff]

theorem exists_decode_eq_ok_iff (w : Word) :
    (∃ i, decode w = .ok i) ↔ w.extractLsb' 8 24 = 0 ∧ (w.extractLsb' 0 8).toNat ≤ 0x06 :=
  (exists_decode_eq_ok_iff_wf w).trans (Cmd32.wf_ofWord_iff w)

end Sys2Proof
end

section
/-! PROOFS. The opcode map (30_encoding R72), and what a word outside it does when it is written to CMD (30_encoding
R73, 60_exceptions R180). -/

namespace Sys2Proof.Machine

/-- Settles O2: `decode` inverts `encode`, whose seven words are evaluated, and the words it accepts are the well-formed
ones. -/
theorem decodeReadsExactlyTheOpcodeMap : Obligations.DecodeReadsExactlyTheOpcodeMap :=
  ⟨decode_eq_ok_iff_eq_encode, by decide, exists_decode_eq_ok_iff⟩

/-! ## A word that spells no command, written to CMD (30_encoding R73) -/

/-- The start-of-command clear followed by ILLEGAL_COMMAND leaves every field but ERR and WIGN (60_exceptions R184). -/
theorem issueCommand_of_illegal {w : Word} (s : State) (hw : ∀ i, decode w ≠ .ok i) :
    issueCommand w s = .next { s with err := .illegalCommand, wign := false } := by
  cases hdec : decode w with
  | ok i => exact absurd hdec (hw i)
  | error e => simp [issueCommand, hdec, State.raise, State.beginCommand]

/-- With BUSY = 0 a write to CMD issues the word as a command (10_state R25). -/
theorem hostWriteReg_cmd {s : State} (w : Word) (hb : s.busy = false) :
    hostWriteReg .cmd w s = issueCommand w s := by
  simp [hostWriteReg, hb]

/-- Settles O3: such a word is outside what `decode` accepts, so CMD takes the ILLEGAL_COMMAND branch. -/
theorem illegalWordRaisesIllegalCommand : Obligations.IllegalWordRaisesIllegalCommand := by
  intro w hillegal
  have hnone : ∀ i, decode w ≠ .ok i := by
    intro i hi
    obtain ⟨hrsv, hopc⟩ := (exists_decode_eq_ok_iff w).1 ⟨i, hi⟩
    rcases hillegal with hrsv' | hopc'
    · exact hrsv' hrsv
    · omega
  refine ⟨hnone, fun s hb => ?_⟩
  calc hostWrite 0x008 w s = hostWriteReg .cmd w s := hostWrite_offset .cmd w s
    _ = issueCommand w s := hostWriteReg_cmd w hb
    _ = .next { s with err := .illegalCommand, wign := false } := issueCommand_of_illegal s hnone

end Sys2Proof.Machine
end

section
/-! PROOFS. The order of the FP values against +0.0 and 1.0: what a valid gamma is (40_gamma R109), and what clamp makes
of a value (R113). -/

namespace Sys2Proof.Machine

/-! ## The order against +0.0 and 1.0 (00_scope R8) -/

theorem F64.inUnit_posZero : F64.inUnit F64.posZero = true := by decide

theorem F64.inUnit_one : F64.inUnit F64.one = true := by decide

theorem F64.key_pos_iff (x : F64) : 0 < F64.key x ↔ F64.sign x = false ∧ 0 < F64.mag x := by
  unfold F64.key
  cases F64.sign x with
  | false => simp
  | true => simp

theorem F64.le_posZero_iff (x : F64) : F64.le x F64.posZero = true ↔ F64.isNaN x = false ∧ F64.key x ≤ 0 := by
  simp [F64.le, show F64.isNaN F64.posZero = false by decide, show F64.key F64.posZero = 0 by decide]

theorem F64.one_le_iff (x : F64) :
    F64.le F64.one x = true ↔ F64.isNaN x = false ∧ (oneCode : Int) ≤ F64.key x := by
  simp [F64.le, show F64.isNaN F64.one = false by decide, show F64.key F64.one = oneCode by decide]

/-- Between +0.0 and 1.0 in the order is in [+0.0, 1.0] as pattern. -/
theorem F64.inUnit_of_key {x : F64} (h0 : 0 < F64.key x) (h1 : F64.key x ≤ oneCode) : F64.inUnit x = true := by
  have hs := ((F64.key_pos_iff x).1 h0).1
  have hkey : F64.key x = F64.mag x := by simp [F64.key, hs]
  exact (F64.inUnit_iff x).2 ⟨hs, by omega⟩

/-! ## Valid gammas (40_gamma R109) -/

theorem validGamma_iff_key (g : F64) : validGamma g = true ↔ F64.isNaN g = false ∧ 0 < F64.key g := by
  simp [validGamma, F64.lt, show F64.isNaN F64.posZero = false by decide, show F64.key F64.posZero = 0 by decide]

theorem F64.isNaN_eq_false_iff (x : F64) : F64.isNaN x = false ↔ F64.mag x ≤ 0x7FF0000000000000 :=
  decide_eq_false_iff_not.trans Nat.not_lt

theorem F64.sign_eq_false_iff (x : F64) : F64.sign x = false ↔ x.toNat < 2 ^ 63 := by
  simp [F64.sign_eq]

/-- Settles O21: sign and magnitude code of a value above +0.0, put together as its pattern. -/
theorem validGammaIsAPositiveValue : Obligations.ValidGammaIsAPositiveValue := by
  intro g
  rw [validGamma_iff_key, F64.key_pos_iff, F64.isNaN_eq_false_iff, F64.sign_eq_false_iff, F64.mag]
  have hlt := g.isLt
  omega

/-! ## Clamp (40_gamma R113) -/

theorem clamp_of_le_posZero {v : F64} (h : F64.le v F64.posZero = true) : clamp v = F64.posZero := by
  simp [clamp, h]

theorem clamp_of_one_le {v : F64} (h : F64.le F64.one v = true) : clamp v = F64.one := by
  have hle : F64.le v F64.posZero = false := by
    rw [← Bool.not_eq_true, F64.le_posZero_iff]
    have hkey := ((F64.one_le_iff v).1 h).2
    have hone : (0 : Int) < oneCode := by decide
    omega
  simp [clamp, h, hle]

theorem clamp_of_between {v : F64} (h0 : F64.le v F64.posZero = false) (h1 : F64.le F64.one v = false) :
    clamp v = v := by
  simp [clamp, h0, h1]

theorem F64.inUnit_of_between {v : F64} (hv : F64.isNaN v = false) (h0 : F64.le v F64.posZero = false)
    (h1 : F64.le F64.one v = false) : F64.inUnit v = true := by
  rw [← Bool.not_eq_true, F64.le_posZero_iff] at h0
  rw [← Bool.not_eq_true, F64.one_le_iff] at h1
  have hlo : ¬ F64.key v ≤ 0 := fun h => h0 ⟨hv, h⟩
  have hhi : ¬ (oneCode : Int) ≤ F64.key v := fun h => h1 ⟨hv, h⟩
  exact F64.inUnit_of_key (by omega) (by omega)

theorem clamp_inUnit {v : F64} (hv : F64.isNaN v = false) : F64.inUnit (clamp v) = true := by
  cases h0 : F64.le v F64.posZero with
  | true => rw [clamp_of_le_posZero h0]; exact F64.inUnit_posZero
  | false =>
    cases h1 : F64.le F64.one v with
    | true => rw [clamp_of_one_le h1]; exact F64.inUnit_one
    | false => rw [clamp_of_between h0 h1]; exact F64.inUnit_of_between hv h0 h1

end Sys2Proof.Machine
end

section
/-! PROOFS. Re-quantization (40_gamma R106, R114, R116): the integers of the gamma steps fit the words they are stored
in, so that none wraps. -/

namespace Sys2Proof.Machine

/-- An integer from 0 that fits w bits is stored as it is. -/
theorem toNat_ofInt_of_le {w n : Nat} {z : Int} (hn : n < 2 ^ w) (hz : ∃ k : Nat, z = k ∧ k ≤ n) :
    ((BitVec.ofInt w z).toNat : Int) = z := by
  obtain ⟨k, rfl, hk⟩ := hz
  rw [BitVec.ofInt_natCast, BitVec.toNat_ofNat, Nat.mod_eq_of_lt (hk.trans_lt hn)]

/-- `quant24` of a value in [+0.0, 1.0] does not wrap (40_gamma R114). -/
theorem toNat_quant24 (fmt : FpFmt) {c : F64} (hc : F64.inUnit c = true) :
    ((quant24 fmt c).toNat : Int) = roundHalfAway (fmul fmt c (F64.ofNat 16777215)) :=
  toNat_ofInt_of_le (by decide) (round_fmul_scale fmt hc scale_16777215)

/-- Settles O23: the three cases of clamp, and the product's range fits 24 bits. -/
theorem clampAndQuantizeStayInRange : Obligations.ClampAndQuantizeStayInRange :=
  ⟨fun _ hv => ⟨clamp_of_le_posZero, clamp_of_one_le, clamp_of_between, clamp_inUnit hv⟩,
    fun fmt _ => toNat_quant24 fmt⟩

/-- `quant12` of a product with 4095 is at most 4095, by either method (40_gamma R116). -/
theorem quant12_fmul_scale (fmt : FpFmt) (mode : PqMode) {c : F64} (hc : F64.inUnit c = true) :
    ∃ q : Nat, quant12 mode (fmul fmt c (F64.ofNat 4095)) = q ∧ q ≤ 4095 := by
  cases mode with
  | trunc => exact trunc_fmul_scale fmt hc scale_4095
  | round => exact round_fmul_scale fmt hc scale_4095

/-- The Power-path encode by its 12-bit quantization, which times 16 does not wrap (40_gamma R116). -/
theorem toNat_encPow {fmt : FpFmt} {mode : PqMode} {go c : F64} {q : Nat}
    (hq : quant12 mode (fmul fmt (pow fmt c go) (F64.ofNat 4095)) = q) (hle : q ≤ 4095) :
    (encPow fmt mode go c).toNat = q * 16 := by
  have h := toNat_ofInt_of_le (w := 16) (n := 65520) (z := (q : Int) * 16) (by decide)
    ⟨q * 16, by push_cast; rfl, by omega⟩
  rw [encPow, hq]
  exact_mod_cast h

/-- Settles O24: the power is in [+0.0, 1.0], so its 12-bit quantization is at most 4095. -/
theorem powerEncodeIsQuantizedTimesSixteen : Obligations.PowerEncodeIsQuantizedTimesSixteen := by
  intro fmt mode go c hgo hc
  obtain ⟨q, hq, hle⟩ := quant12_fmul_scale fmt mode (pow_inUnit fmt hc hgo)
  refine ⟨q, hle, toNat_encPow hq hle, ?_, ?_⟩
  · rintro rfl
    exact hq.symm
  · rintro rfl
    exact hq.symm

end Sys2Proof.Machine
end

section
/-! PROOFS. The ends of the gamma steps (40_gamma R106, R107, R114 to R116): 0 goes to +0.0 and the largest index to 1.0,
and back. -/

namespace Sys2Proof.Machine

/-! ## Quotients of integers by a scale factor (40_gamma R106, R107) -/

theorem F64.IsScale.units_pos {n : Nat} (hn : F64.IsScale n) (h0 : 0 < n) : 0 < F64.units (F64.ofNat n) := by
  rw [hn.units]
  exact Nat.mul_pos h0 F64.scale_pos

/-- A value with units is not zero. -/
theorem F64.mag_ne_zero_of_units {x : F64} (h : 0 < F64.units x) : F64.mag x ≠ 0 := by
  intro hmag
  rw [F64.units, hmag] at h
  exact absurd h (by decide)

/-- The quotient i / n is in [+0.0, 1.0]. -/
theorem F64.IsScale.fdiv_inUnit {n i : Nat} (hn : F64.IsScale n) (h0 : 0 < n) (fmt : FpFmt) (hi : i ≤ n) :
    F64.inUnit (fdiv fmt (F64.ofNat i) (F64.ofNat n)) = true :=
  have hu := hn.units_pos h0
  fdiv_ofNat_inUnit fmt hi hn.finite (F64.mag_ne_zero_of_units hu) hu

theorem F64.ofNat_zero : F64.ofNat 0 = F64.posZero := by
  rw [F64.ofNat, Nat.zero_mul, F64.roundMag_zero]
  rfl

theorem F64.IsScale.zero_fdiv {n : Nat} (hn : F64.IsScale n) (h0 : 0 < n) (fmt : FpFmt) :
    fdiv fmt (F64.ofNat 0) (F64.ofNat n) = F64.posZero := by
  rw [fdiv_ofNat fmt (Nat.zero_le n) hn.finite (F64.mag_ne_zero_of_units (hn.units_pos h0)), F64.ofNat_zero,
    F64.units_posZero, Nat.zero_mul, F64.roundMag_zero]
  rfl

theorem F64.IsScale.self_fdiv {n : Nat} (hn : F64.IsScale n) (h0 : 0 < n) (fmt : FpFmt) :
    fdiv fmt (F64.ofNat n) (F64.ofNat n) = F64.one := by
  have hu := hn.units_pos h0
  rw [fdiv_ofNat fmt le_rfl hn.finite (F64.mag_ne_zero_of_units hu), Nat.mul_comm, ← F64.unitsOfMag_one,
    F64.roundMag_exact hu (F64.isMag_oneCode fmt)]
  decide

/-! ## Products of the ends with a scale factor, and their integers (40_gamma R104, R105) -/

/-- 1.0 times a scale factor is exact in either format. -/
theorem F64.IsScale.one_fmul {n : Nat} (hn : F64.IsScale n) (fmt : FpFmt) :
    fmul fmt F64.one (F64.ofNat n) = F64.ofNat n :=
  Machine.one_fmul ((F64.holds_iff _ _).2 (.inr (hn.isMag fmt))) hn.nonneg

theorem F64.IsScale.zero_fmul {n : Nat} (hn : F64.IsScale n) (fmt : FpFmt) :
    fmul fmt F64.posZero (F64.ofNat n) = F64.posZero :=
  Machine.zero_fmul fmt hn.nonneg

theorem roundHalfAway_posZero : roundHalfAway F64.posZero = 0 := by
  have hs := F64.scale_pos
  rw [roundHalfAway_of_nonneg (by decide), F64.units_posZero, Nat.mul_zero, Nat.zero_add,
    Nat.div_eq_of_lt (by omega)]
  rfl

theorem truncToInt_posZero : truncToInt F64.posZero = 0 := by
  rw [truncToInt_of_nonneg (by decide), F64.units_posZero, Nat.zero_div]
  rfl

theorem F64.IsScale.roundHalfAway_ofNat {n : Nat} (hn : F64.IsScale n) : roundHalfAway (F64.ofNat n) = n := by
  have hs := F64.scale_pos
  rw [roundHalfAway_of_nonneg hn.nonneg, hn.units, Nat.mul_left_comm, Nat.add_comm,
    Nat.add_mul_div_right _ _ (by omega), Nat.div_eq_of_lt (by omega), Nat.zero_add]

theorem F64.IsScale.truncToInt_ofNat {n : Nat} (hn : F64.IsScale n) : truncToInt (F64.ofNat n) = n := by
  rw [truncToInt_of_nonneg hn.nonneg, hn.units, Nat.mul_div_cancel _ F64.scale_pos]

/-! ## Decode entries (40_gamma R107) -/

theorem decodeEntry_zero (fmt : FpFmt) {gi : F64} (hgi : validGamma gi = true) :
    decodeEntry fmt gi 0 = F64.posZero := by
  rw [decodeEntry, scale_65535.zero_fdiv (by decide), pow_zero_base fmt hgi]

theorem decodeEntry_last (fmt : FpFmt) {gi : F64} (hgi : validGamma gi = true) :
    decodeEntry fmt gi 65535 = F64.one := by
  rw [decodeEntry, scale_65535.self_fdiv (by decide), pow_one_base fmt hgi]

/-- A decode entry is a value of the format. -/
theorem decodeEntry_holds (fmt : FpFmt) {gi : F64} {i : Nat} (hgi : validGamma gi = true) (hi : i ≤ 65535) :
    F64.holds fmt (decodeEntry fmt gi i) = true :=
  pow_holds (scale_65535.fdiv_inUnit (by decide) fmt hi) (F64.holds_fdiv _ _ _) hgi

/-! ## Encode entries (40_gamma R106) -/

/-- The entry at an index of the table does not wrap. -/
theorem toNat_encodeEntry (fmt : FpFmt) {go : F64} {i : Nat} (hgo : validGamma go = true) (hi : i ≤ 16777215) :
    ((encodeEntry fmt go i).toNat : Int) =
      roundHalfAway (fmul fmt (pow fmt (fdiv fmt (F64.ofNat i) (F64.ofNat 16777215)) go) (F64.ofNat 65535)) :=
  have hquot := scale_16777215.fdiv_inUnit (by decide) fmt hi
  toNat_ofInt_of_le (by decide) (round_fmul_scale fmt (pow_inUnit fmt hquot hgo) scale_65535)

theorem encodeEntry_zero (fmt : FpFmt) {go : F64} (hgo : validGamma go = true) : encodeEntry fmt go 0 = 0 := by
  rw [encodeEntry, scale_16777215.zero_fdiv (by decide), pow_zero_base fmt hgo, scale_65535.zero_fmul,
    roundHalfAway_posZero]
  rfl

theorem encodeEntry_last (fmt : FpFmt) {go : F64} (hgo : validGamma go = true) :
    encodeEntry fmt go 16777215 = 65535 := by
  rw [encodeEntry, scale_16777215.self_fdiv (by decide), pow_one_base fmt hgo, scale_65535.one_fmul,
    scale_65535.roundHalfAway_ofNat]
  rfl

/-! ## Encoding the ends (40_gamma R114 to R116) -/

theorem quant24_posZero (fmt : FpFmt) : quant24 fmt F64.posZero = 0 := by
  rw [quant24, scale_16777215.zero_fmul, roundHalfAway_posZero]
  rfl

theorem quant24_one (fmt : FpFmt) : quant24 fmt F64.one = 16777215 := by
  rw [quant24, scale_16777215.one_fmul, scale_16777215.roundHalfAway_ofNat]
  rfl

theorem encLut_buildElut_posZero (fmt : FpFmt) {go : F64} (hgo : validGamma go = true) :
    encLut fmt (buildElut fmt go) F64.posZero = 0 := by
  rw [encLut, quant24_posZero, read_buildElut fmt go (by decide)]
  exact encodeEntry_zero fmt hgo

theorem encLut_buildElut_one (fmt : FpFmt) {go : F64} (hgo : validGamma go = true) :
    encLut fmt (buildElut fmt go) F64.one = 65535 := by
  rw [encLut, quant24_one, read_buildElut fmt go (by decide)]
  exact encodeEntry_last fmt hgo

theorem quant12_posZero (mode : PqMode) : quant12 mode F64.posZero = 0 := by
  cases mode with
  | trunc => exact truncToInt_posZero
  | round => exact roundHalfAway_posZero

theorem quant12_ofNat {n : Nat} (mode : PqMode) (hn : F64.IsScale n) : quant12 mode (F64.ofNat n) = n := by
  cases mode with
  | trunc => exact hn.truncToInt_ofNat
  | round => exact hn.roundHalfAway_ofNat

theorem encPow_posZero (fmt : FpFmt) (mode : PqMode) {go : F64} (hgo : validGamma go = true) :
    encPow fmt mode go F64.posZero = 0 := by
  rw [encPow, pow_zero_base fmt hgo, scale_4095.zero_fmul, quant12_posZero]
  rfl

theorem encPow_one (fmt : FpFmt) (mode : PqMode) {go : F64} (hgo : validGamma go = true) :
    encPow fmt mode go F64.one = 65520 := by
  rw [encPow, pow_one_base fmt hgo, scale_4095.one_fmul, quant12_ofNat mode scale_4095]
  rfl

end Sys2Proof.Machine
end

section
/-! PROOFS. BUILD, DEC3 and ENC3 (40_gamma R108, R112, R118): for each command what it answers when its checks pass and
for each error, then its statement. -/

namespace Sys2Proof.Machine

/-! ## BUILD (40_gamma R108) -/

theorem exec_build_of_valid {s : State} (hgi : validGamma s.gi = true) (hgo : validGamma s.go = true) :
    exec .build s = .next { s with
      err := .none, wign := false, lutValid := true
      dlut := buildDlut s.fpFmt s.gi, elut := buildElut s.fpFmt s.go } :=
  runCommand_of_ok (by simp [buildBody, hgi, hgo])

theorem exec_build_of_invalid {s : State} (h : validGamma s.gi = false ∨ validGamma s.go = false) :
    exec .build s = .next { s with err := .invalidGamma, wign := false } := by
  have hbody : buildBody s.beginCommand = .error .invalidGamma := by
    rcases h with hgi | hgo
    · simp [buildBody, hgi]
    · simp [buildBody, hgo]
  exact runCommand_of_error hbody

/-- Current tables with LUT_VALID = 1 need both gammas valid (10_state R42). -/
theorem State.TablesCurrent.lutValid_of_invalid {s : State} (hcur : s.TablesCurrent)
    (h : validGamma s.gi = false ∨ validGamma s.go = false) : s.lutValid = false := by
  rw [← Bool.not_eq_true]
  intro hlut
  obtain ⟨hgi, hgo, -, -⟩ := hcur hlut
  rcases h with hgi' | hgo'
  · exact absurd hgi (by simp [hgi'])
  · exact absurd hgo (by simp [hgo'])

/-- Settles O32: BUILD's two answers, and the entries and the ends of the tables it leaves. -/
theorem buildFillsBothTables : Obligations.BuildFillsBothTables := by
  refine ⟨by decide, fun s => ⟨fun hgi hgo => ?_, fun hinvalid => ?_⟩⟩
  · refine ⟨_, exec_build_of_valid hgi hgo, rfl, fun i hi => ?_, fun i hi => ?_, ?_, ?_, ?_, ?_,
      fun hcur hlut => ?_⟩
    · exact read_buildDlut _ _ (by omega)
    · rw [read_buildElut _ _ (by omega)]
      exact toNat_encodeEntry _ hgo hi
    · exact (read_buildDlut _ _ (by decide)).trans (decodeEntry_zero _ hgi)
    · exact (read_buildDlut _ _ (by decide)).trans (decodeEntry_last _ hgi)
    · exact (read_buildElut _ _ (by decide)).trans (encodeEntry_zero _ hgo)
    · exact (read_buildElut _ _ (by decide)).trans (encodeEntry_last _ hgo)
    · obtain ⟨-, -, hdlut, helut⟩ := hcur hlut
      exact ⟨hdlut.symm, helut.symm⟩
  · exact ⟨exec_build_of_invalid hinvalid, fun hcur => hcur.lutValid_of_invalid hinvalid⟩

/-! ## DEC3 (40_gamma R110, R112) -/

theorem State.decodeSample_lut {s : State} (h : s.strategy = .lut) (x : Sample) :
    s.decodeSample x = s.dlut.read dlutBits x.toNat := by
  rw [State.decodeSample, h]

theorem State.decodeSample_power {s : State} (h : s.strategy = .power) (x : Sample) :
    s.decodeSample x = decodeEntry s.fpFmt s.gi x.toNat := by
  rw [State.decodeSample, h]

/-- With current tables both paths decode with a valid gammaIn, by the entry of R107 (40_gamma R110, R111). -/
theorem State.decodeSample_of_current {s : State} (hdec : s.canDecode) (hcur : s.TablesCurrent) :
    validGamma s.gi = true ∧ ∀ x, s.decodeSample x = decodeEntry s.fpFmt s.gi x.toNat := by
  rcases hdec with ⟨hs, hlut⟩ | ⟨hs, hgi⟩
  · obtain ⟨hgi, -, hdlut, -⟩ := hcur hlut
    exact ⟨hgi, fun x => by rw [State.decodeSample_lut hs, hdlut, read_buildDlut _ _ x.isLt]⟩
  · exact ⟨hgi, State.decodeSample_power hs⟩

theorem dec3Body_of_canDecode {s : State} (h : s.canDecode) :
    dec3Body s = .ok { s with fv := (s.pixIn.map s.decodeSample).map Pair.ofF64 } := by
  rcases h with ⟨hs, hlut⟩ | ⟨hs, hgi⟩
  · simp [dec3Body, hs, hlut]
  · simp [dec3Body, hs, hgi]

theorem exec_dec3_of_canDecode {s : State} (h : s.canDecode) :
    exec .dec3 s = .next { s with
      err := .none, wign := false, fv := (s.pixIn.map s.decodeSample).map Pair.ofF64 } :=
  runCommand_of_ok (dec3Body_of_canDecode (s := s.beginCommand) h)

theorem exec_dec3_lutNotBuilt {s : State} (hs : s.strategy = .lut) (hlut : s.lutValid = false) :
    exec .dec3 s = .next { s with err := .lutNotBuilt, wign := false } :=
  runCommand_of_error (by simp [dec3Body, hs, hlut])

theorem exec_dec3_invalidGamma {s : State} (hs : s.strategy = .power) (hgi : validGamma s.gi = false) :
    exec .dec3 s = .next { s with err := .invalidGamma, wign := false } :=
  runCommand_of_error (by simp [dec3Body, hs, hgi])

/-- The lanes that DEC3 writes read back as the decode entries of the samples. -/
theorem f64_ofF64_decodeEntry (fmt : FpFmt) {gi : F64} (hgi : validGamma gi = true) (x : Sample) :
    (Pair.ofF64 (decodeEntry fmt gi x.toNat)).f64 fmt = decodeEntry fmt gi x.toNat :=
  Pair.f64_ofF64 (decodeEntry_holds fmt hgi (Nat.le_of_lt_succ x.isLt))

/-- A lane of a map, paired with the lane it comes from. -/
theorem Lanes.snd_eq_of_mem_pairs {α β : Type} (f : α → β) (v : Lanes α) {p : α × β}
    (hp : p ∈ [(v.r, f v.r), (v.g, f v.g), (v.b, f v.b)]) : p.2 = f p.1 := by
  simp only [List.mem_cons, List.not_mem_nil, or_false] at hp
  rcases hp with rfl | rfl | rfl
  · rfl
  · rfl
  · rfl

/-- Settles O33: DEC3's three answers, the lanes by path, and the ends by the entries they have in common. -/
theorem dec3DecodesTheThreeSamples : Obligations.Dec3DecodesTheThreeSamples := by
  refine ⟨by decide, fun s => ⟨fun hdec => ?_, exec_dec3_lutNotBuilt, exec_dec3_invalidGamma⟩⟩
  refine ⟨_, exec_dec3_of_canDecode hdec, rfl, fun hs => ?_, fun hs => ?_, fun hcur p hp => ?_⟩
  · have hbits (x : Sample) : (Pair.ofF64 (s.decodeSample x)).bits = s.dlut.read dlutBits x.toNat :=
      (Pair.bits_ofF64 _).trans (State.decodeSample_lut hs x)
    exact ⟨hbits _, hbits _, hbits _⟩
  · have hgi : validGamma s.gi = true := by simpa [State.canDecode, hs] using hdec
    have hlane (x : Sample) : (Pair.ofF64 (s.decodeSample x)).f64 s.fpFmt = decodeEntry s.fpFmt s.gi x.toNat := by
      rw [State.decodeSample_power hs, f64_ofF64_decodeEntry s.fpFmt hgi]
    exact ⟨hlane _, hlane _, hlane _⟩
  · obtain ⟨hgi, hentry⟩ := State.decodeSample_of_current hdec hcur
    have hp2 : p.2 = decodeEntry s.fpFmt s.gi p.1.toNat := by
      rw [Lanes.snd_eq_of_mem_pairs (fun x => (Pair.ofF64 (s.decodeSample x)).f64 s.fpFmt) s.pixIn hp, hentry,
        f64_ofF64_decodeEntry s.fpFmt hgi]
    constructor
    · intro h0
      rw [hp2, h0]
      exact decodeEntry_zero s.fpFmt hgi
    · intro h1
      rw [hp2, h1]
      exact decodeEntry_last s.fpFmt hgi

/-! ## ENC3 (40_gamma R117, R118) -/

theorem State.encodeValue_lut {s : State} (h : s.strategy = .lut) (c : F64) :
    s.encodeValue c = encLut s.fpFmt s.elut c := by
  rw [State.encodeValue, h]

theorem State.encodeValue_power {s : State} (h : s.strategy = .power) (c : F64) :
    s.encodeValue c = encPow s.fpFmt Config.pqMode s.go c := by
  rw [State.encodeValue, h]

theorem State.encodeValue_posZero {s : State} (henc : s.canEncode) (hcur : s.TablesCurrent) :
    s.encodeValue F64.posZero = 0 := by
  rcases henc with ⟨hs, hlut⟩ | ⟨hs, hgo⟩
  · obtain ⟨-, hgo, -, helut⟩ := hcur hlut
    rw [State.encodeValue_lut hs, helut, encLut_buildElut_posZero _ hgo]
  · rw [State.encodeValue_power hs, encPow_posZero _ _ hgo]

/-- 1.0 encodes as 65535 on the LUT path, as 65520 on the Power path (40_gamma R119). -/
theorem State.encodeValue_one {s : State} (henc : s.canEncode) (hcur : s.TablesCurrent) :
    (s.strategy = .lut ∧ s.encodeValue F64.one = 65535) ∨
      (s.strategy = .power ∧ s.encodeValue F64.one = 65520) := by
  rcases henc with ⟨hs, hlut⟩ | ⟨hs, hgo⟩
  · obtain ⟨-, hgo, -, helut⟩ := hcur hlut
    exact .inl ⟨hs, by rw [State.encodeValue_lut hs, helut, encLut_buildElut_one _ hgo]⟩
  · exact .inr ⟨hs, by rw [State.encodeValue_power hs, encPow_one _ _ hgo]⟩

@[simp] theorem beginCommand_fvHasNaN (s : State) : s.beginCommand.fvHasNaN = s.fvHasNaN := rfl

/-- Past the strategy's own check the body of ENC3 turns on a NaN lane alone. -/
theorem enc3Body_of_canEncode {s : State} (h : s.canEncode) :
    enc3Body s = if s.fvHasNaN then .error .nanOperand
      else .ok { s with pixOut := s.lanes.map fun v => s.encodeValue (clamp v) } := by
  rcases h with ⟨hs, hlut⟩ | ⟨hs, hgo⟩
  · simp [enc3Body, hs, hlut]
  · simp [enc3Body, hs, hgo]

theorem exec_enc3_of_canEncode {s : State} (h : s.canEncode) (hnan : s.fvHasNaN = false) :
    exec .enc3 s = .next { s with
      err := .none, wign := false, pixOut := s.lanes.map fun v => s.encodeValue (clamp v) } :=
  runCommand_of_ok ((enc3Body_of_canEncode (s := s.beginCommand) h).trans (by simp [hnan]))

theorem exec_enc3_nanOperand {s : State} (h : s.canEncode) (hnan : s.fvHasNaN = true) :
    exec .enc3 s = .next { s with err := .nanOperand, wign := false } :=
  runCommand_of_error ((enc3Body_of_canEncode (s := s.beginCommand) h).trans (by simp [hnan]))

theorem exec_enc3_lutNotBuilt {s : State} (hs : s.strategy = .lut) (hlut : s.lutValid = false) :
    exec .enc3 s = .next { s with err := .lutNotBuilt, wign := false } :=
  runCommand_of_error (by simp [enc3Body, hs, hlut])

theorem exec_enc3_invalidGamma {s : State} (hs : s.strategy = .power) (hgo : validGamma s.go = false) :
    exec .enc3 s = .next { s with err := .invalidGamma, wign := false } :=
  runCommand_of_error (by simp [enc3Body, hs, hgo])

/-- Settles O35: ENC3's four answers, each lane the encoding of its clamped value, and the ends by clamp. -/
theorem enc3EncodesTheClampedLanes : Obligations.Enc3EncodesTheClampedLanes := by
  refine ⟨by decide, fun s => ⟨fun henc hnan => ?_, exec_enc3_lutNotBuilt, exec_enc3_invalidGamma,
    exec_enc3_nanOperand⟩⟩
  refine ⟨_, exec_enc3_of_canEncode henc hnan, rfl, fun p hp => ?_⟩
  have hp2 : p.2 = s.encodeValue (clamp p.1) :=
    Lanes.snd_eq_of_mem_pairs (fun v => s.encodeValue (clamp v)) s.lanes hp
  rw [hp2]
  refine ⟨fun hs => State.encodeValue_lut hs _, fun hs => State.encodeValue_power hs _, fun hcur hle => ?_,
    fun hcur hle => ?_⟩
  · rw [clamp_of_le_posZero hle]
    exact State.encodeValue_posZero henc hcur
  · rw [clamp_of_one_le hle]
    rcases State.encodeValue_one henc hcur with ⟨hs, hone⟩ | ⟨hs, hone⟩
    · rw [hs]
      exact hone
    · rw [hs]
      exact hone

end Sys2Proof.Machine
end

section
/-! PROOFS. MAT3 (41_matrix R131, R132): a NaN goes through each operation, so a NaN lane reaches every result; a result
written to FV reads back as itself, or as some NaN; then what MAT3 answers, and its statement. -/

namespace Sys2Proof.Machine

/-! ## NaN (00_scope R8) -/

/-- A NaN by its fields: the exponent field full and a fraction that is not zero. -/
theorem F64.isNaN_iff_fields (x : F64) :
    F64.isNaN x = true ↔ x.extractLsb' 52 11 = BitVec.allOnes 11 ∧ x.extractLsb' 0 52 ≠ 0#52 := by
  have hmag : F64.mag x = x.toNat % 2 ^ 52 + 2 ^ 52 * (x.toNat / 2 ^ 52 % 2 ^ 11) :=
    Nat.mod_mul (a := 2 ^ 52) (b := 2 ^ 11)
  simp only [F64.isNaN, F64.infMag, hmag, decide_eq_true_eq, ne_eq, ← BitVec.toNat_inj, BitVec.extractLsb'_toNat,
    BitVec.toNat_allOnes, BitVec.toNat_ofNat, Nat.shiftRight_eq_div_pow]
  omega

/-- Filling the exponent field makes a NaN of every pattern with a fraction. -/
theorem F64.isNaN_or_exponent {x : F64} (h : x.extractLsb' 0 52 ≠ 0#52) :
    F64.isNaN (x ||| 0x7FF0000000000000) = true := by
  rw [F64.isNaN_iff_fields, BitVec.extractLsb'_or, BitVec.extractLsb'_or]
  exact ⟨BitVec.or_allOnes, by simpa using h⟩

/-- Whatever bits are drawn, the pattern made of them is a NaN (log 5). -/
theorem F64.isNaN_anyNaN (bits : F64) : F64.isNaN (F64.anyNaN bits) = true := by
  rw [F64.anyNaN]
  split_ifs with hfrac
  · rw [BitVec.or_assoc, BitVec.or_comm 0x7FF0000000000000, ← BitVec.or_assoc]
    exact F64.isNaN_or_exponent (by simp [BitVec.extractLsb'_or])
  · exact F64.isNaN_or_exponent hfrac

theorem F64.isNaN_nan : F64.isNaN F64.nan = true := by decide

theorem isNaN_fmul {fmt : FpFmt} {a b : F64} (h : F64.isNaN a = true ∨ F64.isNaN b = true) :
    F64.isNaN (fmul fmt a b) = true := by
  rw [fmul, if_pos (Bool.or_eq_true_iff.mpr h), F64.isNaN_nan]

theorem isNaN_fadd {fmt : FpFmt} {a b : F64} (h : F64.isNaN a = true ∨ F64.isNaN b = true) :
    F64.isNaN (fadd fmt a b) = true := by
  rw [fadd, if_pos (Bool.or_eq_true_iff.mpr h), F64.isNaN_nan]

/-! ## The results and how they are written (41_matrix R131, R132) -/

/-- A NaN in any lane makes the lane's product, and with it the sum, a NaN (41_matrix R132). -/
theorem isNaN_dot3 {fmt : FpFmt} {row v : Lanes F64}
    (h : F64.isNaN v.r = true ∨ F64.isNaN v.g = true ∨ F64.isNaN v.b = true) :
    F64.isNaN (dot3 fmt row v) = true := by
  rcases h with hr | hg | hb
  · exact isNaN_fadd (.inl (isNaN_fadd (.inl (isNaN_fmul (.inr hr)))))
  · exact isNaN_fadd (.inl (isNaN_fadd (.inr (isNaN_fmul (.inr hg)))))
  · exact isNaN_fadd (.inr (isNaN_fmul (.inr hb)))

theorem holds_dot3 (fmt : FpFmt) (row v : Lanes F64) : F64.holds fmt (dot3 fmt row v) = true :=
  F64.holds_fadd fmt _ _

theorem settleNaN_of_not_isNaN {bits x : F64} (h : F64.isNaN x = false) : settleNaN bits x = x := by
  simp [settleNaN, h]

theorem settleNaN_of_isNaN {bits x : F64} (h : F64.isNaN x = true) : settleNaN bits x = F64.anyNaN bits := by
  simp [settleNaN, h]

/-- Settling changes the payload of a NaN only: what is a NaN stays one, and nothing else becomes one. -/
theorem isNaN_settleNaN (bits x : F64) : F64.isNaN (settleNaN bits x) = F64.isNaN x := by
  cases h : F64.isNaN x with
  | false => rw [settleNaN_of_not_isNaN h, h]
  | true => rw [settleNaN_of_isNaN h, F64.isNaN_anyNaN]

theorem holds_settleNaN {fmt : FpFmt} {x : F64} (bits : F64) (h : F64.holds fmt x = true) :
    F64.holds fmt (settleNaN bits x) = true := by
  cases hn : F64.isNaN x with
  | false => rwa [settleNaN_of_not_isNaN hn]
  | true => exact F64.holds_nan fmt ((isNaN_settleNaN bits x).trans hn)

/-- The lane that a written result reads back as: the settled result (10_state R47). -/
theorem f64_ofF64_settleNaN_dot3 (fmt : FpFmt) (bits : F64) (row v : Lanes F64) :
    (Pair.ofF64 (settleNaN bits (dot3 fmt row v))).f64 fmt = settleNaN bits (dot3 fmt row v) :=
  Pair.f64_ofF64 (holds_settleNaN bits (holds_dot3 fmt row v))

/-! ## MAT3 (41_matrix R130, R132) -/

/-- MSEL = 3, and it alone, selects no matrix. -/
theorem matrixRom_eq_none_iff (fmt : FpFmt) (msel : BitVec 2) : matrixRom fmt msel = none ↔ msel = 3 := by
  have hcases : ∀ x : BitVec 2, (x ≠ 0 ∧ x ≠ 1 ∧ x ≠ 2) ↔ x = 3 := by decide
  rw [← hcases]
  simp [matrixRom, ite_eq_iff]

/-- The state that MAT3 leaves with the matrix m selected: the settled results of the old lanes in FV. -/
def State.afterMat3 (s : State) (m : Matrix3) : State :=
  { s with
    err := .none, wign := false, draws := s.draws + 1
    fv := (settleLanes s.draws (applyMatrix s.fpFmt m s.lanes)).map Pair.ofF64 }

theorem mat3Body_of_matrix {s : State} {m : Matrix3} (hm : matrixRom s.fpFmt s.msel = some m) :
    mat3Body s = .ok { s with
      fv := (settleLanes s.draws (applyMatrix s.fpFmt m s.lanes)).map Pair.ofF64
      draws := s.draws + 1 } := by
  simp [mat3Body, hm]

theorem exec_mat3_of_matrix {s : State} {m : Matrix3} (hm : matrixRom s.fpFmt s.msel = some m) :
    exec .mat3 s = .next (s.afterMat3 m) :=
  runCommand_of_ok (mat3Body_of_matrix (s := s.beginCommand) hm)

theorem exec_mat3_badMatrix {s : State} (h : s.msel = 3) :
    exec .mat3 s = .next { s with err := .badMatrix, wign := false } :=
  runCommand_of_error (by simp [mat3Body, (matrixRom_eq_none_iff _ _).mpr h])

/-- Each lane after MAT3, paired with its row of the matrix, is the settled result of the row and the old lanes. -/
theorem State.mem_rows_afterMat3 {s : State} {m : Matrix3} {p : Lanes F64 × F64}
    (hp : p ∈ [(m.r, (s.afterMat3 m).lanes.r), (m.g, (s.afterMat3 m).lanes.g), (m.b, (s.afterMat3 m).lanes.b)]) :
    ∃ bits, p.2 = settleNaN bits (dot3 s.fpFmt p.1 s.lanes) := by
  simp only [List.mem_cons, List.not_mem_nil, or_false] at hp
  rcases hp with rfl | rfl | rfl
  · exact ⟨_, f64_ofF64_settleNaN_dot3 _ _ _ _⟩
  · exact ⟨_, f64_ofF64_settleNaN_dot3 _ _ _ _⟩
  · exact ⟨_, f64_ofF64_settleNaN_dot3 _ _ _ _⟩

/-- Settles O34: MAT3's two answers, each lane the settled result of its row, and a NaN through every row. -/
theorem mat3MultipliesTheOldLanes : Obligations.Mat3MultipliesTheOldLanes := by
  refine ⟨by decide, fun s => ⟨fun m hm => ?_, exec_mat3_badMatrix, fun hmsel => ?_⟩⟩
  · refine ⟨_, exec_mat3_of_matrix hm, rfl, fun p hp => ?_⟩
    obtain ⟨bits, hp2⟩ := State.mem_rows_afterMat3 hp
    have hnan : F64.isNaN p.2 = F64.isNaN (dot3 s.fpFmt p.1 s.lanes) := hp2 ▸ isNaN_settleNaN bits _
    exact ⟨fun hnum => hp2.trans (settleNaN_of_not_isNaN hnum), hnan.trans,
      fun hlane => hnan.trans (isNaN_dot3 hlane)⟩
  · exact Option.ne_none_iff_exists'.mp (mt (matrixRom_eq_none_iff _ _).mp hmsel)

end Sys2Proof.Machine
end

section
/-! PROOFS. The engine's turn (42_pipeline R145 to R151, R153, R154, R157): it takes the step whose guard holds, so each
statement about a stage is the guard of its step; Validating by the first check that fails. -/

namespace Sys2Proof.Machine

/-! ## A step whose guard holds is taken (42_pipeline R157) -/

/-- The converse of `engineStep_cases`. -/
theorem engineStep_of_case {s t : State} (hb : s.busy = true) (h : EngineCase s t) : engineStep s = some t := by
  cases h with
  | init hs => simp [engineStep, hb, hs]
  | validating hs => simp [engineStep, hb, hs]
  | issueMeta hs hp => simp [engineStep, hb, hs, State.preparingStep, hp]
  | metaOk hs hp ha => simp [engineStep, hb, hs, State.preparingStep, hp, ha]
  | metaError hs hp ha => simp [engineStep, hb, hs, State.preparingStep, hp, ha]
  | endOfImage hs hp hend => simp [engineStep, hb, hs, State.processingStep, hp, State.nextRowStep, hend]
  | readRow hs hp hlt =>
    have hne : s.rowsDone ≠ s.height := fun heq => by simp [heq] at hlt
    simp [engineStep, hb, hs, State.processingStep, hp, State.nextRowStep, hne, hlt]
  | truncated r hs hp ha => simp [engineStep, hb, hs, State.processingStep, hp, ha]
  | convertRow r x hs hp ha => simp [engineStep, hb, hs, State.processingStep, hp, ha]
  | rowWritten r hs hp ha => simp [engineStep, hb, hs, State.processingStep, hp, ha]
  | writeFailed r hs hp ha => simp [engineStep, hb, hs, State.processingStep, hp, ha]

theorem turn_engine_of_some {s t : State} (h : engineStep s = some t) : turn .engine s = .next t := by
  simp [turn, h]

theorem turn_engine_of_case {s t : State} (hb : s.busy = true) (h : EngineCase s t) : turn .engine s = .next t :=
  turn_engine_of_some (engineStep_of_case hb h)

/-! ## Init and Validating (42_pipeline R145, R146) -/

/-- Settles O42: the Init step. -/
theorem initStepEntersValidating : Obligations.InitStepEntersValidating :=
  fun _ hb hs => turn_engine_of_case hb (.init hs)

/-- What the checks lead to, from the first check on: x if all pass, f of the code of the first that fails. -/
theorem elim_firstFailure_cons {α : Type} (x : α) (f : ErrCode → α) (passes : Bool) (code : ErrCode)
    (rest : List (Bool × ErrCode)) :
    (firstFailure ((passes, code) :: rest)).elim x f =
      if passes = false then f code else (firstFailure rest).elim x f := by
  cases passes with
  | false => rfl
  | true => rfl

theorem stepValidating_eq_elim (s : State) :
    stepValidating s = (firstFailure s.validationChecks).elim { s with stage := .preparingOutput } (s.raise .run) := by
  rw [stepValidating]
  cases firstFailure s.validationChecks with
  | none => rfl
  | some code => rfl

/-- Settles O43: the seven checks one after the other, each failing on its condition. -/
theorem validatingReportsTheFirstFailure : Obligations.ValidatingReportsTheFirstFailure := by
  intro s hb hs failed
  have hbps : (s.bps == 8 || s.bps == 16) = false ↔ ¬ (s.bps = 8 ∨ s.bps = 16) := by simp
  have hspp : decide (3 ≤ s.spp.toNat) = false ↔ s.spp.toNat < 3 := by simp
  have hmsel : (s.msel != 3) = false ↔ s.msel = 3 := by simp
  have hgamma : (validGamma s.gi && validGamma s.go) = false ↔ validGamma s.gi = false ∨ validGamma s.go = false :=
    Bool.and_eq_false_iff
  have hlut : (s.strategy == .power || s.lutValid) = false ↔ s.strategy = .lut ∧ s.lutValid = false := by
    cases s.strategy with
    | lut => simp
    | power => simp
  rw [turn_engine_of_case hb (.validating hs), stepValidating_eq_elim]
  simp only [State.validationChecks, elim_firstFailure_cons, hbps, hspp, hmsel, hgamma, hlut]
  rfl

/-! ## PreparingOutput (42_pipeline R147, R148) -/

/-- Settles O44: the issue and the two answers, each under its guard. -/
theorem preparingOutputDeclaresTheMetadata : Obligations.PreparingOutputDeclaresTheMetadata := fun _ hb hs =>
  ⟨fun hp => turn_engine_of_case hb (.issueMeta hs hp),
   fun hp ha => turn_engine_of_case hb (.metaOk hs hp ha),
   fun hp ha => turn_engine_of_case hb (.metaError hs hp ha)⟩

/-! ## Processing (42_pipeline R149 to R151, R153, R154) -/

/-- Settles O45: the end of the image, the next read and the truncated read, each under its guard. -/
theorem processingReadsOrEnds : Obligations.ProcessingReadsOrEnds := fun _ hb hs =>
  ⟨fun hp hend => turn_engine_of_case hb (.endOfImage hs hp hend),
   fun hp hlt => turn_engine_of_case hb (.readRow hs hp hlt),
   fun r hp ha => turn_engine_of_case hb (.truncated r hs hp ha)⟩

/-- Settles O47: the two answers to a row write; the buffers released are the fields left free. -/
theorem writeAnswerCountsOrEnds : Obligations.WriteAnswerCountsOrEnds := fun _ r hb hs hp =>
  ⟨fun ha => ⟨_, turn_engine_of_case hb (.rowWritten r hs hp ha), rfl⟩,
   fun ha => ⟨_, turn_engine_of_case hb (.writeFailed r hs hp ha), rfl⟩⟩

end Sys2Proof.Machine
end

section
/-! PROOFS. The conversion of a row (42_pipeline R142, R143, R152): where the samples of a converted row stand, what the
Normalizer makes of a row read, and the step that writes the row. -/

namespace Sys2Proof.Machine

/-! ## A list of blocks of one length -/

/-- Entry c of block p, when every block has k entries. -/
theorem getElem?_flatMap_of_length {α β : Type} {f : α → List β} {k c : Nat} (hf : ∀ a, (f a).length = k)
    (hc : c < k) (l : List α) (p : Nat) : (l.flatMap f)[p * k + c]? = l[p]?.bind fun a => (f a)[c]? := by
  induction l generalizing p with
  | nil => simp
  | cons a l ih =>
    cases p with
    | zero => simp [List.getElem?_append_left, hf, hc]
    | succ p =>
      have hskip : (p + 1) * k + c - (f a).length = p * k + c := by rw [hf, Nat.succ_mul]; omega
      rw [List.flatMap_cons, List.getElem?_append_right (by rw [hf, Nat.succ_mul]; omega), hskip, ih,
        List.getElem?_cons_succ]

/-! ## The converted row (42_pipeline R143) -/

theorem length_toRow (px : Lanes Sample) : (Lanes.toRow px).length = 3 := rfl

theorem length_convRow (s : State) (m : Matrix3) (row : Row) : (s.convRow m row).length = s.width.toNat * 3 := by
  simp [State.convRow, List.length_flatMap, length_toRow]

/-- Lane c of pixel p of a converted row. -/
theorem getElem?_convRow (s : State) (m : Matrix3) (row : Row) {p c : Nat} (hp : p < s.width.toNat) (hc : c < 3) :
    (s.convRow m row)[p * 3 + c]? = (Lanes.toRow (s.convPixel m (pixelOfRow s.spp.toNat p row)))[c]? := by
  rw [State.convRow, getElem?_flatMap_of_length (fun _ => length_toRow _) hc, List.getElem?_range hp,
    Option.bind_some]

/-- The three entries of pixel p of a converted row. -/
theorem pixel_convRow (s : State) (m : Matrix3) (row : Row) {p : Nat} (hp : p < s.width.toNat) :
    [(s.convRow m row)[p * 3]?, (s.convRow m row)[p * 3 + 1]?, (s.convRow m row)[p * 3 + 2]?] =
      (Lanes.toRow (s.convPixel m (pixelOfRow s.spp.toNat p row))).map some := by
  have h0 := getElem?_convRow s m row hp (c := 0) (by decide)
  have h1 := getElem?_convRow s m row hp (c := 1) (by decide)
  have h2 := getElem?_convRow s m row hp (c := 2) (by decide)
  rw [← Nat.add_zero (p * 3), h0, h1, h2]
  rfl

/-! ## The Normalizer in shift mode (40_gamma R100, R102) -/

/-- The normalized row, sample by sample; an 8-bit sample of a row too short is 0 either way. -/
theorem normalizeRow_shift {bps : Word} (h : bps = 8 ∨ bps = 16) (x : Row) :
    ∃ row, normalizeRow .shift bps x = some row ∧
      ∀ i, row.getD i 0 = if bps = 8 then x.getD i 0 <<< 8 else x.getD i 0 := by
  rcases h with rfl | rfl
  · exact ⟨_, rfl, fun i => List.getD_map x 0 (widen8 .shift)⟩
  · exact ⟨_, rfl, fun i => rfl⟩

/-! ## The step (42_pipeline R152) -/

theorem stepConvertRow_of_some {s : State} {x row : Row} {m : Matrix3} (r : Word)
    (hn : normalizeRow .shift s.bps x = some row) (hm : matrixRom s.fpFmt s.msel = some m) :
    stepConvertRow r x s = { s with
      inBuf := x, outBuf := s.convRow m row, answer := none
      requests := .writeRow r (s.convRow m row) :: s.requests, pend := .writePending r } := by
  simp [stepConvertRow, hn, hm, State.issue]

/-- Each pixel of a row of the stated shape has its three samples there (20_memory R59). -/
theorem State.third_sample_lt {s : State} {x : Row} {p : Nat} (hx : s.rowShapeOk x = true)
    (hspp : 3 ≤ s.spp.toNat) (hp : p < s.width.toNat) : p * s.spp.toNat + 2 < x.length := by
  have hlen : x.length = s.width.toNat * s.spp.toNat := by
    rw [State.rowShapeOk, Bool.and_eq_true, beq_iff_eq] at hx
    exact hx.1
  calc p * s.spp.toNat + 2 < (p + 1) * s.spp.toNat := by rw [Nat.succ_mul]; omega
    _ ≤ s.width.toNat * s.spp.toNat := Nat.mul_le_mul_right _ hp
    _ = x.length := hlen.symm

/-- Settles O46: the step writes the converted row, whose pixels are those of the normalized row. -/
theorem convertedRowIsPixelByPixel : Obligations.ConvertedRowIsPixelByPixel := by
  intro s r x m hb hs hp ha hx hbps hspp hm sample
  obtain ⟨row, hn, hrow⟩ := normalizeRow_shift hbps x
  refine ⟨s.convRow m row, ?_, length_convRow s m row, fun p hpw => ⟨State.third_sample_lt hx hspp hpw, ?_⟩⟩
  · rw [turn_engine_of_case hb (.convertRow r x hs hp ha), stepConvertRow_of_some r hn hm]
  · have hpixel : pixelOfRow s.spp.toNat p row = ⟨sample p 0, sample p 1, sample p 2⟩ := by
      simp only [pixelOfRow, hrow, sample, Nat.add_zero]
    rw [pixel_convRow s m row hpw, hpixel]

end Sys2Proof.Machine
end

section
/-! PROOFS. NOP (42_pipeline R156): the start-of-command clear, and its two fields of STATUS. -/

namespace Sys2Proof.Machine

/-- The mask of bits 15:12 and bit 7, field by field of STATUS (10_state R26). -/
theorem statusMask_eq_append : (0xFFFF0F7F : Word) =
    BitVec.allOnes 16 ++ 0#4 ++ BitVec.allOnes 4 ++ 0#1 ++ BitVec.allOnes 1 ++ BitVec.allOnes 1 ++
      BitVec.allOnes 1 ++ BitVec.allOnes 1 ++ BitVec.allOnes 3 := by
  decide

/-- The mask on the fields of STATUS: ERR and WIGN become zero, every other field stays. -/
theorem statusFields_and_mask (err : BitVec 4) (wign trunc lutValid busy : BitVec 1) (stage : BitVec 3) :
    (0#16 ++ err ++ 0#4 ++ wign ++ trunc ++ lutValid ++ busy ++ 0#1 ++ stage) &&&
      (BitVec.allOnes 16 ++ 0#4 ++ BitVec.allOnes 4 ++ 0#1 ++ BitVec.allOnes 1 ++ BitVec.allOnes 1 ++
        BitVec.allOnes 1 ++ BitVec.allOnes 1 ++ BitVec.allOnes 3) =
      0#16 ++ 0#4 ++ 0#4 ++ 0#1 ++ trunc ++ lutValid ++ busy ++ 0#1 ++ stage := by
  simp only [BitVec.and_append, BitVec.and_allOnes, BitVec.and_zero]

/-- The start-of-command clear, in the STATUS word. -/
theorem statusWord_beginCommand (s : State) : s.beginCommand.statusWord = s.statusWord &&& 0xFFFF0F7F := by
  rw [statusMask_eq_append]
  exact (statusFields_and_mask _ _ _ _ _ _).symm

/-- Settles O31: NOP is the start-of-command clear. -/
theorem nopClearsErrAndWign : Obligations.NopClearsErrAndWign :=
  ⟨by decide, fun s => ⟨_, rfl, rfl, statusWord_beginCommand s⟩⟩

end Sys2Proof.Machine
end

section
/-! PROOFS. Reset (70_reset R190, R192): every register at its reset value, a late answer discarded, and BUSY = 0 kept by
every step but the host's write to CMD. -/

namespace Sys2Proof.Machine

/-! ## The registers after reset (70_reset R190) -/

theorem readReg_reset (r : Reg) : State.reset.readReg r = r.resetValue := by
  cases r <;> decide

/-- What a reset carries over, and the tables and buffers, are read by no register. -/
theorem readReg_applyReset (s : State) (r : Reg) : s.applyReset.readReg r = State.reset.readReg r := by
  cases r <;> rfl

/-- With no request outstanding the next answer is discarded, whichever request it is of (10_state R45). -/
theorem accessorStep_of_pend_none {s : State} {q : Reply} {rest : List Reply} (hp : s.pend = .none)
    (hq : s.replies = q :: rest) : accessorStep s = .next { s with replies := rest } := by
  simp [accessorStep, hq, State.answersOutstanding, hp]

/-- Settles O17: the state after reset register by register, and its PEND, which no answer matches. -/
theorem resetGivesEveryRegisterItsValue : Obligations.ResetGivesEveryRegisterItsValue := fun s =>
  ⟨s.applyReset, rfl, fun r => ⟨(readReg_applyReset s r).trans (readReg_reset r), readReg_reset r⟩, rfl, rfl, rfl,
    fun _ _ hq => accessorStep_of_pend_none rfl hq⟩

/-! ## BUSY = 0 is kept (70_reset R192) -/

@[simp] theorem State.writeReg_busy (s : State) (r : Reg) (w : Word) : (s.writeReg r w).busy = s.busy := by
  cases r <;> rfl

/-- With BUSY = 0 a write to a register other than CMD is the register's store (10_state R25, R48). -/
theorem hostWriteReg_of_ne_cmd {r : Reg} {s : State} (w : Word) (hb : s.busy = false) (hr : r ≠ .cmd) :
    hostWriteReg r w s = .next (s.writeReg r w) := by
  simp [hostWriteReg, hb, hr]

theorem hostWrite_keeps_idle {o : Nat} {w : Word} {s t : State} (hb : s.busy = false) (ho : o ≠ Reg.cmd.offset)
    (h : hostWrite o w s = .next t) : t.busy = false := by
  cases hr : Reg.ofOffset o with
  | none =>
    rw [hostWrite_of_ofOffset_none w s hr] at h
    cases h
    exact hb
  | some r =>
    obtain rfl := Reg.offset_of_ofOffset hr
    have hne : r ≠ .cmd := fun hcmd => ho (congrArg Reg.offset hcmd)
    rw [hostWrite_offset, hostWriteReg_of_ne_cmd w hb hne] at h
    cases h
    rw [State.writeReg_busy, hb]

/-- A host step is a write line's host write, or moves the host's own fields on and leaves the block. -/
theorem hostStep_write_or_withHost {s t : State} (h : hostStep s = .next t) :
    (∃ a w rest, s.host = .write a w :: rest ∧ hostWrite a.offset w { s with host := rest } = .next t) ∨
    ∃ host reads failed, t = s.withHost host reads failed := by
  unfold hostStep at h
  split at h
  · cases h
  · rename_i a w rest hhost
    split_ifs at h
    exact .inl ⟨a, w, rest, hhost, h⟩
  · split_ifs at h
    cases h
    exact .inr ⟨_, _, _, rfl⟩
  · cases h
    exact .inr ⟨_, _, _, rfl⟩
  · split_ifs at h
    cases h
    exact .inr ⟨_, _, _, rfl⟩

theorem hostStep_keeps_idle {s t : State} (hb : s.busy = false)
    (hcmd : ¬ ∃ a w rest, s.host = .write a w :: rest ∧ a.offset = Reg.cmd.offset)
    (h : hostStep s = .next t) : t.busy = false := by
  rcases hostStep_write_or_withHost h with ⟨a, w, rest, hhost, hw⟩ | ⟨_, _, _, rfl⟩
  · exact hostWrite_keeps_idle (s := { s with host := rest }) hb (fun ho => hcmd ⟨a, w, rest, hhost, ho⟩) hw
  · exact hb

theorem outputAfter_busy (a : Answer) (s : State) : (s.outputAfter a).busy = s.busy := by
  unfold State.outputAfter
  split <;> rfl

theorem accessorStep_busy {s t : State} (h : accessorStep s = .next t) : t.busy = s.busy := by
  obtain ⟨r, rest, -, ⟨-, rfl⟩ | ⟨-, -, -, rfl⟩⟩ := accessorStep_cases h
  · rfl
  · exact outputAfter_busy r.answer { s with replies := rest }

/-- Of the four agents' turns only the host's can end BUSY = 0, by a line that writes CMD. -/
theorem turn_keeps_idle {a : Agent} {s t : State} (hb : s.busy = false)
    (hcmd : ¬ (a = .host ∧ ∃ b w rest, s.host = .write b w :: rest ∧ b.offset = Reg.cmd.offset))
    (h : turn a s = .next t) : t.busy = false := by
  rcases turn_cases h with ⟨-, he⟩ | ⟨rfl, hh⟩ | ⟨-, ha⟩ | ⟨-, rfl⟩
  · rw [engineStep_idle hb] at he
    cases he
  · exact hostStep_keeps_idle hb (fun hline => hcmd ⟨rfl, hline⟩) hh
  · rw [accessorStep_busy ha, hb]
  · rfl

/-- A step is the mover's turn, with the schedule moved on. -/
theorem step_eq_turn_of_mover {s t : State} (h : step s = .next t) :
    ∃ a rest, s.mover = some a ∧ turn a { s with sched := rest } = .next t := by
  obtain ⟨a, rest, hturn, hs | ⟨hs, -, ha⟩⟩ := step_cases h
  · exact ⟨a, rest, by simp [State.mover, hs], hturn⟩
  · exact ⟨a, rest, by simp [State.mover, hs, ha], hturn⟩

theorem step_keeps_idle {s t : State} (hb : s.busy = false)
    (hcmd : ¬ (s.mover = some .host ∧ ∃ a w rest, s.host = .write a w :: rest ∧ a.offset = Reg.cmd.offset))
    (h : step s = .next t) : t.busy = false := by
  obtain ⟨a, rest, hmover, hturn⟩ := step_eq_turn_of_mover h
  refine turn_keeps_idle (s := { s with sched := rest }) hb (fun ⟨ha, hline⟩ => hcmd ⟨?_, hline⟩) hturn
  rw [hmover, ha]

theorem turn_engine_idle {s : State} (hb : s.busy = false) : turn .engine s = .fault (.noStep .engine) := by
  simp [turn, engineStep_idle hb]

/-- Settles O18: a reset leaves BUSY = 0, every step but a host write to CMD keeps it, and with it the engine has no
step. -/
theorem idleAfterResetUntilACommand : Obligations.IdleAfterResetUntilACommand := by
  refine ⟨fun _ => turn_engine_idle rfl, turn_engine_idle rfl, rfl, fun _ => rfl, fun s t hb hstep hcmd => ?_⟩
  have hidle : t.busy = false := step_keeps_idle hb hcmd hstep
  exact ⟨hidle, turn_engine_idle hidle⟩

end Sys2Proof.Machine
end

section
/-! PROOFS. The invariant (20_memory R61, 10_state R21, R42, R45, 42_pipeline R146, R147, R152): what a good state is
while no run is going on, what it says of a run, and that every turn keeps it. -/

namespace Sys2Proof.Machine

/-! ## No run going on (10_state R45, 42_pipeline R157) -/

/-- No run is going on: BUSY = 0 in a stage where it may be, nothing outstanding, no answer on the port. -/
structure State.Idle (s : State) : Prop where
  stage  : s.stage = .init ∨ s.stage = .done ∨ s.stage = .failed
  busy   : s.busy = false
  pend   : s.pend = .none
  answer : s.answer = none

theorem State.admitsAnswer_of_pend_none {s : State} (hp : s.pend = .none) (a : Answer) :
    s.admitsAnswer a = false := by
  simp [State.admitsAnswer, hp]

/-- With nothing outstanding there is no answer on the port. -/
theorem State.Inv.answer_eq_none {s : State} (hs : s.Inv) (hp : s.pend = .none) : s.answer = none := by
  have hfits := hs.answerFitsPend
  unfold State.AnswerFitsPend at hfits
  cases ha : s.answer with
  | none => rfl
  | some a =>
    rw [ha] at hfits
    simp [State.admitsAnswer_of_pend_none hp] at hfits

theorem State.Inv.idle {s : State} (hs : s.Inv) (hb : s.busy = false) : s.Idle := by
  have hp := hs.pendOnlyBusy hb
  refine ⟨?_, hb, hp, hs.answer_eq_none hp⟩
  have hfits := hs.stageFitsBusy
  unfold State.StageFitsBusy at hfits
  cases hst : s.stage <;> simp [hst, hb] at hfits ⊢

/-- With no run going on, the rows and the tables are all there is to the invariant. -/
theorem State.Idle.inv {s : State} (hs : s.Idle) (hrows : Memory.wf s.outRows = true) (htab : s.TablesCurrent) :
    s.Inv where
  rowsCanonical := hrows
  tablesCurrent := htab
  stageFitsBusy := by
    unfold State.StageFitsBusy
    rcases hs.stage with h | h | h <;> simp [h, hs.busy]
  pendFitsStage := by simp [State.PendFitsStage, hs.pend]
  pendOnlyBusy _ := hs.pend
  answerFitsPend := by simp [State.AnswerFitsPend, hs.answer]
  validated h := by rcases hs.stage with h' | h' | h' <;> simp [h'] at h
  runCounters h := by simp [hs.busy] at h
  metaIsDeclared h := by simp [hs.pend] at h
  writeIsConversion := by simp [State.WriteIsConversion, hs.pend]
  requestsInOrder h := by simp [hs.busy] at h

/-- Settles O51: after reset no run is going on, no row is written and LUT_VALID = 0. -/
theorem resetStateIsGood : Obligations.ResetStateIsGood :=
  State.Idle.inv ⟨.inl rfl, rfl, rfl, rfl⟩ reset_rows_wf (fun h => nomatch h)

/-- The invariant speaks of neither WIGN, the host, the schedule nor the answers to come. -/
theorem State.Inv.congr_outside {s : State} (hs : s.Inv) {wign : Bool} {host : List HostOp} {reads : List Word}
    {checkFailed : Bool} {sched : List Agent} {replies : List Reply} :
    State.Inv { s with
      wign := wign, host := host, reads := reads, checkFailed := checkFailed, sched := sched, replies := replies } :=
  ⟨hs.1, hs.2, hs.3, hs.4, hs.5, hs.6, hs.7, hs.8, hs.9, hs.10, hs.11⟩

/-! ## The host (10_state R42, R48) -/

/-- A store to a register keeps the tables current: a GAMMA half clears LUT_VALID, no other store touches them. -/
theorem State.TablesCurrent.writeReg {s : State} (hs : s.TablesCurrent) (r : Reg) (w : Word) :
    (s.writeReg r w).TablesCurrent := by
  cases r with
  | gammaInLo | gammaInHi | gammaOutLo | gammaOutHi => exact fun h => nomatch h
  | _ => exact hs

theorem State.writeReg_outRows (s : State) (r : Reg) (w : Word) : (s.writeReg r w).outRows = s.outRows := by
  cases r <;> rfl

theorem State.Idle.writeReg {s : State} (hs : s.Idle) (r : Reg) (w : Word) : (s.writeReg r w).Idle := by
  obtain ⟨hst, hb, hp, ha⟩ := hs
  cases r <;> exact ⟨hst, hb, hp, ha⟩

/-- The state a run starts from (42_pipeline R144). -/
theorem State.Inv.run_issued {s : State} (hs : s.Inv) (hb : s.busy = false) :
    State.Inv { s.beginCommand with
      trunc := false, rowsDone := 0, stage := .init, busy := true, pend := .none } where
  rowsCanonical := hs.rowsCanonical
  tablesCurrent := hs.tablesCurrent
  stageFitsBusy := trivial
  pendFitsStage := trivial
  pendOnlyBusy _ := rfl
  answerFitsPend := by simp [State.AnswerFitsPend, (hs.idle hb).answer]
  validated h := by simp at h
  runCounters _ := ⟨rfl, rfl, rfl⟩
  metaIsDeclared h := nomatch h
  writeIsConversion := trivial
  requestsInOrder _ := List.nil_prefix

/-- Every command keeps the invariant: all but RUN leave no run going on. -/
theorem ExecCase.inv {s t : State} {i : Instr} (h : ExecCase s i t) (hs : s.Inv) (hb : s.busy = false) : t.Inv := by
  obtain ⟨hst, -, hp, ha⟩ := hs.idle hb
  cases h with
  | run => exact hs.run_issued hb
  | build hgi hgo => exact State.Idle.inv ⟨hst, hb, hp, ha⟩ hs.rowsCanonical fun _ => ⟨hgi, hgo, rfl, rfl⟩
  | _ => exact State.Idle.inv ⟨hst, hb, hp, ha⟩ hs.rowsCanonical hs.tablesCurrent

theorem hostStep_inv {s t : State} (hs : s.Inv) (h : hostStep s = .next t) : t.Inv := by
  obtain ⟨host, reads, failed, u, rfl, hcases⟩ := hostStep_cases h
  have hu : (s.withHost host reads failed).Inv := hs.congr_outside
  rcases hcases with rfl | ⟨-, rfl⟩ | ⟨hb, ⟨r, w, rfl⟩ | ⟨i, w, -, hexec⟩ | rfl⟩
  · exact hu
  · exact hu.congr_outside
  · refine ((hu.idle hb).writeReg r w).inv ?_ (hu.tablesCurrent.writeReg r w)
    rw [State.writeReg_outRows]
    exact hu.rowsCanonical
  · exact (exec_cases hexec).inv hu hb
  · obtain ⟨hst, -, hp, ha⟩ := hu.idle hb
    exact State.Idle.inv ⟨hst, hb, hp, ha⟩ hu.rowsCanonical hu.tablesCurrent

/-! ## What the invariant says of a run -/

/-- Before PreparingOutput nothing is outstanding. -/
theorem State.Inv.pend_eq_none {s : State} (hs : s.Inv) (hprep : s.stage ≠ .preparingOutput)
    (hproc : s.stage ≠ .processing) : s.pend = .none := by
  have hfits := hs.pendFitsStage
  unfold State.PendFitsStage at hfits
  cases hp : s.pend <;> simp [hp, hprep, hproc] at hfits ⊢

/-- Before Processing no row has been written. -/
theorem State.Inv.rowsDone_eq_zero {s : State} (hs : s.Inv) (hb : s.busy = true) (hst : s.stage ≠ .processing) :
    s.rowsDone = 0 := by
  obtain ⟨-, -, hrows⟩ := hs.runCounters hb
  simpa [hst] using hrows

/-- In Processing at most HEIGHT rows have been written. -/
theorem State.Inv.rowsDone_le {s : State} (hs : s.Inv) (hb : s.busy = true) (hst : s.stage = .processing) :
    s.rowsDone.toNat ≤ s.height.toNat := by
  obtain ⟨-, -, hrows⟩ := hs.runCounters hb
  simpa [hst] using hrows

/-- A row request is for row ROWS_DONE, which is a row of the image. -/
theorem State.Inv.row_of_read {s : State} {r : Word} (hs : s.Inv) (hp : s.pend = .readPending r) :
    r = s.rowsDone ∧ s.rowsDone.toNat < s.height.toNat := by
  have hfits := hs.pendFitsStage
  rw [State.PendFitsStage, hp] at hfits
  exact hfits.2

theorem State.Inv.row_of_write {s : State} {r : Word} (hs : s.Inv) (hp : s.pend = .writePending r) :
    r = s.rowsDone ∧ s.rowsDone.toNat < s.height.toNat := by
  have hfits := hs.pendFitsStage
  rw [State.PendFitsStage, hp] at hfits
  exact hfits.2

theorem exists_matrixRom (fmt : FpFmt) {msel : BitVec 2} (h : msel ≠ 3) : ∃ m, matrixRom fmt msel = some m :=
  Option.ne_none_iff_exists'.mp (mt (matrixRom_eq_none_iff fmt msel).mp h)

/-- In Processing the row read can be converted: the depth is one of two and a matrix is selected (42_pipeline R146,
R152). -/
theorem State.Inv.convertible {s : State} (hs : s.Inv) (hst : s.stage = .processing) (x : Row) :
    ∃ row m, normalizeRow .shift s.bps x = some row ∧ matrixRom s.fpFmt s.msel = some m := by
  have hpass := firstFailure_eq_none.1 (hs.validated (.inr hst))
  have hbps : s.bps = 8 ∨ s.bps = 16 := by
    simpa using hpass (s.bps == 8 || s.bps == 16, .badBitDepth) (by simp [State.validationChecks])
  have hmsel : s.msel ≠ 3 := by simpa using hpass (s.msel != 3, .badMatrix) (by simp [State.validationChecks])
  obtain ⟨row, hrow, -⟩ := normalizeRow_shift hbps x
  obtain ⟨m, hm⟩ := exists_matrixRom s.fpFmt hmsel
  exact ⟨row, m, hrow, hm⟩

/-- A row answer on the port has the stated shape (20_memory R59). -/
theorem State.Inv.rowShapeOk_answer {s : State} {r : Word} {x : Row} (hs : s.Inv) (hp : s.pend = .readPending r)
    (ha : s.answer = some (.row x)) : s.rowShapeOk x = true := by
  have hfits := hs.answerFitsPend
  rw [State.AnswerFitsPend, ha] at hfits
  simpa [State.admitsAnswer, hp] using hfits

/-! ## The engine (42_pipeline R145 to R154) -/

/-- A check of Validating that fails ends the run with its error; if none does, PreparingOutput is next. -/
theorem stepValidating_cases (s : State) :
    (firstFailure s.validationChecks = none ∧ stepValidating s = { s with stage := .preparingOutput }) ∨
    ∃ code, firstFailure s.validationChecks = some code ∧ stepValidating s = s.raise .run code := by
  cases hf : firstFailure s.validationChecks with
  | none => exact .inl ⟨rfl, by simp [stepValidating, hf]⟩
  | some code => exact .inr ⟨code, rfl, by simp [stepValidating, hf]⟩

theorem stepInit_inv {s : State} (hs : s.Inv) (hb : s.busy = true) (hst : s.stage = .init) : (stepInit s).Inv where
  rowsCanonical := hs.rowsCanonical
  tablesCurrent := hs.tablesCurrent
  stageFitsBusy := hb
  pendFitsStage := by
    have hp := hs.pend_eq_none (by simp [hst]) (by simp [hst])
    simp [State.PendFitsStage, stepInit, hp]
  pendOnlyBusy := hs.pendOnlyBusy
  answerFitsPend := hs.answerFitsPend
  validated h := by simp [stepInit] at h
  runCounters _ := by
    obtain ⟨htrunc, herr, -⟩ := hs.runCounters hb
    exact ⟨htrunc, herr, hs.rowsDone_eq_zero hb (by simp [hst])⟩
  metaIsDeclared := hs.metaIsDeclared
  writeIsConversion := hs.writeIsConversion
  requestsInOrder _ := List.nil_prefix

theorem stepValidating_inv {s : State} (hs : s.Inv) (hb : s.busy = true) (hst : s.stage = .validating) :
    (stepValidating s).Inv := by
  have hp := hs.pend_eq_none (by simp [hst]) (by simp [hst])
  have ha := hs.answer_eq_none hp
  rcases stepValidating_cases s with ⟨hpass, heq⟩ | ⟨code, -, heq⟩
  · rw [heq]
    obtain ⟨htrunc, herr, -⟩ := hs.runCounters hb
    exact {
      rowsCanonical := hs.rowsCanonical
      tablesCurrent := hs.tablesCurrent
      stageFitsBusy := hb
      pendFitsStage := by simp [State.PendFitsStage, hp]
      pendOnlyBusy := hs.pendOnlyBusy
      answerFitsPend := by simp [State.AnswerFitsPend, ha]
      validated := fun _ => hpass
      runCounters := fun _ => ⟨htrunc, herr, hs.rowsDone_eq_zero hb (by simp [hst])⟩
      metaIsDeclared := hs.metaIsDeclared
      writeIsConversion := hs.writeIsConversion
      requestsInOrder := fun _ => by simp [State.runTags, hp] }
  · rw [heq]
    exact State.Idle.inv ⟨.inr (.inr rfl), rfl, rfl, ha⟩ hs.rowsCanonical hs.tablesCurrent

theorem stepIssueMeta_inv {s : State} (hs : s.Inv) (hb : s.busy = true) (hst : s.stage = .preparingOutput)
    (hp : s.pend = .none) : (stepIssueMeta s).Inv where
  rowsCanonical := hs.rowsCanonical
  tablesCurrent := hs.tablesCurrent
  stageFitsBusy := by simp [State.StageFitsBusy, stepIssueMeta, hst, hb]
  pendFitsStage := hst
  pendOnlyBusy h := by simp [stepIssueMeta, hb] at h
  answerFitsPend := by simp [State.AnswerFitsPend, stepIssueMeta, hs.answer_eq_none hp]
  validated := hs.validated
  runCounters := hs.runCounters
  metaIsDeclared _ := rfl
  writeIsConversion := trivial
  requestsInOrder _ := by simp [State.runTags, stepIssueMeta, hst, Request.tag]

theorem stepMetaOk_inv {s : State} (hs : s.Inv) (hb : s.busy = true) (hst : s.stage = .preparingOutput)
    (hp : s.pend = .metaPending) : (stepMetaOk s).Inv where
  rowsCanonical := hs.rowsCanonical
  tablesCurrent := hs.tablesCurrent
  stageFitsBusy := hb
  pendFitsStage := trivial
  pendOnlyBusy _ := rfl
  answerFitsPend := trivial
  validated _ := hs.validated (.inl hst)
  runCounters _ := by
    obtain ⟨htrunc, herr, -⟩ := hs.runCounters hb
    refine ⟨htrunc, herr, ?_⟩
    have hzero := hs.rowsDone_eq_zero hb (by simp [hst])
    simp [stepMetaOk, hzero]
  metaIsDeclared h := nomatch h
  writeIsConversion := trivial
  requestsInOrder _ := by
    have hzero := hs.rowsDone_eq_zero hb (by simp [hst])
    simpa [State.runTags, hst, hp, hzero, stepMetaOk, tagsAfterRows] using hs.requestsInOrder hb

theorem stepReadRow_inv {s : State} (hs : s.Inv) (hb : s.busy = true) (hst : s.stage = .processing)
    (hp : s.pend = .none) (hlt : s.rowsDone.toNat < s.height.toNat) : (stepReadRow s).Inv where
  rowsCanonical := hs.rowsCanonical
  tablesCurrent := hs.tablesCurrent
  stageFitsBusy := by simp [State.StageFitsBusy, stepReadRow, hst, hb]
  pendFitsStage := ⟨hst, rfl, hlt⟩
  pendOnlyBusy h := by simp [stepReadRow, hb] at h
  answerFitsPend := by simp [State.AnswerFitsPend, stepReadRow, hs.answer_eq_none hp]
  validated := hs.validated
  runCounters := hs.runCounters
  metaIsDeclared h := nomatch h
  writeIsConversion := trivial
  requestsInOrder _ := by
    simpa [State.runTags, hst, hp, stepReadRow, Request.tag] using hs.requestsInOrder hb

theorem stepConvertRow_inv {s : State} {r : Word} {x : Row} (hs : s.Inv) (hb : s.busy = true)
    (hst : s.stage = .processing) (hp : s.pend = .readPending r) (ha : s.answer = some (.row x)) :
    (stepConvertRow r x s).Inv := by
  obtain ⟨row, m, hrow, hm⟩ := hs.convertible hst x
  rw [stepConvertRow_of_some r hrow hm]
  exact {
    rowsCanonical := hs.rowsCanonical
    tablesCurrent := hs.tablesCurrent
    stageFitsBusy := by simp [State.StageFitsBusy, hst, hb]
    pendFitsStage := ⟨hst, hs.row_of_read hp⟩
    pendOnlyBusy := fun h => by simp [hb] at h
    answerFitsPend := trivial
    validated := hs.validated
    runCounters := hs.runCounters
    metaIsDeclared := fun h => nomatch h
    writeIsConversion := ⟨hs.rowShapeOk_answer hp ha, ⟨row, m, hrow, hm, rfl⟩, rfl⟩
    requestsInOrder := fun _ => by
      simpa [State.runTags, hst, hp, Request.tag] using hs.requestsInOrder hb }

/-- Row ROWS_DONE counts as written without wrapping, for it is below HEIGHT. -/
theorem toNat_succ_of_lt {r h : Word} (hlt : r.toNat < h.toNat) : (r + 1#32).toNat = r.toNat + 1 := by
  have := h.isLt
  rw [BitVec.toNat_add, BitVec.toNat_ofNat]
  omega

theorem stepRowWritten_inv {s : State} {r : Word} (hs : s.Inv) (hb : s.busy = true) (hst : s.stage = .processing)
    (hp : s.pend = .writePending r) : (stepRowWritten r s).Inv := by
  obtain ⟨rfl, hlt⟩ := hs.row_of_write hp
  have hsucc := toNat_succ_of_lt hlt
  obtain ⟨htrunc, herr, -⟩ := hs.runCounters hb
  exact {
    rowsCanonical := hs.rowsCanonical
    tablesCurrent := hs.tablesCurrent
    stageFitsBusy := by simp [State.StageFitsBusy, stepRowWritten, hst, hb]
    pendFitsStage := trivial
    pendOnlyBusy := fun _ => rfl
    answerFitsPend := trivial
    validated := hs.validated
    runCounters := fun _ => ⟨htrunc, herr, by
      simpa [-BitVec.toNat_add, stepRowWritten, hst, hsucc] using hlt⟩
    metaIsDeclared := fun h => nomatch h
    writeIsConversion := trivial
    requestsInOrder := fun _ => by
      simpa [-BitVec.toNat_add, State.runTags, hst, hp, stepRowWritten, hsucc, tagsAfterRows]
        using hs.requestsInOrder hb }

theorem EngineCase.inv {s t : State} (h : EngineCase s t) (hs : s.Inv) (hb : s.busy = true) : t.Inv := by
  cases h with
  | init hst => exact stepInit_inv hs hb hst
  | validating hst => exact stepValidating_inv hs hb hst
  | issueMeta hst hp => exact stepIssueMeta_inv hs hb hst hp
  | metaOk hst hp _ => exact stepMetaOk_inv hs hb hst hp
  | readRow hst hp hlt => exact stepReadRow_inv hs hb hst hp hlt
  | convertRow r x hst hp ha => exact stepConvertRow_inv hs hb hst hp ha
  | rowWritten r hst hp _ => exact stepRowWritten_inv hs hb hst hp
  | endOfImage _ hp _ =>
    exact State.Idle.inv ⟨.inr (.inl rfl), rfl, hp, hs.answer_eq_none hp⟩ hs.rowsCanonical hs.tablesCurrent
  | truncated => exact State.Idle.inv ⟨.inr (.inl rfl), rfl, rfl, rfl⟩ hs.rowsCanonical hs.tablesCurrent
  | metaError | writeFailed =>
    exact State.Idle.inv ⟨.inr (.inr rfl), rfl, rfl, rfl⟩ hs.rowsCanonical hs.tablesCurrent

/-! ## The accessor and reset (20_memory R60, R68, 70_reset R190) -/

/-- What an answer says of the output changes the output, by at most one row, and the model's counter. -/
theorem outputAfter_frame (a : Answer) (s : State) :
    ∃ rows outMeta draws, s.outputAfter a = { s with outRows := rows, outMeta := outMeta, draws := draws } ∧
      (rows = s.outRows ∨ ∃ r v, rows = Memory.write s.outRows r v) := by
  unfold State.outputAfter
  split
  · exact ⟨_, _, _, rfl, .inl rfl⟩
  · exact ⟨_, _, _, rfl, .inl rfl⟩
  · exact ⟨_, _, _, rfl, .inr ⟨_, _, rfl⟩⟩
  · exact ⟨_, _, _, rfl, .inr ⟨_, _, rfl⟩⟩
  · exact ⟨_, _, _, rfl, .inl rfl⟩

/-- What an accessor step changes: the answers to come, the port, the output and the model's counter. -/
theorem accessorStep_frame {s t : State} (h : accessorStep s = .next t) :
    ∃ replies answer rows outMeta draws, t = { s with
      replies := replies, answer := answer, outRows := rows, outMeta := outMeta, draws := draws } := by
  obtain ⟨q, rest, -, ⟨-, rfl⟩ | ⟨-, -, -, rfl⟩⟩ := accessorStep_cases h
  · exact ⟨_, _, _, _, _, rfl⟩
  · obtain ⟨rows, outMeta, draws, hout, -⟩ := outputAfter_frame q.answer { s with replies := rest }
    exact ⟨_, _, _, _, _, by rw [State.deliver, hout]⟩

/-- Of the output the invariant says the canonical form of the rows alone, of the port that the answer fits. -/
theorem State.Inv.congr_output {s : State} (hs : s.Inv) {rows : Memory} (hrows : Memory.wf rows = true)
    {a : Answer} (ha : s.admitsAnswer a = true) {outMeta : Option Metadata} {draws : Nat} :
    State.Inv { s with outRows := rows, outMeta := outMeta, draws := draws, answer := some a } :=
  ⟨hrows, hs.2, hs.3, hs.4, hs.5, ha, hs.7, hs.8, hs.9, hs.10, hs.11⟩

theorem deliver_inv {s : State} {a : Answer} (hs : s.Inv) (ha : s.admitsAnswer a = true) : (s.deliver a).Inv := by
  obtain ⟨rows, outMeta, draws, hout, hrows⟩ := outputAfter_frame a s
  rw [State.deliver, hout]
  refine hs.congr_output ?_ ha
  rcases hrows with rfl | ⟨r, v, rfl⟩
  · exact hs.rowsCanonical
  · exact Memory.wf_write hs.rowsCanonical r v

theorem accessorStep_inv {s t : State} (hs : s.Inv) (h : accessorStep s = .next t) : t.Inv := by
  obtain ⟨r, rest, -, ⟨-, rfl⟩ | ⟨-, -, hadm, rfl⟩⟩ := accessorStep_cases h
  · exact hs.congr_outside
  · exact deliver_inv (s := { s with replies := rest }) hs.congr_outside hadm

/-- What a reset leaves of an abandoned request: the row to be written, or the metadata, at a free value. -/
theorem abandonRequest_frame (s : State) :
    ∃ rows outMeta draws, s.abandonRequest = { s with outRows := rows, outMeta := outMeta, draws := draws } ∧
      (rows = s.outRows ∨ ∃ r v, s.pend = .writePending r ∧ rows = Memory.write s.outRows r.toNat v) := by
  unfold State.abandonRequest
  split
  · exact ⟨_, _, _, rfl, .inl rfl⟩
  · rename_i r _ hp
    exact ⟨_, _, _, rfl, .inr ⟨r, _, hp, rfl⟩⟩
  · exact ⟨_, _, _, rfl, .inl rfl⟩

/-- A reset keeps FP_FMT, the requests and every output row but the one whose write it abandons (log 26). -/
theorem applyReset_frame (s : State) :
    s.applyReset.fpFmt = s.fpFmt ∧ s.applyReset.requests = s.requests ∧
      (s.applyReset.outRows = s.outRows ∨
        ∃ r v, s.pend = .writePending r ∧ s.applyReset.outRows = Memory.write s.outRows r.toNat v) := by
  obtain ⟨rows, outMeta, draws, habandon, hrows⟩ := abandonRequest_frame s
  rw [State.applyReset, habandon]
  exact ⟨rfl, rfl, hrows⟩

theorem applyReset_inv {s : State} (hs : s.Inv) : s.applyReset.Inv := by
  refine State.Idle.inv ⟨.inl rfl, rfl, rfl, rfl⟩ ?_ (fun h => nomatch h)
  obtain ⟨-, -, hrows | ⟨r, v, -, hrows⟩⟩ := applyReset_frame s
  · rw [hrows]
    exact hs.rowsCanonical
  · rw [hrows]
    exact Memory.wf_write hs.rowsCanonical r.toNat v

/-! ## The machine -/

theorem turn_inv {a : Agent} {s t : State} (hs : s.Inv) (h : turn a s = .next t) : t.Inv := by
  rcases turn_cases h with ⟨-, he⟩ | ⟨-, hh⟩ | ⟨-, ha⟩ | ⟨-, rfl⟩
  · obtain ⟨hb, hcase⟩ := engineStep_cases he
    exact hcase.inv hs hb
  · exact hostStep_inv hs hh
  · exact accessorStep_inv hs ha
  · exact applyReset_inv hs

/-- Settles O52: a step is one agent's turn, and each agent's turn keeps the invariant. -/
theorem everyStepKeepsTheInvariant : Obligations.EveryStepKeepsTheInvariant := by
  intro s t hs h
  obtain ⟨a, rest, -, hturn⟩ := step_eq_turn_of_mover h
  exact turn_inv (s := { s with sched := rest }) hs.congr_outside hturn

end Sys2Proof.Machine
end

section
/-! PROOFS. What each turn leaves unchanged: the frame of the commands (30_encoding R71, 60_exceptions R184), the
configuration during a run (20_memory R66), LUT_VALID (10_state R42) and FP_FMT (00_scope R6). -/

namespace Sys2Proof.Machine

/-! ## The commands (30_encoding R71) -/

/-- Settles O40: of the commands that set ERR the only case is the error entry after the start-of-command clear. -/
theorem commandErrorsArePrecise : Obligations.CommandErrorsArePrecise := by
  intro i s t hrun h
  cases exec_cases h with
  | run => exact absurd rfl hrun
  | error => exact ⟨rfl, fun _ => rfl⟩
  | _ => exact ⟨rfl, fun herr => absurd rfl herr⟩

/-- Settles O41: the fields each command's next state names are those the rule lists. -/
theorem commandsChangeOnlyWhatTheyWrite : Obligations.CommandsChangeOnlyWhatTheyWrite := by
  intro i s t h
  cases exec_cases h <;> simp [State.sameOutside]

/-- What lies outside the block and the parameter: what no command and no register store changes. -/
def State.SameOutsideBlock (s t : State) : Prop :=
  t.fpFmt = s.fpFmt ∧ t.outRows = s.outRows ∧ t.requests = s.requests ∧ t.sched = s.sched

theorem State.SameOutsideBlock.refl (s : State) : s.SameOutsideBlock s := ⟨rfl, rfl, rfl, rfl⟩

theorem ExecCase.sameOutsideBlock {s t : State} {i : Instr} (h : ExecCase s i t) : s.SameOutsideBlock t := by
  cases h <;> exact State.SameOutsideBlock.refl s

theorem State.writeReg_sameOutsideBlock (s : State) (r : Reg) (w : Word) : s.SameOutsideBlock (s.writeReg r w) := by
  cases r <;> exact State.SameOutsideBlock.refl s

theorem hostStep_sameOutsideBlock {s t : State} (h : hostStep s = .next t) : s.SameOutsideBlock t := by
  obtain ⟨host, reads, failed, u, rfl, hcases⟩ := hostStep_cases h
  rcases hcases with rfl | ⟨-, rfl⟩ | ⟨-, ⟨r, w, rfl⟩ | ⟨i, w, -, hexec⟩ | rfl⟩
  · exact State.SameOutsideBlock.refl s
  · exact State.SameOutsideBlock.refl s
  · exact State.writeReg_sameOutsideBlock (s.withHost host reads failed) r w
  · exact (exec_cases hexec).sameOutsideBlock
  · exact State.SameOutsideBlock.refl s

/-! ## The configuration, the unit registers and FP_FMT (20_memory R66, 42_pipeline R158) -/

/-- The configuration, the registers of the unit commands and FP_FMT are the same, and so is the schedule. -/
def State.SameConfigured (s t : State) : Prop :=
  s.sameConfiguration t ∧ s.sameUnitRegisters t ∧ t.fpFmt = s.fpFmt ∧ t.sched = s.sched

theorem State.SameConfigured.refl (s : State) : s.SameConfigured s := by
  simp [State.SameConfigured, State.sameConfiguration, State.sameUnitRegisters]

/-- No engine step changes what is configured, or an output row. -/
theorem EngineCase.frame {s t : State} (h : EngineCase s t) : s.SameConfigured t ∧ t.outRows = s.outRows := by
  cases h with
  | validating =>
    rcases stepValidating_cases s with ⟨-, heq⟩ | ⟨code, -, heq⟩
    · rw [heq]; exact ⟨State.SameConfigured.refl s, rfl⟩
    · rw [heq]; exact ⟨State.SameConfigured.refl s, rfl⟩
  | convertRow r x =>
    rcases stepConvertRow_cases r x s with ⟨-, heq⟩ | ⟨-, heq⟩ | ⟨row, m, -, -, heq⟩
    · rw [heq]; exact ⟨State.SameConfigured.refl s, rfl⟩
    · rw [heq]; exact ⟨State.SameConfigured.refl s, rfl⟩
    · rw [heq]; exact ⟨State.SameConfigured.refl s, rfl⟩
  | _ => exact ⟨State.SameConfigured.refl s, rfl⟩

theorem engineStep_frame {s t : State} (h : engineStep s = some t) : s.SameConfigured t ∧ t.outRows = s.outRows := by
  obtain ⟨-, hcase⟩ := engineStep_cases h
  exact hcase.frame

theorem accessorStep_sameConfigured {s t : State} (h : accessorStep s = .next t) : s.SameConfigured t := by
  obtain ⟨replies, answer, rows, outMeta, draws, rfl⟩ := accessorStep_frame h
  exact State.SameConfigured.refl s

/-- While BUSY = 1 the host changes WIGN and its own fields only (10_state R48). -/
theorem hostStep_busy {s t : State} (hb : s.busy = true) (h : hostStep s = .next t) :
    ∃ host reads failed wign, t = { s.withHost host reads failed with wign := wign } := by
  obtain ⟨host, reads, failed, u, rfl, hcases⟩ := hostStep_cases h
  rcases hcases with rfl | ⟨-, rfl⟩ | ⟨hidle, -⟩
  · exact ⟨host, reads, failed, s.wign, rfl⟩
  · exact ⟨host, reads, failed, true, rfl⟩
  · simp [hb] at hidle

/-- While BUSY = 1 no turn but a reset changes what is configured. -/
theorem turn_sameConfigured {a : Agent} {s t : State} (hb : s.busy = true) (ha : a ≠ .reset)
    (h : turn a s = .next t) : s.SameConfigured t := by
  rcases turn_cases h with ⟨-, he⟩ | ⟨-, hh⟩ | ⟨-, hacc⟩ | ⟨hreset, -⟩
  · exact (engineStep_frame he).1
  · obtain ⟨host, reads, failed, wign, rfl⟩ := hostStep_busy hb hh
    exact State.SameConfigured.refl s
  · exact accessorStep_sameConfigured hacc
  · exact absurd hreset ha

theorem turn_fpFmt {a : Agent} {s t : State} (h : turn a s = .next t) : t.fpFmt = s.fpFmt := by
  rcases turn_cases h with ⟨-, he⟩ | ⟨-, hh⟩ | ⟨-, hacc⟩ | ⟨-, rfl⟩
  · obtain ⟨⟨-, -, hfmt, -⟩, -⟩ := engineStep_frame he
    exact hfmt
  · obtain ⟨hfmt, -⟩ := hostStep_sameOutsideBlock hh
    exact hfmt
  · obtain ⟨-, -, hfmt, -⟩ := accessorStep_sameConfigured hacc
    exact hfmt
  · exact (applyReset_frame s).1

/-- Settles O53: during a run by the three agents' turns, and FP_FMT by all four. -/
theorem nothingConfiguredChangesDuringARun : Obligations.NothingConfiguredChangesDuringARun := by
  refine ⟨fun s t hb hmover h => ?_, fun s t h => ?_⟩
  · obtain ⟨a, rest, ha, hturn⟩ := step_eq_turn_of_mover h
    have hne : a ≠ .reset := fun hreset => hmover (by rw [ha, hreset])
    obtain ⟨hconf, hunit, -, -⟩ := turn_sameConfigured (s := { s with sched := rest }) hb hne hturn
    exact ⟨hconf, hunit⟩
  · obtain ⟨a, rest, -, hturn⟩ := step_eq_turn_of_mover h
    exact turn_fpFmt (s := { s with sched := rest }) hturn

/-! ## LUT_VALID (10_state R42) -/

theorem State.SameConfigured.lutValid_eq {s t : State} (h : s.SameConfigured t) : t.lutValid = s.lutValid := by
  obtain ⟨⟨-, -, -, -, -, -, hlut, -⟩, -⟩ := h
  exact hlut.symm

/-- A register store changes LUT_VALID only at a GAMMA half, to 0. -/
theorem State.writeReg_lutValid (s : State) (r : Reg) (w : Word) :
    (s.writeReg r w).lutValid = if r.isGammaHalf then false else s.lutValid := by
  cases r <;> rfl

/-- A command changes LUT_VALID only if it is BUILD, to 1. -/
theorem ExecCase.lutValid {s t : State} {i : Instr} (h : ExecCase s i t) :
    t.lutValid = s.lutValid ∨ (i = .build ∧ t.lutValid = true) := by
  cases h with
  | build => exact .inr ⟨rfl, rfl⟩
  | _ => exact .inl rfl

theorem issueCommand_lutValid {w : Word} {s t : State} (h : issueCommand w s = .next t) :
    t.lutValid = s.lutValid ∨ (w = encode .build ∧ t.lutValid = true) := by
  cases hdec : decode w with
  | ok i =>
    rw [issueCommand, hdec] at h
    refine (exec_cases h).lutValid.imp_right fun ⟨hi, hlut⟩ => ⟨?_, hlut⟩
    rw [(decode_eq_ok_iff_eq_encode w i).1 hdec, hi]
  | error e =>
    rw [issueCommand, hdec] at h
    cases h
    exact .inl rfl

/-- The host's two ways to change LUT_VALID, both with BUSY = 0: a GAMMA half and the word of BUILD. -/
theorem hostWrite_lutValid {o : Nat} {w : Word} {s t : State} (h : hostWrite o w s = .next t)
    (hne : t.lutValid ≠ s.lutValid) :
    s.busy = false ∧ ((t.lutValid = false ∧ ∃ r : Reg, r.isGammaHalf = true ∧ o = r.offset) ∨
      (t.lutValid = true ∧ o = 0x008 ∧ w = 0x00000001)) := by
  cases hr : Reg.ofOffset o with
  | none =>
    rw [hostWrite_of_ofOffset_none w s hr] at h
    cases h
    exact absurd rfl hne
  | some r =>
    obtain rfl := Reg.offset_of_ofOffset hr
    rw [hostWrite_offset] at h
    cases hb : s.busy with
    | true =>
      rcases hostWriteReg_cases h with ⟨-, rfl | rfl⟩ | ⟨hidle, -⟩
      · exact absurd rfl hne
      · exact absurd rfl hne
      · simp [hb] at hidle
    | false =>
      refine ⟨rfl, ?_⟩
      by_cases hcmd : r = .cmd
      · subst hcmd
        rw [hostWriteReg_cmd w hb] at h
        obtain ⟨hw, hlut⟩ := (issueCommand_lutValid h).resolve_left hne
        exact .inr ⟨hlut, rfl, hw.trans (by decide)⟩
      · rw [hostWriteReg_of_ne_cmd w hb hcmd] at h
        cases h
        rw [State.writeReg_lutValid] at hne ⊢
        cases hg : r.isGammaHalf with
        | true => exact .inl ⟨rfl, r, hg, rfl⟩
        | false => simp [hg] at hne

/-- Settles O13: the engine and the accessor keep LUT_VALID, a reset clears it, and the host has two ways to
change it. -/
theorem onlyBuildSetsLutValid : Obligations.OnlyBuildSetsLutValid := by
  intro s t h hne
  obtain ⟨a, rest, ha, hturn⟩ := step_eq_turn_of_mover h
  rcases turn_cases hturn with ⟨-, he⟩ | ⟨rfl, hh⟩ | ⟨-, hacc⟩ | ⟨rfl, rfl⟩
  · exact absurd (engineStep_frame he).1.lutValid_eq hne
  · rcases hostStep_write_or_withHost hh with ⟨b, w, lines, hhost, hw⟩ | ⟨_, _, _, rfl⟩
    · obtain ⟨hb, hways⟩ := hostWrite_lutValid hw hne
      exact .inr ⟨ha, hb, b, w, lines, hhost, hways⟩
    · exact absurd rfl hne
  · exact absurd (accessorStep_sameConfigured hacc).lutValid_eq hne
  · exact .inl ⟨ha, rfl⟩

end Sys2Proof.Machine
end

section
/-! PROOFS. The accessor (20_memory R59, R60, R67 to R69): which answers reach the port, what an admitted answer does to
the output, and that no step changes another output row. -/

namespace Sys2Proof.Machine

/-! ## The answers that reach the port (20_memory R59, R60, R67) -/

theorem State.rowShapeOk_iff (s : State) (x : Row) :
    s.rowShapeOk x = true ↔
      x.length = s.width.toNat * s.spp.toNat ∧ ∀ v ∈ x, v.toNat < 2 ^ s.bps.toNat := by
  simp [State.rowShapeOk]

/-- The answers each outstanding request may get. -/
theorem State.admitsAnswer_iff (s : State) (a : Answer) :
    s.admitsAnswer a = true ↔
      (s.pend = .metaPending ∧ (a = .ok ∨ a = .error)) ∨
      (∃ r, s.pend = .readPending r ∧ (a = .endOfData ∨ ∃ x, a = .row x ∧ s.rowShapeOk x = true)) ∨
      (∃ r, s.pend = .writePending r ∧ (a = .ok ∨ a = .writeFailed)) := by
  cases hp : s.pend with
  | none => simp [State.admitsAnswer_of_pend_none hp]
  | metaPending | readPending r | writePending r => cases a <;> simp [State.admitsAnswer, hp]

/-- The accessor's turn on the next answer to the outstanding request: taken if it is admitted and the port is free. -/
theorem turn_accessor_outstanding {s : State} {a : Answer} {rest : List Reply}
    (hq : s.replies = ⟨s.requests.length, a⟩ :: rest) (hp : s.pend ≠ .none) :
    turn .accessor s =
      if s.answer.isNone && s.admitsAnswer a then .next (State.deliver a { s with replies := rest })
      else .fault .unadmittedAnswer := by
  simp [turn, accessorStep, hq, State.answersOutstanding, hp]

theorem turn_accessor_admitted {s : State} {a : Answer} {rest : List Reply}
    (hq : s.replies = ⟨s.requests.length, a⟩ :: rest) (ha : s.answer = none) (hadm : s.admitsAnswer a = true) :
    turn .accessor s = .next (State.deliver a { s with replies := rest }) := by
  have hp : s.pend ≠ .none := fun hp => by simp [State.admitsAnswer_of_pend_none hp] at hadm
  simp [turn_accessor_outstanding hq hp, ha, hadm]

theorem deliver_answer (a : Answer) (s : State) : (s.deliver a).answer = some a := rfl

theorem deliver_pend (a : Answer) (s : State) : (s.deliver a).pend = s.pend := by
  obtain ⟨rows, outMeta, draws, hout, -⟩ := outputAfter_frame a s
  rw [State.deliver, hout]

/-- Settles O49: the stated shapes are what `admitsAnswer` tests, and a second answer is refused whatever it is. -/
theorem onlyAdmittedAnswersReachThePort : Obligations.OnlyAdmittedAnswersReachThePort := by
  intro s a rest hq hp fits
  have hfits : s.admitsAnswer a = true ↔ fits := by
    simp only [State.admitsAnswer_iff, State.rowShapeOk_iff, fits]
  refine ⟨fun ha hfit => ?_, fun ha hfit => ?_, fun ha => ?_⟩
  · exact ⟨_, turn_accessor_admitted hq ha (hfits.2 hfit), deliver_answer _ _, deliver_pend _ _⟩
  · have hadm : ¬ s.admitsAnswer a = true := fun hadm => hfit (hfits.1 hadm)
    simp [turn_accessor_outstanding hq hp, hadm]
  · simp [turn_accessor_outstanding hq hp, ha]

/-! ## What an answer does to the output (20_memory R60, R68) -/

theorem outputAfter_ok_setMeta {s : State} {m : Metadata} (h : s.requests.head? = some (.setMeta m)) :
    s.outputAfter .ok = { s with outMeta := some m } := by
  obtain ⟨older, hreq⟩ := List.head?_eq_some_iff.1 h
  simp [State.outputAfter, hreq]

theorem outputAfter_ok_writeRow {s : State} {r : Word} {x : Row} (h : s.requests.head? = some (.writeRow r x)) :
    s.outputAfter .ok = { s with outRows := Memory.write s.outRows r.toNat (some x) } := by
  obtain ⟨older, hreq⟩ := List.head?_eq_some_iff.1 h
  simp [State.outputAfter, hreq]

theorem outputAfter_row (x : Row) (s : State) : s.outputAfter (.row x) = s := by
  simp [State.outputAfter]

theorem outputAfter_endOfData (s : State) : s.outputAfter .endOfData = s := by
  simp [State.outputAfter]

/-- In a good state the newest request is the row write that is outstanding, with OUT_BUF. -/
theorem State.Inv.head_of_write {s : State} {r : Word} (hs : s.Inv) (hp : s.pend = .writePending r) :
    s.requests.head? = some (.writeRow r s.outBuf) := by
  have hwrite := hs.writeIsConversion
  rw [State.WriteIsConversion, hp] at hwrite
  obtain ⟨-, -, hhead⟩ := hwrite
  exact hhead

/-- Settles O50: the newest request is WriteRow(r) with OUT_BUF, and a row written is read back. -/
theorem okWritesTheConvertedRow : Obligations.OkWritesTheConvertedRow := by
  intro s r rest hs hp ha hq
  have hhead := hs.head_of_write hp
  refine ⟨_, s.outBuf, turn_accessor_admitted hq ha (by simp [State.admitsAnswer, hp]), hhead, rfl, ?_⟩
  rw [State.deliver, outputAfter_ok_writeRow (s := { s with replies := rest }) hhead]
  exact Memory.read_write_same hs.rowsCanonical r.toNat _

/-- Settles O60: the newest request is SetMeta with the record of R147. -/
theorem okDeclaresTheOutputMetadata : Obligations.OkDeclaresTheOutputMetadata := by
  intro s rest hs hp ha hq
  have hhead := hs.metaIsDeclared hp
  have hout := outputAfter_ok_setMeta (s := { s with replies := rest }) hhead
  refine ⟨_, turn_accessor_admitted hq ha (by simp [State.admitsAnswer, hp]), ?_, ?_⟩
  · rw [State.deliver, hout]
  · rw [State.deliver, hout]
    rfl

/-! ## The other output rows (20_memory R69) -/

/-- In a good state an admitted answer writes at most the row whose write is outstanding. -/
theorem State.Inv.outputAfter_outRows {s : State} {a : Answer} (hs : s.Inv) (hadm : s.admitsAnswer a = true) :
    (s.outputAfter a).outRows = s.outRows ∨
      ∃ r v, s.pend = .writePending r ∧ (s.outputAfter a).outRows = Memory.write s.outRows r.toNat v := by
  cases hp : s.pend with
  | none => simp [State.admitsAnswer_of_pend_none hp] at hadm
  | metaPending =>
    obtain ⟨older, hreq⟩ := List.head?_eq_some_iff.1 (hs.metaIsDeclared hp)
    left
    cases a <;> simp [State.outputAfter, hreq]
  | readPending r =>
    left
    cases a with
    | row x => rw [outputAfter_row]
    | endOfData => rw [outputAfter_endOfData]
    | ok | error | writeFailed => simp [State.admitsAnswer, hp] at hadm
  | writePending r =>
    obtain ⟨older, hreq⟩ := List.head?_eq_some_iff.1 (hs.head_of_write hp)
    cases a with
    | ok => exact .inr ⟨r, some s.outBuf, rfl, by simp [State.outputAfter, hreq]⟩
    | writeFailed => exact .inr ⟨r, Config.unknownRow s.draws, rfl, by simp [State.outputAfter, hreq]⟩
    | row | endOfData | error => simp [State.admitsAnswer, hp] at hadm

/-- In a good state a turn writes at most the row whose write is outstanding. -/
theorem turn_outRows {a : Agent} {s t : State} (hs : s.Inv) (h : turn a s = .next t) :
    t.outRows = s.outRows ∨ ∃ r v, s.pend = .writePending r ∧ t.outRows = Memory.write s.outRows r.toNat v := by
  rcases turn_cases h with ⟨-, he⟩ | ⟨-, hh⟩ | ⟨-, hacc⟩ | ⟨-, rfl⟩
  · exact .inl (engineStep_frame he).2
  · obtain ⟨-, hrows, -⟩ := hostStep_sameOutsideBlock hh
    exact .inl hrows
  · obtain ⟨q, rest, -, ⟨-, rfl⟩ | ⟨-, -, hadm, rfl⟩⟩ := accessorStep_cases hacc
    · exact .inl rfl
    · exact State.Inv.outputAfter_outRows (s := { s with replies := rest }) hs.congr_outside hadm
  · obtain ⟨-, -, hrows⟩ := applyReset_frame s
    exact hrows

/-- Settles O55: the one row a turn may write is the row whose write is outstanding. -/
theorem writtenRowsStayWritten : Obligations.WrittenRowsStayWritten := by
  intro s t k hs h hk
  obtain ⟨a, rest, -, hturn⟩ := step_eq_turn_of_mover h
  rcases turn_outRows (s := { s with sched := rest }) hs.congr_outside hturn with
    hrows | ⟨r, v, hp, hrows⟩
  · rw [hrows]
  · rw [hrows]
    exact Memory.read_write_other s.outRows v (hk r hp)

end Sys2Proof.Machine
end

section
/-! PROOFS. A run from its issue to its end (42_pipeline R155, R157, 20_memory R61, 70_reset R200): when the engine
moves, which requests it issues, how a run ends and how many engine steps it takes. -/

namespace Sys2Proof.Machine

/-! ## When the engine moves (42_pipeline R157) -/

/-- While a request waits for its answer the engine has no step (20_memory R67). -/
theorem engineStep_waiting {s : State} (hs : s.Inv) (hp : s.pend ≠ .none) (ha : s.answer = none) :
    engineStep s = none := by
  rw [Option.eq_none_iff_forall_ne_some]
  intro t ht
  obtain ⟨-, hcase⟩ := engineStep_cases ht
  cases hcase with
  | init hst | validating hst => exact hp (hs.pend_eq_none (by simp [hst]) (by simp [hst]))
  | issueMeta _ hnone | endOfImage _ hnone _ | readRow _ hnone _ => exact hp hnone
  | metaOk _ _ hans | metaError _ _ hans | truncated _ _ _ hans | convertRow _ _ _ _ hans | rowWritten _ _ _ hans
  | writeFailed _ _ _ hans => simp [ha] at hans

/-- With an answer on the port, which fits the outstanding request, the engine takes it. -/
theorem exists_engineCase_of_answer {s : State} {a : Answer} (hs : s.Inv) (ha : s.answer = some a) :
    ∃ t, EngineCase s t := by
  have hadm : s.admitsAnswer a = true := by
    have hfits := hs.answerFitsPend
    rwa [State.AnswerFitsPend, ha] at hfits
  have hfits := hs.pendFitsStage
  unfold State.PendFitsStage at hfits
  rcases (s.admitsAnswer_iff a).1 hadm with ⟨hp, rfl | rfl⟩ | ⟨r, hp, rfl | ⟨x, rfl, -⟩⟩ | ⟨r, hp, rfl | rfl⟩ <;>
    rw [hp] at hfits
  · exact ⟨_, .metaOk hfits hp ha⟩
  · exact ⟨_, .metaError hfits hp ha⟩
  · exact ⟨_, .truncated r hfits.1 hp ha⟩
  · exact ⟨_, .convertRow r x hfits.1 hp ha⟩
  · exact ⟨_, .rowWritten r hfits.1 hp ha⟩
  · exact ⟨_, .writeFailed r hfits.1 hp ha⟩

/-- With nothing outstanding each stage of a run has a step. -/
theorem exists_engineCase_of_pend_none {s : State} (hs : s.Inv) (hb : s.busy = true) (hp : s.pend = .none) :
    ∃ t, EngineCase s t := by
  have hfits := hs.stageFitsBusy
  unfold State.StageFitsBusy at hfits
  cases hst : s.stage with
  | init => exact ⟨_, .init hst⟩
  | validating => exact ⟨_, .validating hst⟩
  | preparingOutput => exact ⟨_, .issueMeta hst hp⟩
  | processing =>
    rcases Nat.lt_or_eq_of_le (hs.rowsDone_le hb hst) with hlt | heq
    · exact ⟨_, .readRow hst hp hlt⟩
    · exact ⟨_, .endOfImage hst hp (BitVec.eq_of_toNat_eq heq)⟩
  | done | failed => simp [hst, hb] at hfits

/-- Settles O48: no step with BUSY = 0 or without the answer; else a step, by the answer or by the stage. -/
theorem engineMovesOrWaitsForTheAccessor : Obligations.EngineMovesOrWaitsForTheAccessor := by
  refine ⟨fun s hb => turn_engine_idle hb, fun s hs hb => ⟨fun ⟨hp, ha⟩ => ?_, fun hmoves => ?_⟩⟩
  · simp [turn, engineStep_waiting hs hp ha]
  · obtain ⟨t, hcase⟩ : ∃ t, EngineCase s t := by
      cases ha : s.answer with
      | some a => exact exists_engineCase_of_answer hs ha
      | none =>
        exact exists_engineCase_of_pend_none hs hb (by_contra fun hp => hmoves ⟨hp, ha⟩)
    exact ⟨t, turn_engine_of_case hb hcase⟩

/-! ## The requests (20_memory R61) -/

/-- Of the engine's steps three issue a request, each one of R61. -/
theorem EngineCase.requests {s t : State} (h : EngineCase s t) (hs : s.Inv) :
    t.requests = s.requests ∨
      (s.pend = .none ∧ t.requests = .setMeta s.runMetadata :: s.requests) ∨
      (s.pend = .none ∧ s.rowsDone.toNat < s.height.toNat ∧ t.requests = .readRow s.rowsDone :: s.requests) ∨
      (s.pend = .readPending s.rowsDone ∧ ∃ x out, s.answer = some (.row x) ∧
        t.requests = .writeRow s.rowsDone out :: s.requests) := by
  cases h with
  | issueMeta _ hp => exact .inr (.inl ⟨hp, rfl⟩)
  | readRow _ hp hlt => exact .inr (.inr (.inl ⟨hp, hlt, rfl⟩))
  | convertRow r x hst hp ha =>
    obtain ⟨row, m, hrow, hm⟩ := hs.convertible hst x
    obtain ⟨rfl, -⟩ := hs.row_of_read hp
    rw [stepConvertRow_of_some _ hrow hm]
    exact .inr (.inr (.inr ⟨hp, x, _, ha, rfl⟩))
  | validating =>
    left
    rcases stepValidating_cases s with ⟨-, heq⟩ | ⟨code, -, heq⟩
    · rw [heq]
    · rw [heq]; rfl
  | _ => exact .inl rfl

theorem accessorStep_requests {s t : State} (h : accessorStep s = .next t) : t.requests = s.requests := by
  obtain ⟨replies, answer, rows, outMeta, draws, rfl⟩ := accessorStep_frame h
  rfl

/-- Settles O54: only the engine issues requests, each of its steps at most one, and the invariant has their order. -/
theorem requestsGoOutOneAtATimeInOrder : Obligations.RequestsGoOutOneAtATimeInOrder := by
  intro s t hs h
  refine ⟨(everyStepKeepsTheInvariant s t hs h).requestsInOrder, ?_⟩
  obtain ⟨a, rest, ha, hturn⟩ := step_eq_turn_of_mover h
  rcases turn_cases hturn with ⟨rfl, he⟩ | ⟨-, hh⟩ | ⟨-, hacc⟩ | ⟨-, rfl⟩
  · obtain ⟨-, hcase⟩ := engineStep_cases he
    exact (hcase.requests hs.congr_outside).imp_right fun hissued => ⟨ha, hissued⟩
  · obtain ⟨-, -, hreq, -⟩ := hostStep_sameOutsideBlock hh
    exact .inl hreq
  · exact .inl (accessorStep_requests (s := { s with sched := rest }) hacc)
  · obtain ⟨-, hreq, -⟩ := applyReset_frame { s with sched := rest }
    exact .inl hreq

/-! ## How a run ends (42_pipeline R155) -/

/-- A failed check reports one of the errors of R146. -/
theorem mem_validationErrors {s : State} {code : ErrCode} (h : firstFailure s.validationChecks = some code) :
    code ∈ validationErrors := by
  obtain ⟨before, after, hsplit, -⟩ := firstFailure_eq_some.1 h
  have hmem : code ∈ s.validationChecks.map Prod.snd := by simp [hsplit]
  exact hmem

/-- The engine step that ends a run ends it in one of the three ways. -/
theorem EngineCase.endedAsStated {s t : State} (h : EngineCase s t) (hs : s.Inv) (hb : s.busy = true)
    (hend : t.busy = false) : s.EndedAsStated t := by
  obtain ⟨htrunc, herr, -⟩ := hs.runCounters hb
  cases h with
  | init | issueMeta | metaOk | readRow | rowWritten =>
    simp [stepInit, stepIssueMeta, stepMetaOk, stepReadRow, stepRowWritten, hb] at hend
  | validating hst =>
    rcases stepValidating_cases s with ⟨-, heq⟩ | ⟨code, hfail, heq⟩
    · simp [heq, hb] at hend
    · rw [heq]
      have hzero := hs.rowsDone_eq_zero hb (by simp [hst])
      exact .inr (.inr ⟨rfl, htrunc, rfl, .inl ⟨mem_validationErrors hfail, hst, hzero⟩⟩)
  | metaError hst =>
    have hzero := hs.rowsDone_eq_zero hb (by simp [hst])
    exact .inr (.inr ⟨rfl, htrunc, rfl, .inr (.inl ⟨rfl, hst, hzero⟩)⟩)
  | endOfImage _ _ hrows => exact .inl ⟨rfl, htrunc, herr, hrows⟩
  | truncated r _ hp =>
    obtain ⟨-, hlt⟩ := hs.row_of_read hp
    exact .inr (.inl ⟨rfl, rfl, herr, hlt⟩)
  | convertRow r x hst =>
    obtain ⟨row, m, hrow, hm⟩ := hs.convertible hst x
    simp [stepConvertRow_of_some r hrow hm, hb] at hend
  | writeFailed r hst hp =>
    obtain ⟨rfl, -⟩ := hs.row_of_write hp
    exact .inr (.inr ⟨rfl, htrunc, rfl, .inr (.inr ⟨rfl, hst, hp⟩)⟩)

/-- Settles O56: with BUSY = 1 only the engine, or a reset, can end a run. -/
theorem runsEndInOneOfThreeWays : Obligations.RunsEndInOneOfThreeWays := by
  intro s t hs hb hmover h hend
  obtain ⟨a, rest, ha, hturn⟩ := step_eq_turn_of_mover h
  rcases turn_cases hturn with ⟨-, he⟩ | ⟨-, hh⟩ | ⟨-, hacc⟩ | ⟨rfl, -⟩
  · obtain ⟨-, hcase⟩ := engineStep_cases he
    exact hcase.endedAsStated hs.congr_outside hb hend
  · obtain ⟨host, reads, failed, wign, rfl⟩ := hostStep_busy (s := { s with sched := rest }) hb hh
    simp [State.withHost, hb] at hend
  · rw [accessorStep_busy hacc] at hend
    simp [hb] at hend
  · exact absurd ha hmover

/-! ## How many engine steps a run takes (70_reset R200) -/

/-- A run that has not ended has an engine step left. -/
theorem State.Inv.engineStepsLeft_pos {s : State} (hs : s.Inv) (hb : s.busy = true) : 0 < s.engineStepsLeft := by
  have hfits := hs.stageFitsBusy
  have hpend := hs.pendFitsStage
  unfold State.StageFitsBusy at hfits
  unfold State.PendFitsStage at hpend
  unfold State.engineStepsLeft
  cases hst : s.stage with
  | init | validating => simp [hb]
  | preparingOutput => cases hp : s.pend <;> simp [hb]
  | processing =>
    cases hp : s.pend with
    | none => simp [hb]
    | metaPending => simp [hp, hst] at hpend
    | readPending r | writePending r =>
      rw [hp] at hpend
      obtain ⟨-, -, hlt⟩ := hpend
      simp only [hb, if_true]
      omega
  | done | failed => simp [hst, hb] at hfits

/-- An engine step that does not end the run uses up one of the steps left. -/
theorem EngineCase.engineStepsLeft_lt {s t : State} (h : EngineCase s t) (hs : s.Inv) (hb : s.busy = true)
    (hbt : t.busy = true) : t.engineStepsLeft < s.engineStepsLeft := by
  cases h with
  | init hst => simp [State.engineStepsLeft, stepInit, hst, hb]
  | validating hst =>
    have hp := hs.pend_eq_none (by simp [hst]) (by simp [hst])
    rcases stepValidating_cases s with ⟨-, heq⟩ | ⟨code, -, heq⟩
    · simp [heq, State.engineStepsLeft, hst, hb, hp]
    · simp [heq] at hbt
  | issueMeta hst hp => simp [State.engineStepsLeft, stepIssueMeta, hst, hp, hb]
  | metaOk hst hp =>
    have hzero := hs.rowsDone_eq_zero hb (by simp [hst])
    simp [State.engineStepsLeft, stepMetaOk, hst, hp, hb, hzero]
  | readRow hst hp => simp [State.engineStepsLeft, stepReadRow, hst, hp, hb]
  | convertRow r x hst hp =>
    obtain ⟨row, m, hrow, hm⟩ := hs.convertible hst x
    obtain ⟨-, hlt⟩ := hs.row_of_read hp
    simp only [stepConvertRow_of_some r hrow hm, State.engineStepsLeft, hst, hp, hb, if_true]
    omega
  | rowWritten r hst hp =>
    obtain ⟨rfl, hlt⟩ := hs.row_of_write hp
    have hsucc := toNat_succ_of_lt hlt
    simp [-BitVec.toNat_add, State.engineStepsLeft, stepRowWritten, hst, hp, hb, hsucc]
    omega
  | metaError | endOfImage | truncated | writeFailed => exact absurd hbt Bool.false_ne_true

/-- The steps left depend on BUSY, STATE, PEND, HEIGHT and ROWS_DONE alone. -/
theorem engineStepsLeft_congr {s t : State} (hbusy : t.busy = s.busy) (hstage : t.stage = s.stage)
    (hpend : t.pend = s.pend) (hheight : t.height = s.height) (hrows : t.rowsDone = s.rowsDone) :
    t.engineStepsLeft = s.engineStepsLeft := by
  unfold State.engineStepsLeft
  rw [hbusy, hstage, hpend, hheight, hrows]

theorem accessorStep_engineStepsLeft {s t : State} (h : accessorStep s = .next t) :
    t.engineStepsLeft = s.engineStepsLeft := by
  obtain ⟨replies, answer, rows, outMeta, draws, rfl⟩ := accessorStep_frame h
  exact engineStepsLeft_congr rfl rfl rfl rfl rfl

/-- Each turn of a run that does not end it takes its count of engine turns off the steps left. -/
theorem turn_engineStepsLeft {a : Agent} {s t : State} (hs : s.Inv) (hb : s.busy = true) (ha : a ≠ .reset)
    (h : turn a s = .next t) (hbt : t.busy = true) :
    t.engineStepsLeft + [a].count .engine ≤ s.engineStepsLeft := by
  rcases turn_cases h with ⟨rfl, he⟩ | ⟨rfl, hh⟩ | ⟨rfl, hacc⟩ | ⟨hreset, -⟩
  · obtain ⟨-, hcase⟩ := engineStep_cases he
    exact hcase.engineStepsLeft_lt hs hb hbt
  · obtain ⟨host, reads, failed, wign, rfl⟩ := hostStep_busy hb hh
    exact (engineStepsLeft_congr rfl rfl rfl rfl rfl).le
  · exact (accessorStep_engineStepsLeft hacc).le
  · exact absurd hreset ha

/-- A scheduled step of a run is the turn of the first agent, and leaves the rest of the schedule. -/
theorem step_of_sched_cons {s t : State} {a : Agent} {rest : List Agent} (hb : s.busy = true)
    (hsched : s.sched = a :: rest) (ha : a ≠ .reset) (h : step s = .next t) :
    turn a { s with sched := rest } = .next t ∧ t.sched = rest := by
  have hturn : turn a { s with sched := rest } = .next t := by
    rw [← h]
    simp [step, machineStep, hsched]
  obtain ⟨-, -, -, hrest⟩ := turn_sameConfigured (s := { s with sched := rest }) hb ha hturn
  exact ⟨hturn, hrest⟩

/-- Along a schedule without a reset, as long as the run goes on, the engine turns taken are fewer than the steps left
at the start. -/
theorem count_engine_lt_engineStepsLeft (turns : List Agent) : ∀ s : State, s.Inv → s.busy = true → s.sched = turns →
    .reset ∉ turns →
    (∀ k, k ≤ turns.length → ∃ t, Host.Core.run Sys2Proof.core k s = .next t ∧ t.busy = true) →
      turns.count .engine < s.engineStepsLeft := by
  induction turns with
  | nil => exact fun s hs hb _ _ _ => hs.engineStepsLeft_pos hb
  | cons a rest ih =>
    intro s hs hb hsched hreset hrun
    rw [List.mem_cons, not_or] at hreset
    obtain ⟨hne, hreset⟩ := hreset
    obtain ⟨t, ht, hbt⟩ : ∃ t, step s = .next t ∧ t.busy = true := by
      obtain ⟨t, ht, hbt⟩ := hrun 1 (by simp)
      refine ⟨t, ?_, hbt⟩
      cases hstep : step s with
      | next u => simpa [Host.Core.run, Sys2Proof.core, hstep] using ht
      | fault r => simp [Host.Core.run, Sys2Proof.core, hstep] at ht
      | refused r => simp [Host.Core.run, Sys2Proof.core, hstep] at ht
    obtain ⟨hturn, hrest⟩ := step_of_sched_cons hb hsched (Ne.symm hne) ht
    have hleft := turn_engineStepsLeft (s := { s with sched := rest }) hs.congr_outside hb
      (Ne.symm hne) hturn hbt
    have hlater := ih t (everyStepKeepsTheInvariant s t hs ht) hbt hrest hreset fun k hk => by
      obtain ⟨u, hu, hbu⟩ := hrun (k + 1) (by simpa using hk)
      refine ⟨u, ?_, hbu⟩
      simpa [Host.Core.run, Sys2Proof.core, ht] using hu
    have hsame : State.engineStepsLeft { s with sched := rest } = s.engineStepsLeft :=
      engineStepsLeft_congr rfl rfl rfl rfl rfl
    rw [List.count_cons]
    rw [List.count_singleton] at hleft
    omega

/-- Settles O57: at its issue a run has 3·HEIGHT + 5 engine steps left. -/
theorem runsTakeBoundedEngineSteps : Obligations.RunsTakeBoundedEngineSteps := by
  intro s turns hs hb hst hsched hreset hrun
  have hcount := count_engine_lt_engineStepsLeft turns s hs hb hsched hreset hrun
  rwa [show s.engineStepsLeft = 3 * s.height.toNat + 5 by simp [State.engineStepsLeft, hb, hst]] at hcount

end Sys2Proof.Machine
end

section
/-! PROOFS. Rounding to a code (00_scope R8): a quotient lies between two codes next to each other, rounding takes the
nearer of them, the even one at a tie, and no other code is as near. -/

namespace Sys2Proof.Machine

/-! ## The two codes around a quotient -/

theorem codeUnits_strictMono {f c c' : Nat} (h : c < c') : codeUnits f c < codeUnits f c' := by
  refine Nat.lt_of_le_of_ne (codeUnits_mono f h.le) fun heq => ?_
  have h1 := roundToCode_exact (f := f) (inf := c') Nat.one_pos h.le
  have h2 := roundToCode_exact (f := f) (inf := c') Nat.one_pos (le_refl c')
  rw [heq, h2] at h1
  omega

/-- k is the one of the codes c and c + 1 nearer to n / d quanta, the even one at a tie. -/
def IsNearerCode (f n d c k : Nat) : Prop :=
  (k = c ∧ 2 * n ≤ (codeUnits f c + codeUnits f (c + 1)) * d ∧
    (2 * n = (codeUnits f c + codeUnits f (c + 1)) * d → c % 2 = 0)) ∨
  (k = c + 1 ∧ (codeUnits f c + codeUnits f (c + 1)) * d ≤ 2 * n ∧
    (2 * n = (codeUnits f c + codeUnits f (c + 1)) * d → (c + 1) % 2 = 0))

/-- Rounding to an integer takes the nearer of the two around the quotient, the even one at a tie. -/
theorem roundHalfEven_cases (n d : Nat) :
    (roundHalfEven n d = n / d ∧ 2 * n ≤ (2 * (n / d) + 1) * d ∧ (2 * n = (2 * (n / d) + 1) * d → n / d % 2 = 0)) ∨
    (roundHalfEven n d = n / d + 1 ∧ (2 * (n / d) + 1) * d ≤ 2 * n ∧
      (2 * n = (2 * (n / d) + 1) * d → (n / d + 1) % 2 = 0)) := by
  have hdm := Nat.div_add_mod n d
  have hmid : (2 * (n / d) + 1) * d = 2 * (d * (n / d)) + d := by ring
  rw [hmid]
  unfold roundHalfEven
  split_ifs <;> omega

/-- The quotient in steps of 2^e quanta, with the e of `roundToCode`, has f + 1 bits, or e = 0. -/
theorem stepQuotient_bounds (f n d : Nat) :
    n / (d * 2 ^ (Nat.log2 (n / d) - f)) < 2 ^ (f + 1) ∧
      (2 ^ f ≤ n / (d * 2 ^ (Nat.log2 (n / d) - f)) ∨ Nat.log2 (n / d) - f = 0) := by
  rw [← Nat.div_div_eq_div_mul]
  refine ⟨quotient_lt f (n / d), ?_⟩
  by_cases hsmall : n / d < 2 ^ (f + 1)
  · exact .inr (log2_sub_eq_zero hsmall)
  · rw [Nat.pow_succ] at hsmall
    exact .inl (le_quotient (by omega))

/-- The code above whole steps of f + 1 bits: one step more, which may be the first of the next exponent. -/
theorem codeUnits_steps_succ {f a e : Nat} (h1 : 2 ^ f ≤ a ∨ e = 0) (h2 : a < 2 ^ (f + 1)) :
    codeUnits f (e * 2 ^ f + a + 1) = (a + 1) * 2 ^ e := by
  rcases Nat.lt_or_eq_of_le h2 with hlt | heq
  · exact codeUnits_steps (h1.imp_left (by omega)) hlt
  · have hnext := codeUnits_steps (f := f) (a := 2 ^ f) (e := e + 1) (.inl le_rfl) (by rw [Nat.pow_succ]; omega)
    have ha : a + 1 = 2 ^ f * 2 := by rw [← Nat.pow_succ]; exact heq
    rw [show e * 2 ^ f + a + 1 = (e + 1) * 2 ^ f + 2 ^ f by rw [Nat.succ_mul]; omega, hnext, ha, Nat.pow_succ]
    ring

/-- A quotient between two codes next to each other goes to the nearer one (before the overflow to infinity). -/
theorem roundToCode_bracket {f : Nat} (hf : 0 < f) (inf n : Nat) {d : Nat} (hd : 0 < d) :
    ∃ c k, codeUnits f c * d ≤ n ∧ n < codeUnits f (c + 1) * d ∧ IsNearerCode f n d c k ∧
      roundToCode f inf n d = min k inf := by
  obtain ⟨hlt, hge⟩ := stepQuotient_bounds f n d
  have hround : roundToCode f inf n d =
      min ((Nat.log2 (n / d) - f) * 2 ^ f + roundHalfEven n (d * 2 ^ (Nat.log2 (n / d) - f))) inf := rfl
  generalize Nat.log2 (n / d) - f = e at hlt hge hround
  have hcases := roundHalfEven_cases n (d * 2 ^ e)
  have hdm := Nat.div_add_mod n (d * 2 ^ e)
  have hmod := Nat.mod_lt n (Nat.mul_pos hd (Nat.two_pow_pos e))
  generalize n / (d * 2 ^ e) = a at hlt hge hcases hdm
  have hlow : codeUnits f (e * 2 ^ f + a) * d = d * 2 ^ e * a := by rw [codeUnits_steps hge hlt]; ring
  have hhigh : codeUnits f (e * 2 ^ f + a + 1) * d = d * 2 ^ e * a + d * 2 ^ e := by
    rw [codeUnits_steps_succ hge hlt]; ring
  have hsum : (codeUnits f (e * 2 ^ f + a) + codeUnits f (e * 2 ^ f + a + 1)) * d = (2 * a + 1) * (d * 2 ^ e) := by
    rw [Nat.add_mul, hlow, hhigh]; ring
  have heven : e * 2 ^ f % 2 = 0 := by
    obtain ⟨g, rfl⟩ := Nat.exists_eq_succ_of_ne_zero hf.ne'
    rw [Nat.pow_succ, ← Nat.mul_assoc, Nat.mul_mod_left]
  refine ⟨e * 2 ^ f + a, e * 2 ^ f + roundHalfEven n (d * 2 ^ e), by omega, by omega, ?_, hround⟩
  rw [IsNearerCode, hsum]
  rcases hcases with ⟨hk, hle, htie⟩ | ⟨hk, hle, htie⟩
  · exact .inl ⟨by rw [hk], hle, fun h => by have := htie h; omega⟩
  · exact .inr ⟨by rw [hk, Nat.add_assoc], hle, fun h => by have := htie h; omega⟩

/-! ## No code is nearer -/

/-- How far n / d quanta are from a code, in units of 1 / d. -/
def codeError (f n d c : Nat) : Nat := ((n : Int) - ((codeUnits f c * d : Nat) : Int)).natAbs

/-- Below the quotient the larger code is nearer. -/
theorem codeError_lt_of_lt_le {f n d c c' : Nat} (hd : 0 < d) (h : c < c') (hle : codeUnits f c' * d ≤ n) :
    codeError f n d c' < codeError f n d c := by
  have := Nat.mul_lt_mul_of_pos_right (codeUnits_strictMono (f := f) h) hd
  unfold codeError
  omega

/-- Above the quotient the smaller code is nearer. -/
theorem codeError_lt_of_le_lt {f n d c c' : Nat} (hd : 0 < d) (h : c' < c) (hle : n ≤ codeUnits f c' * d) :
    codeError f n d c' < codeError f n d c := by
  have := Nat.mul_lt_mul_of_pos_right (codeUnits_strictMono (f := f) h) hd
  unfold codeError
  omega

/-- Of all codes none is nearer than the nearer of the two around the quotient, and one as near means it is even. -/
theorem IsNearerCode.codeError_le {f n d c₀ k : Nat} (hd : 0 < d) (hlow : codeUnits f c₀ * d ≤ n)
    (hhigh : n < codeUnits f (c₀ + 1) * d) (hk : IsNearerCode f n d c₀ k) (c : Nat) :
    codeError f n d k ≤ codeError f n d c ∧ (codeError f n d k = codeError f n d c → c ≠ k → k % 2 = 0) := by
  have hpair : (codeUnits f c₀ + codeUnits f (c₀ + 1)) * d = codeUnits f c₀ * d + codeUnits f (c₀ + 1) * d :=
    Nat.add_mul _ _ _
  -- between the two codes themselves, by the middle
  have hmid : codeError f n d k ≤ codeError f n d c₀ ∧ codeError f n d k ≤ codeError f n d (c₀ + 1) ∧
      (codeError f n d c₀ = codeError f n d (c₀ + 1) → k % 2 = 0) := by
    unfold codeError
    rcases hk with ⟨rfl, hle, htie⟩ | ⟨rfl, hle, htie⟩
    · rw [hpair] at hle htie
      exact ⟨le_rfl, by omega, fun h => htie (by omega)⟩
    · rw [hpair] at hle htie
      exact ⟨by omega, le_rfl, fun h => htie (by omega)⟩
  obtain ⟨hk₀, hk₁, htie⟩ := hmid
  have hmem : k = c₀ ∨ k = c₀ + 1 := hk.imp And.left And.left
  rcases Nat.lt_trichotomy c c₀ with hlt | rfl | hgt
  · have := codeError_lt_of_lt_le hd hlt hlow
    exact ⟨by omega, fun h => by omega⟩
  · refine ⟨hk₀, fun h hne => htie ?_⟩
    obtain rfl := hmem.resolve_left (Ne.symm hne)
    exact h.symm
  · rcases Nat.lt_or_eq_of_le (show c₀ + 1 ≤ c from hgt) with hgt' | rfl
    · have := codeError_lt_of_le_lt hd hgt' hhigh.le
      exact ⟨by omega, fun h => by omega⟩
    · refine ⟨hk₁, fun h hne => htie ?_⟩
      obtain rfl := hmem.resolve_right (Ne.symm hne)
      exact h

/-- Rounding is to the nearest code up to that of infinity, ties to even, when infinity has an even code. -/
theorem roundToCode_nearest {f inf n d c : Nat} (hf : 0 < f) (hinf : inf % 2 = 0) (hd : 0 < d) (hc : c ≤ inf) :
    codeError f n d (roundToCode f inf n d) ≤ codeError f n d c ∧
      (codeError f n d (roundToCode f inf n d) = codeError f n d c → c ≠ roundToCode f inf n d →
        roundToCode f inf n d % 2 = 0) := by
  obtain ⟨c₀, k, hlow, hhigh, hk, hround⟩ := roundToCode_bracket hf inf n hd
  rw [hround]
  rcases Nat.le_total k inf with hle | hge
  · rw [Nat.min_eq_left hle]
    exact hk.codeError_le hd hlow hhigh c
  · rw [Nat.min_eq_right hge]
    refine ⟨?_, fun _ _ => hinf⟩
    rcases Nat.lt_or_eq_of_le hc with hlt | rfl
    · rcases Nat.lt_or_eq_of_le hge with hgt | rfl
      · -- infinity is at most the lower code
        have hle₀ : inf ≤ c₀ := by
          have : k ≤ c₀ + 1 := by rcases hk with ⟨h, -⟩ | ⟨h, -⟩ <;> omega
          omega
        have := Nat.mul_le_mul_right d (codeUnits_mono f hle₀)
        exact (codeError_lt_of_lt_le hd hlt (this.trans hlow)).le
      · exact (hk.codeError_le hd hlow hhigh c).1
    · exact le_rfl

/-! ## Rounding to FP_FMT (00_scope R8) -/

theorem FpFmt.fracBits_pos (fmt : FpFmt) : 0 < fmt.fracBits := by
  cases fmt <;> decide

theorem FpFmt.infCode_even (fmt : FpFmt) : fmt.infCode % 2 = 0 := by
  cases fmt <;> decide

/-- How far n / d units are from a code of a format, in units of 1 / d. -/
def FpFmt.codeError (fmt : FpFmt) (n d c : Nat) : Nat :=
  ((n : Int) - ((fmt.unitsOfCode c * d : Nat) : Int)).natAbs

theorem FpFmt.codeError_eq (fmt : FpFmt) (n d c : Nat) :
    fmt.codeError n d c = Machine.codeError fmt.fracBits n (d * fmt.quantum) c := by
  rw [FpFmt.codeError, Machine.codeError, FpFmt.unitsOfCode, Nat.mul_assoc, Nat.mul_comm fmt.quantum]

theorem FpFmt.roundCode_nearest (fmt : FpFmt) (n : Nat) {d c : Nat} (hd : 0 < d) (hc : c ≤ fmt.infCode) :
    fmt.codeError n d (fmt.roundCode n d) ≤ fmt.codeError n d c ∧
      (fmt.codeError n d (fmt.roundCode n d) = fmt.codeError n d c → c ≠ fmt.roundCode n d →
        fmt.roundCode n d % 2 = 0) := by
  simp only [FpFmt.codeError_eq]
  exact roundToCode_nearest fmt.fracBits_pos fmt.infCode_even (Nat.mul_pos hd fmt.quantum_pos) hc

/-- Settles O19: the nearest code, and the binary64 code of the same value. -/
theorem roundingIsToNearestTiesToEven : Obligations.RoundingIsToNearestTiesToEven := by
  intro fmt n d c hd hc k error
  obtain ⟨hnear, htie⟩ := fmt.roundCode_nearest n hd hc
  refine ⟨fmt.roundCode_le_inf n d, hnear, htie, fun hfin => FpFmt.magOfCode_finite hfin, fun hinf => ?_⟩
  exact (congrArg fmt.magOfCode hinf).trans fmt.magOfCode_inf

end Sys2Proof.Machine
end

section
/-! PROOFS. The FP operations (00_scope R8): a rounded magnitude with its sign is the nearest value of the format, and
what each operation gives by the kinds of its operands. -/

namespace Sys2Proof.Machine

/-! ## The nearest value (00_scope R8) -/

theorem FpFmt.unitsOfCode_zero (fmt : FpFmt) : fmt.unitsOfCode 0 = 0 := by
  cases fmt <;> decide +kernel

/-- The binary64 code of a code of a format, infinity included, rounds to that code again. -/
theorem FpFmt.roundCode_magOfCode (fmt : FpFmt) {c : Nat} (hc : c ≤ fmt.infCode) :
    fmt.roundCode (F64.unitsOfMag (fmt.magOfCode c)) 1 = c := by
  rcases Nat.lt_or_eq_of_le hc with hlt | rfl
  · have hexact := fmt.roundCode_exact Nat.one_pos hc
    rwa [Nat.mul_one, ← (FpFmt.magOfCode_finite hlt).2] at hexact
  · rw [FpFmt.magOfCode_inf]
    cases fmt <;> decide +kernel

/-- The value of a pattern by the code of its magnitude. -/
theorem F64.valueIn_of_mag {fmt : FpFmt} {x : F64} {c : Nat} (hc : c ≤ fmt.infCode)
    (hm : F64.mag x = fmt.magOfCode c) :
    F64.valueIn fmt x = if F64.sign x then -(fmt.unitsOfCode c : Int) else fmt.unitsOfCode c := by
  unfold F64.valueIn
  rcases Nat.lt_or_eq_of_le hc with hlt | rfl
  · obtain ⟨hfin, hunits⟩ := FpFmt.magOfCode_finite hlt
    have hinf : F64.isInf x = false := by rw [F64.isInf, hm, beq_eq_false_iff_ne]; omega
    simp [hinf, F64.units, hm, hunits]
  · have hinf : F64.isInf x = true := by rw [F64.isInf, hm, FpFmt.magOfCode_inf, beq_self_eq_true]
    simp [hinf]

/-- The error of a value of the sign of the quotient is that of its code. -/
theorem natAbs_sub_same_sign (neg : Bool) (n u d : Nat) :
    ((if neg then -(n : Int) else n) - (if neg then -(u : Int) else u) * d).natAbs =
      ((n : Int) - ((u * d : Nat) : Int)).natAbs := by
  cases neg with
  | false => simp
  | true =>
    simp only [if_true, Int.neg_mul]
    omega

/-- The error of a value of the other sign is the sum of the magnitudes. -/
theorem natAbs_sub_other_sign (neg : Bool) (n u d : Nat) :
    ((if neg then -(n : Int) else n) - (if !neg then -(u : Int) else u) * d).natAbs = n + u * d := by
  cases neg with
  | false =>
    simp only [Bool.not_false, if_true, Bool.false_eq_true, if_false, Int.neg_mul]
    omega
  | true =>
    simp only [Bool.not_true, if_true, Bool.false_eq_true, if_false]
    omega

/-- The rounded magnitude of n / d with a sign is the value of the format nearest to n / d with that sign. -/
theorem F64.isNearest_make (fmt : FpFmt) (neg : Bool) (n : Nat) {d : Nat} (hd : 0 < d) :
    F64.IsNearest fmt (if neg then -(n : Int) else n) d (F64.make neg (F64.roundMag fmt n d)) := by
  have hlt : F64.roundMag fmt n d < 2 ^ 63 := (F64.roundMag_le_infMag fmt n d).trans_lt F64.infMag_lt
  have hk := fmt.roundCode_le_inf n d
  have hmag : F64.mag (F64.make neg (F64.roundMag fmt n d)) = fmt.magOfCode (fmt.roundCode n d) :=
    F64.mag_make neg hlt
  have hvalue := F64.valueIn_of_mag hk hmag
  rw [F64.sign_make neg hlt] at hvalue
  have hcode : fmt.roundCode (F64.units (F64.make neg (F64.roundMag fmt n d))) 1 = fmt.roundCode n d := by
    rw [F64.units, hmag, fmt.roundCode_magOfCode hk]
  refine ⟨?_, F64.holds_make neg (F64.isMag_roundMag fmt n d), fun y hy hyf => ?_⟩
  · rw [F64.isNaN_eq_false_iff, F64.mag_make neg hlt]
    exact F64.roundMag_le_infMag fmt n d
  · obtain ⟨c, hc, hym⟩ := ((F64.holds_iff fmt y).1 hyf).resolve_left (by simp [hy])
    beta_reduce
    rw [hcode, hvalue, F64.valueIn_of_mag hc hym, natAbs_sub_same_sign]
    change fmt.codeError n d (fmt.roundCode n d) ≤ _ ∧ (fmt.codeError n d (fmt.roundCode n d) = _ → _)
    by_cases hsign : F64.sign y = neg
    · obtain ⟨hle, htie⟩ := fmt.roundCode_nearest n hd hc
      rw [hsign, natAbs_sub_same_sign]
      exact ⟨hle, fun heq hne => htie heq fun hck => hne (by rw [hck])⟩
    · -- a value of the other sign is no nearer than zero
      obtain ⟨hle, htie⟩ := fmt.roundCode_nearest n hd (Nat.zero_le fmt.infCode)
      have hzero : fmt.codeError n d 0 = n := by simp [FpFmt.codeError, fmt.unitsOfCode_zero]
      rw [hzero] at hle htie
      rw [Bool.eq_not.mpr hsign, natAbs_sub_other_sign]
      refine ⟨hle.trans (Nat.le_add_right _ _), fun heq hne => htie (by omega) fun hk0 => hne ?_⟩
      have hu : fmt.unitsOfCode c = 0 := by
        refine (Nat.mul_eq_zero.1 ?_).resolve_right hd.ne'
        omega
      simp [← hk0, hu, fmt.unitsOfCode_zero]

/-! ## Finite operands -/

theorem F64.isNaN_of_isFinite {x : F64} (h : F64.isFinite x = true) : F64.isNaN x = false := by
  simp only [F64.isFinite, F64.isNaN, decide_eq_true_eq, decide_eq_false_iff_not] at h ⊢
  omega

theorem F64.isInf_of_isFinite {x : F64} (h : F64.isFinite x = true) : F64.isInf x = false := by
  simp only [F64.isFinite, F64.isInf, decide_eq_true_eq, beq_eq_false_iff_ne] at h ⊢
  omega

theorem F64.isNaN_of_isInf {x : F64} (h : F64.isInf x = true) : F64.isNaN x = false := by
  simp only [F64.isInf, F64.isNaN, beq_iff_eq, decide_eq_false_iff_not] at h ⊢
  omega

/-- A value stands for no units exactly when it is a zero. -/
theorem F64.units_eq_zero_iff (x : F64) : F64.units x = 0 ↔ F64.mag x = 0 := by
  have hzero : F64.unitsOfMag 0 = 0 := by decide
  refine ⟨fun h => ?_, fun h => by rw [F64.units, h, hzero]⟩
  by_contra hne
  have hpos : F64.unitsOfMag 0 < F64.unitsOfMag (F64.mag x) := codeUnits_strictMono (Nat.pos_of_ne_zero hne)
  rw [F64.units] at h
  omega

theorem fmul_of_isFinite (fmt : FpFmt) {a b : F64} (ha : F64.isFinite a = true) (hb : F64.isFinite b = true) :
    fmul fmt a b =
      F64.make (F64.sign a != F64.sign b) (F64.roundMag fmt (F64.units a * F64.units b) F64.scale) := by
  simp [fmul, F64.isNaN_of_isFinite ha, F64.isNaN_of_isFinite hb, F64.isInf_of_isFinite ha, F64.isInf_of_isFinite hb]

theorem fadd_of_isFinite (fmt : FpFmt) {a b : F64} (ha : F64.isFinite a = true) (hb : F64.isFinite b = true) :
    fadd fmt a b =
      if F64.signedUnits a + F64.signedUnits b = 0 then F64.make (F64.sign a && F64.sign b) 0
      else F64.make (decide (F64.signedUnits a + F64.signedUnits b < 0))
        (F64.roundMag fmt (F64.signedUnits a + F64.signedUnits b).natAbs 1) := by
  simp [fadd, F64.isNaN_of_isFinite ha, F64.isNaN_of_isFinite hb, F64.isInf_of_isFinite ha, F64.isInf_of_isFinite hb]

theorem fdiv_of_isFinite (fmt : FpFmt) {a b : F64} (ha : F64.isFinite a = true) (hb : F64.isFinite b = true) :
    fdiv fmt a b =
      if F64.units b = 0 then
        if F64.units a = 0 then F64.nan else F64.make (F64.sign a != F64.sign b) F64.infMag
      else F64.make (F64.sign a != F64.sign b) (F64.roundMag fmt (F64.units a * F64.scale) (F64.units b)) := by
  simp [fdiv, F64.isNaN_of_isFinite ha, F64.isNaN_of_isFinite hb, F64.isInf_of_isFinite ha,
    F64.isInf_of_isFinite hb, F64.units_eq_zero_iff]

/-- An integer by its sign and its magnitude. -/
theorem int_eq_sign_natAbs (z : Int) : z = if decide (z < 0) then -(z.natAbs : Int) else z.natAbs := by
  by_cases h : z < 0
  · simp only [h, decide_true, if_true]
    omega
  · simp only [h, decide_false, Bool.false_eq_true, if_false]
    omega

theorem signedUnits_mul (a b : F64) :
    F64.signedUnits a * F64.signedUnits b =
      if F64.sign a != F64.sign b then -((F64.units a * F64.units b : Nat) : Int)
      else (F64.units a * F64.units b : Nat) := by
  unfold F64.signedUnits
  cases F64.sign a <;> cases F64.sign b <;> simp

theorem sign_make_roundMag (fmt : FpFmt) (neg : Bool) (n d : Nat) :
    F64.sign (F64.make neg (F64.roundMag fmt n d)) = neg :=
  F64.sign_make neg ((F64.roundMag_le_infMag fmt n d).trans_lt F64.infMag_lt)

theorem fadd_isNearest (fmt : FpFmt) {a b : F64} (ha : F64.isFinite a = true) (hb : F64.isFinite b = true)
    (hsum : F64.signedUnits a + F64.signedUnits b ≠ 0) :
    F64.IsNearest fmt (F64.signedUnits a + F64.signedUnits b) 1 (fadd fmt a b) ∧
      F64.sign (fadd fmt a b) = decide (F64.signedUnits a + F64.signedUnits b < 0) := by
  rw [fadd_of_isFinite fmt ha hb, if_neg hsum]
  refine ⟨?_, sign_make_roundMag _ _ _ _⟩
  have hnear := F64.isNearest_make fmt (decide (F64.signedUnits a + F64.signedUnits b < 0))
    (F64.signedUnits a + F64.signedUnits b).natAbs Nat.one_pos
  rwa [← int_eq_sign_natAbs] at hnear

theorem fmul_isNearest (fmt : FpFmt) {a b : F64} (ha : F64.isFinite a = true) (hb : F64.isFinite b = true) :
    F64.IsNearest fmt (F64.signedUnits a * F64.signedUnits b) F64.scale (fmul fmt a b) ∧
      F64.sign (fmul fmt a b) = (F64.sign a != F64.sign b) := by
  rw [fmul_of_isFinite fmt ha hb, signedUnits_mul]
  exact ⟨F64.isNearest_make fmt _ _ F64.scale_pos, sign_make_roundMag _ _ _ _⟩

theorem fdiv_isNearest (fmt : FpFmt) {a b : F64} (ha : F64.isFinite a = true) (hb : F64.isFinite b = true)
    (h0 : F64.units b ≠ 0) :
    F64.IsNearest fmt
        (if F64.sign a != F64.sign b then -((F64.units a * F64.scale : Nat) : Int)
          else (F64.units a * F64.scale : Nat))
        (F64.units b) (fdiv fmt a b) ∧
      F64.sign (fdiv fmt a b) = (F64.sign a != F64.sign b) := by
  rw [fdiv_of_isFinite fmt ha hb, if_neg h0]
  exact ⟨F64.isNearest_make fmt _ _ (Nat.pos_of_ne_zero h0), sign_make_roundMag _ _ _ _⟩

/-! ## NaN and infinite operands -/

theorem isNaN_fdiv {fmt : FpFmt} {a b : F64} (h : F64.isNaN a = true ∨ F64.isNaN b = true) :
    F64.isNaN (fdiv fmt a b) = true := by
  rw [fdiv, if_pos (Bool.or_eq_true_iff.mpr h), F64.isNaN_nan]

theorem F64.mag_ne_zero_of_isInf {x : F64} (h : F64.isInf x = true) : F64.mag x ≠ 0 := by
  have hpos : 0 < F64.infMag := by decide
  rw [F64.isInf, beq_iff_eq] at h
  omega

/-- Two infinities: their sum by the signs, an infinite product, no quotient. -/
theorem fp_of_isInf_isInf (fmt : FpFmt) {a b : F64} (ha : F64.isInf a = true) (hb : F64.isInf b = true) :
    fadd fmt a b = (if F64.sign a != F64.sign b then F64.nan else a) ∧
      fmul fmt a b = F64.make (F64.sign a != F64.sign b) F64.infMag ∧ fdiv fmt a b = F64.nan := by
  simp [fadd, fmul, fdiv, F64.isNaN_of_isInf ha, F64.isNaN_of_isInf hb, ha, hb, F64.mag_ne_zero_of_isInf ha,
    F64.mag_ne_zero_of_isInf hb]

/-- An infinity and a finite value: the infinity is the sum, an infinity the product unless the value is zero. -/
theorem fp_of_isInf_isFinite (fmt : FpFmt) {a b : F64} (ha : F64.isInf a = true) (hb : F64.isFinite b = true) :
    fadd fmt a b = a ∧
      fmul fmt a b = (if F64.units b = 0 then F64.nan else F64.make (F64.sign a != F64.sign b) F64.infMag) ∧
      fdiv fmt a b = F64.make (F64.sign a != F64.sign b) F64.infMag := by
  simp [fadd, fmul, fdiv, F64.isNaN_of_isInf ha, F64.isNaN_of_isFinite hb, ha, F64.isInf_of_isFinite hb,
    F64.mag_ne_zero_of_isInf ha, F64.units_eq_zero_iff]

/-- The same with the finite value first: sum and product are as before, the quotient is a zero. -/
theorem fp_of_isFinite_isInf (fmt : FpFmt) {a b : F64} (ha : F64.isInf a = true) (hb : F64.isFinite b = true) :
    fadd fmt b a = a ∧ fmul fmt b a = fmul fmt a b ∧ fdiv fmt b a = F64.make (F64.sign a != F64.sign b) 0 := by
  have hflip : (F64.sign b != F64.sign a) = (F64.sign a != F64.sign b) := bne_comm
  simp [fadd, fmul, fdiv, F64.isNaN_of_isInf ha, F64.isNaN_of_isFinite hb, ha, F64.isInf_of_isFinite hb,
    F64.mag_ne_zero_of_isInf ha, hflip]

/-- Settles O59: the operations by the kinds of their operands, the finite ones by the nearest value. -/
theorem fpOperationsRoundTheExactResult : Obligations.FpOperationsRoundTheExactResult := by
  intro fmt a b flip product numerator
  refine ⟨fun hnan => ⟨isNaN_fadd hnan, isNaN_fmul hnan, isNaN_fdiv hnan⟩, fun ha hb => ?_, fun ha hb => ?_,
    fun ha hb => ?_⟩
  · obtain ⟨hmul, hmulsign⟩ := fmul_isNearest fmt ha hb
    refine ⟨fadd_isNearest fmt ha hb, fun hsum => ?_, hmul, hmulsign, fdiv_isNearest fmt ha hb, fun hb0 ha0 => ?_,
      fun hb0 ha0 => ?_⟩
    · rw [fadd_of_isFinite fmt ha hb, if_pos hsum]
      cases F64.sign a && F64.sign b with
      | false => rfl
      | true => rfl
    · rw [fdiv_of_isFinite fmt ha hb, if_pos hb0, if_pos ha0, F64.isNaN_nan]
    · rw [fdiv_of_isFinite fmt ha hb, if_pos hb0, if_neg ha0]
  · obtain ⟨hadd, hmul, hdiv⟩ := fp_of_isInf_isInf fmt ha hb
    refine ⟨fun hflip => ?_, fun hflip => ?_, hmul, by rw [hdiv, F64.isNaN_nan]⟩
    · rw [hadd, if_pos hflip, F64.isNaN_nan]
    · rw [hadd, if_neg (ne_true_of_eq_false hflip)]
  · obtain ⟨hadd, hmul, hdiv⟩ := fp_of_isInf_isFinite fmt ha hb
    obtain ⟨hadd', hmul', hdiv'⟩ := fp_of_isFinite_isInf fmt ha hb
    refine ⟨hadd, hadd', fun hb0 => ?_, fun hb0 => ?_, hdiv, hdiv'⟩
    · rw [hmul', hmul, if_pos hb0]
      exact ⟨F64.isNaN_nan, F64.isNaN_nan⟩
    · rw [hmul', hmul, if_neg hb0]
      exact ⟨rfl, rfl⟩

end Sys2Proof.Machine
end

section
/-! PROOFS. Integers and the order in the gamma steps: round and trunc (40_gamma R104, R105), the encodings at 1.0 and
at sample 32768 (R119), and that every step is monotone (R120). -/

namespace Sys2Proof.Machine

/-! ## round and trunc (40_gamma R104, R105) -/

/-- Settles O20: both integers are quotients, and a quotient is bracketed by its divisor's multiples. -/
theorem roundAndTruncOfFiniteValues : Obligations.RoundAndTruncOfFiniteValues := by
  intro x hx
  have hs := F64.scale_pos
  refine ⟨⟨(2 * F64.units x + F64.scale) / (2 * F64.scale), by rw [roundHalfAway, if_pos hx], ?_, ?_⟩,
    ⟨F64.units x / F64.scale, by rw [truncToInt, if_pos hx], Nat.div_mul_le_self _ _, ?_⟩⟩
  · rw [Nat.mul_comm 2 ((2 * F64.units x + F64.scale) / (2 * F64.scale)), Nat.mul_assoc]
    exact Nat.div_mul_le_self _ _
  · rw [Nat.mul_comm 2 ((2 * F64.units x + F64.scale) / (2 * F64.scale) + 1), Nat.mul_assoc]
    exact Nat.lt_mul_of_div_lt (Nat.lt_succ_self _) (Nat.mul_pos Nat.two_pos hs)
  · exact Nat.lt_mul_of_div_lt (Nat.lt_succ_self _) hs

/-! ## The two encode paths (40_gamma R119) -/

/-- The value decoded from 32768 at gamma 1.0. -/
def decoded32768 (fmt : FpFmt) : F64 := fdiv fmt (F64.ofNat 32768) (F64.ofNat 65535)

theorem decoded32768_inUnit (fmt : FpFmt) : F64.inUnit (decoded32768 fmt) = true :=
  scale_65535.fdiv_inUnit (by decide) fmt (by decide)

theorem encPow_decoded32768 (fmt : FpFmt) : encPow fmt .trunc F64.one (decoded32768 fmt) = 32752 := by
  rw [encPow, pow_gamma_one fmt (decoded32768_inUnit fmt)]
  cases fmt <;> decide +kernel

/-- An encode entry at gamma 1.0 is the rounded product, without Pow (40_gamma R103 P5, R106). -/
theorem encodeEntry_one (fmt : FpFmt) {i : Nat} (hi : i ≤ 16777215) :
    encodeEntry fmt F64.one i = BitVec.ofInt 16
      (roundHalfAway (fmul fmt (fdiv fmt (F64.ofNat i) (F64.ofNat 16777215)) (F64.ofNat 65535))) := by
  rw [encodeEntry, pow_gamma_one fmt (scale_16777215.fdiv_inUnit (by decide) fmt hi)]

/-- An index of ELUT is one of its entries. -/
theorem quant24_le (fmt : FpFmt) (c : F64) : (quant24 fmt c).toNat ≤ 16777215 :=
  Nat.le_of_lt_succ (quant24 fmt c).isLt

theorem encLut_buildElut (fmt : FpFmt) (go c : F64) :
    encLut fmt (buildElut fmt go) c = encodeEntry fmt go (quant24 fmt c).toNat := by
  rw [encLut, read_buildElut fmt go (quant24 fmt c).isLt]

theorem encLut_decoded32768 (fmt : FpFmt) :
    encLut fmt (buildElut fmt F64.one) (decoded32768 fmt) = 32768 := by
  rw [encLut_buildElut, encodeEntry_one fmt (quant24_le fmt _)]
  cases fmt <;> decide +kernel

/-- Settles O25: the ends of the two paths, the factor 16, and the two values computed without Pow. -/
theorem encodePathsDiverge : Obligations.EncodePathsDiverge := by
  refine fun fmt => ⟨fun go hgo => ⟨encLut_buildElut_one fmt hgo, fun mode => encPow_one fmt mode hgo,
    fun mode c hc => ?_⟩, encPow_decoded32768 fmt, encLut_decoded32768 fmt⟩
  obtain ⟨q, -, hq, -⟩ := powerEncodeIsQuantizedTimesSixteen fmt mode go c hgo hc
  rw [hq, Nat.mul_mod_left]

/-! ## Monotone steps (40_gamma R120) -/

theorem F64.IsScale.fdiv_mono {n i j : Nat} (hn : F64.IsScale n) (h0 : 0 < n) (fmt : FpFmt) (hij : i ≤ j)
    (hj : j ≤ n) :
    F64.le (fdiv fmt (F64.ofNat i) (F64.ofNat n)) (fdiv fmt (F64.ofNat j) (F64.ofNat n)) = true :=
  have hu := hn.units_pos h0
  fdiv_ofNat_mono fmt hij hj hn.finite (F64.mag_ne_zero_of_units hu) hu

/-- The power of a quotient of integers is monotone in the dividend. -/
theorem F64.IsScale.pow_fdiv_mono {n i j : Nat} (hn : F64.IsScale n) (h0 : 0 < n) (fmt : FpFmt) {g : F64}
    (hg : validGamma g = true) (hij : i ≤ j) (hj : j ≤ n) :
    F64.le (pow fmt (fdiv fmt (F64.ofNat i) (F64.ofNat n)) g) (pow fmt (fdiv fmt (F64.ofNat j) (F64.ofNat n)) g)
      = true :=
  pow_mono fmt (hn.fdiv_inUnit h0 fmt (hij.trans hj)) (hn.fdiv_inUnit h0 fmt hj) hg (hn.fdiv_mono h0 fmt hij hj)

theorem fmul_scale_nonneg (fmt : FpFmt) {c : F64} {n : Nat} (hc : F64.inUnit c = true) (hn : F64.IsScale n) :
    F64.nonneg (fmul fmt c (F64.ofNat n)) = true := by
  obtain ⟨heq, hle⟩ := fmul_scale fmt hc hn
  rw [heq]
  exact F64.nonneg_make (hle.trans_lt hn.finite)

theorem round_fmul_scale_mono (fmt : FpFmt) {c c' : F64} {n : Nat} (hc : F64.inUnit c = true)
    (hc' : F64.inUnit c' = true) (hn : F64.IsScale n) (h : F64.le c c' = true) :
    roundHalfAway (fmul fmt c (F64.ofNat n)) ≤ roundHalfAway (fmul fmt c' (F64.ofNat n)) := by
  rw [roundHalfAway_of_nonneg (fmul_scale_nonneg fmt hc hn), roundHalfAway_of_nonneg (fmul_scale_nonneg fmt hc' hn)]
  have := units_fmul_scale_mono fmt hc hc' hn h
  exact Int.ofNat_le.2 (Nat.div_le_div_right (by omega))

theorem trunc_fmul_scale_mono (fmt : FpFmt) {c c' : F64} {n : Nat} (hc : F64.inUnit c = true)
    (hc' : F64.inUnit c' = true) (hn : F64.IsScale n) (h : F64.le c c' = true) :
    truncToInt (fmul fmt c (F64.ofNat n)) ≤ truncToInt (fmul fmt c' (F64.ofNat n)) := by
  rw [truncToInt_of_nonneg (fmul_scale_nonneg fmt hc hn), truncToInt_of_nonneg (fmul_scale_nonneg fmt hc' hn)]
  exact Int.ofNat_le.2 (Nat.div_le_div_right (units_fmul_scale_mono fmt hc hc' hn h))

theorem encodeEntry_mono (fmt : FpFmt) {go : F64} (hgo : validGamma go = true) {i j : Nat} (hij : i ≤ j)
    (hj : j ≤ 16777215) : (encodeEntry fmt go i).toNat ≤ (encodeEntry fmt go j).toNat := by
  have hpow {k : Nat} (hk : k ≤ 16777215) := pow_inUnit fmt (scale_16777215.fdiv_inUnit (by decide) fmt hk) hgo
  rw [← Int.ofNat_le, toNat_encodeEntry fmt hgo (hij.trans hj), toNat_encodeEntry fmt hgo hj]
  exact round_fmul_scale_mono fmt (hpow (hij.trans hj)) (hpow hj) scale_65535
    (scale_16777215.pow_fdiv_mono (by decide) fmt hgo hij hj)

theorem quant24_mono (fmt : FpFmt) {c c' : F64} (hc : F64.inUnit c = true) (hc' : F64.inUnit c' = true)
    (h : F64.le c c' = true) : (quant24 fmt c).toNat ≤ (quant24 fmt c').toNat := by
  rw [← Int.ofNat_le, toNat_quant24 fmt hc, toNat_quant24 fmt hc']
  exact round_fmul_scale_mono fmt hc hc' scale_16777215 h

theorem encPow_mono (fmt : FpFmt) (mode : PqMode) {go c c' : F64} (hgo : validGamma go = true)
    (hc : F64.inUnit c = true) (hc' : F64.inUnit c' = true) (h : F64.le c c' = true) :
    (encPow fmt mode go c).toNat ≤ (encPow fmt mode go c').toNat := by
  have hp := pow_inUnit fmt hc hgo
  have hp' := pow_inUnit fmt hc' hgo
  have hle := pow_mono fmt hc hc' hgo h
  obtain ⟨q, hq, hq12⟩ := quant12_fmul_scale fmt mode hp
  obtain ⟨q', hq', hq12'⟩ := quant12_fmul_scale fmt mode hp'
  have hqq : (q : Int) ≤ q' := by
    rw [← hq, ← hq']
    cases mode with
    | trunc => exact trunc_fmul_scale_mono fmt hp hp' scale_4095 hle
    | round => exact round_fmul_scale_mono fmt hp hp' scale_4095 hle
  rw [toNat_encPow hq hq12, toNat_encPow hq' hq12']
  omega

/-- Settles O26: Pow, the rounded products and with them the entries are monotone. -/
theorem gammaStepsAreMonotone : Obligations.GammaStepsAreMonotone := by
  intro fmt gi go hgi hgo
  refine ⟨fun i j hij hj => ?_, fun i j hij hj => ?_, fun c c' hc hc' hle => ?_⟩
  · rw [read_buildDlut fmt gi (by omega), read_buildDlut fmt gi (by omega)]
    exact scale_65535.pow_fdiv_mono (by decide) fmt hgi hij hj
  · rw [read_buildElut fmt go (by omega), read_buildElut fmt go (by omega)]
    exact encodeEntry_mono fmt hgo hij hj
  · have hquant := quant24_mono fmt hc hc' hle
    refine ⟨hquant, ?_, fun mode => encPow_mono fmt mode hgo hc hc' hle⟩
    rw [encLut_buildElut, encLut_buildElut]
    exact encodeEntry_mono fmt hgo hquant (quant24_le fmt c')

end Sys2Proof.Machine
end

section
/-! PROOFS. The matrices (41_matrix R130, R133): the ROM's literals, lanes in [+0.0, 1.0] stay finite, and Identity
keeps every finite lane but for the sign of -0.0. -/

namespace Sys2Proof.Machine

/-! ## The ROM (41_matrix R130) -/

theorem F64.ofRatio_zero (fmt : FpFmt) (d : Nat) : F64.ofRatio fmt false 0 d = F64.posZero := by
  rw [F64.ofRatio, Nat.zero_mul, F64.roundMag_zero]
  rfl

theorem F64.ofRatio_one (fmt : FpFmt) : F64.ofRatio fmt false 1 1 = F64.one := by
  have hexact := F64.roundMag_exact Nat.one_pos (F64.isMag_oneCode fmt)
  rw [F64.unitsOfMag_one, Nat.mul_one] at hexact
  rw [F64.ofRatio, Nat.one_mul, hexact]
  decide

/-- Settles O28: the ROM is written with the literals, of which 0 and 1 are exact; the binary64 patterns are
computed. -/
theorem matrixRomHoldsTheRoundedLiterals : Obligations.MatrixRomHoldsTheRoundedLiterals := by
  refine ⟨fun fmt => ?_, by decide +kernel, by decide +kernel⟩
  simp only [F64.ofRatio_zero, F64.ofRatio_one, matrixRom, smpteMatrix, stemMatrix, tenDecimals, fourDecimals]
  exact ⟨rfl, rfl, rfl, rfl⟩

/-! ## Lanes in [+0.0, 1.0] (41_matrix R133) -/

/-- A literal from 0 to 1 rounds to a value in [+0.0, 1.0]. -/
theorem F64.ofRatio_inUnit (fmt : FpFmt) {n d : Nat} (hd : 0 < d) (h : n ≤ d) :
    F64.inUnit (F64.ofRatio fmt false n d) = true := by
  refine F64.inUnit_make (F64.roundMag_le hd (F64.isMag_oneCode fmt) ?_)
  rw [F64.unitsOfMag_one, Nat.mul_comm]
  exact Nat.mul_le_mul_left _ h

theorem tenDecimals_inUnit (fmt : FpFmt) {n : Nat} (h : n ≤ 10000000000) : F64.inUnit (tenDecimals fmt n) = true :=
  F64.ofRatio_inUnit fmt (by decide) h

theorem fourDecimals_inUnit (fmt : FpFmt) {n : Nat} (h : n ≤ 10000) : F64.inUnit (fourDecimals fmt n) = true :=
  F64.ofRatio_inUnit fmt (by decide) h

/-- Every coefficient of the three matrices is in [+0.0, 1.0]. -/
theorem matrixRom_inUnit {fmt : FpFmt} {msel : BitVec 2} {m : Matrix3} (hm : matrixRom fmt msel = some m) :
    ∀ row ∈ [m.r, m.g, m.b], ∀ c ∈ [row.r, row.g, row.b], F64.inUnit c = true := by
  unfold matrixRom at hm
  split_ifs at hm
  · cases hm
    change ∀ row ∈ [Lanes.mk F64.one F64.posZero F64.posZero, Lanes.mk F64.posZero F64.one F64.posZero,
      Lanes.mk F64.posZero F64.posZero F64.one], _
    simp [F64.inUnit_one, F64.inUnit_posZero]
  · cases hm
    simp [smpteMatrix, tenDecimals_inUnit, F64.inUnit_posZero]
  · cases hm
    simp [stemMatrix, fourDecimals_inUnit, F64.inUnit_posZero]

/-- The magnitude codes of 2.0 and 4.0, values of both formats. -/
theorem F64.isMag_two (fmt : FpFmt) : F64.IsMag fmt 0x4000000000000000 := by
  cases fmt with
  | binary64 => exact F64.isMag_binary64 (by decide)
  | binary32 => exact ⟨0x40000000, by decide, by decide +kernel⟩

theorem F64.isMag_four (fmt : FpFmt) : F64.IsMag fmt 0x4010000000000000 := by
  cases fmt with
  | binary64 => exact F64.isMag_binary64 (by decide)
  | binary32 => exact ⟨0x40800000, by decide, by decide +kernel⟩

theorem F64.unitsOfMag_two : F64.unitsOfMag 0x4000000000000000 = 2 * F64.scale := by decide +kernel

theorem F64.unitsOfMag_four : F64.unitsOfMag 0x4010000000000000 = 4 * F64.scale := by decide +kernel

/-- A sum that is at most a finite magnitude of the format rounds to a finite value of at most that magnitude. -/
theorem fadd_nonneg_of_le {fmt : FpFmt} {x y : F64} {m : Nat} (hx : F64.nonneg x = true) (hy : F64.nonneg y = true)
    (hm : F64.IsMag fmt m) (hfin : m < F64.infMag) (hle : F64.units x + F64.units y ≤ F64.unitsOfMag m) :
    F64.nonneg (fadd fmt x y) = true ∧ F64.units (fadd fmt x y) ≤ F64.unitsOfMag m := by
  have hround : F64.roundMag fmt (F64.units x + F64.units y) 1 ≤ m :=
    F64.roundMag_le Nat.one_pos hm (by rwa [Nat.mul_one])
  rw [fadd_of_nonneg fmt hx hy]
  refine ⟨F64.nonneg_make (hround.trans_lt hfin), ?_⟩
  rw [F64.units_make (hround.trans_lt (hfin.trans F64.infMag_lt))]
  exact F64.unitsOfMag_mono hround

/-- A row of coefficients in [+0.0, 1.0] on lanes in [+0.0, 1.0]: three products of at most 1.0, summed up. -/
theorem dot3_nonneg (fmt : FpFmt) {row v : Lanes F64} (hrow : ∀ c ∈ [row.r, row.g, row.b], F64.inUnit c = true)
    (hr : F64.inUnit v.r = true) (hg : F64.inUnit v.g = true) (hb : F64.inUnit v.b = true) :
    F64.nonneg (dot3 fmt row v) = true := by
  simp only [List.mem_cons, List.not_mem_nil, or_false, forall_eq_or_imp, forall_eq] at hrow
  obtain ⟨hrowr, hrowg, hrowb⟩ := hrow
  have hpr := fmul_inUnit fmt hrowr hr
  have hpg := fmul_inUnit fmt hrowg hg
  have hpb := fmul_inUnit fmt hrowb hb
  have hur := F64.units_le_of_inUnit hpr
  have hug := F64.units_le_of_inUnit hpg
  have hub := F64.units_le_of_inUnit hpb
  obtain ⟨hsum, husum⟩ := fadd_nonneg_of_le (F64.nonneg_of_inUnit hpr) (F64.nonneg_of_inUnit hpg)
    (F64.isMag_two fmt) (by decide) (by rw [F64.unitsOfMag_two]; omega)
  rw [F64.unitsOfMag_two] at husum
  exact (fadd_nonneg_of_le hsum (F64.nonneg_of_inUnit hpb) (F64.isMag_four fmt) (by decide)
    (by rw [F64.unitsOfMag_four]; omega)).1

/-- The lanes of a matrix product of lanes in [+0.0, 1.0]. -/
theorem applyMatrix_nonneg {fmt : FpFmt} {msel : BitVec 2} {m : Matrix3} {v : Lanes F64}
    (hm : matrixRom fmt msel = some m) (hr : F64.inUnit v.r = true) (hg : F64.inUnit v.g = true)
    (hb : F64.inUnit v.b = true) :
    ∀ o ∈ [(applyMatrix fmt m v).r, (applyMatrix fmt m v).g, (applyMatrix fmt m v).b], F64.nonneg o = true := by
  have hrow := matrixRom_inUnit hm
  have hlane : ∀ row ∈ [m.r, m.g, m.b], F64.nonneg (dot3 fmt row v) = true :=
    fun row hmem => dot3_nonneg fmt (hrow row hmem) hr hg hb
  simpa [applyMatrix, Lanes.map] using hlane

/-- Settles O29: each lane is a finite value that is not negative. -/
theorem matrixKeepsUnitLanesFinite : Obligations.MatrixKeepsUnitLanesFinite := by
  intro fmt msel m v hm hr hg hb o ho
  have hnn := applyMatrix_nonneg hm hr hg hb o ho
  obtain ⟨hsign, hmag⟩ := (F64.nonneg_iff o).1 hnn
  exact ⟨F64.isNaN_of_nonneg hnn, decide_eq_true hmag, hsign⟩

/-! ## Identity (41_matrix R133) -/

/-- Rounding the magnitude of a finite value of the format gives the value back. -/
theorem F64.make_roundMag_units {fmt : FpFmt} {x : F64} {d : Nat} (hd : 0 < d) (hfin : F64.isFinite x = true)
    (hf : F64.holds fmt x = true) : F64.make (F64.sign x) (F64.roundMag fmt (F64.units x * d) d) = x := by
  have hm : F64.IsMag fmt (F64.mag x) := ((F64.holds_iff fmt x).1 hf).resolve_left (by
    simp [F64.isNaN_of_isFinite hfin])
  rw [F64.units, F64.roundMag_exact hd hm, F64.make_sign_mag]

theorem one_fmul_of_isFinite {fmt : FpFmt} {x : F64} (hfin : F64.isFinite x = true) (hf : F64.holds fmt x = true) :
    fmul fmt F64.one x = x := by
  have hsign : F64.sign F64.one = false := by decide
  rw [fmul_of_isFinite fmt (by decide) hfin, show F64.units F64.one = F64.scale from F64.unitsOfMag_one, hsign,
    Nat.mul_comm, Bool.false_bne, F64.make_roundMag_units F64.scale_pos hfin hf]

/-- +0.0 times a finite value is the zero of its sign. -/
theorem zero_fmul_of_isFinite (fmt : FpFmt) {x : F64} (hfin : F64.isFinite x = true) :
    fmul fmt F64.posZero x = F64.make (F64.sign x) 0 := by
  have hsign : F64.sign F64.posZero = false := by decide
  rw [fmul_of_isFinite fmt (by decide) hfin, F64.units_posZero, Nat.zero_mul, F64.roundMag_zero, hsign,
    Bool.false_bne]

theorem fadd_comm_of_isFinite (fmt : FpFmt) {a b : F64} (ha : F64.isFinite a = true) (hb : F64.isFinite b = true) :
    fadd fmt a b = fadd fmt b a := by
  rw [fadd_of_isFinite fmt ha hb, fadd_of_isFinite fmt hb ha, Int.add_comm, Bool.and_comm]

theorem F64.isFinite_make_zero (neg : Bool) : F64.isFinite (F64.make neg 0) = true := by
  cases neg <;> decide

theorem F64.signedUnits_make_zero (neg : Bool) : F64.signedUnits (F64.make neg 0) = 0 := by
  cases neg <;> decide

/-- Adding a zero keeps a finite value, but that -0.0 takes the zero's sign. -/
theorem fadd_make_zero {fmt : FpFmt} {x : F64} (neg : Bool) (hfin : F64.isFinite x = true)
    (hf : F64.holds fmt x = true) :
    fadd fmt x (F64.make neg 0) = if x = F64.make true 0 then F64.make neg 0 else x := by
  have hx := F64.make_sign_mag x
  rw [fadd_of_isFinite fmt hfin (F64.isFinite_make_zero neg), F64.signedUnits_make_zero, Int.add_zero,
    F64.sign_make neg (by decide)]
  by_cases hzero : F64.mag x = 0
  · have hunits : F64.signedUnits x = 0 := by simp [F64.signedUnits, (F64.units_eq_zero_iff x).2 hzero]
    rw [if_pos hunits, ← hx, hzero]
    rw [F64.sign_make _ (by decide)]
    cases F64.sign x with
    | true => simp
    | false => simp [show F64.make false 0 ≠ F64.make true 0 by decide]
  · have hunits : 0 < F64.units x := Nat.pos_of_ne_zero (mt (F64.units_eq_zero_iff x).1 hzero)
    have hne : x ≠ F64.make true 0 := fun h => hzero (by rw [h]; decide)
    have hsigned : F64.signedUnits x ≠ 0 ∧ decide (F64.signedUnits x < 0) = F64.sign x ∧
        (F64.signedUnits x).natAbs = F64.units x := by
      unfold F64.signedUnits
      cases F64.sign x with
      | false => simp; omega
      | true => simp; omega
    obtain ⟨hne0, hneg, habs⟩ := hsigned
    have hround := F64.make_roundMag_units Nat.one_pos hfin hf
    rw [Nat.mul_one] at hround
    rw [if_neg hne0, if_neg hne, hneg, habs, hround]

/-- A zero of either sign is a finite value of the format. -/
theorem F64.holds_make_zero (fmt : FpFmt) (neg : Bool) : F64.holds fmt (F64.make neg 0) = true :=
  F64.holds_make neg (F64.isMag_zero fmt)

/-- Of two zeros the sum is -0.0 only if both are. -/
theorem fadd_make_zero_make_zero (fmt : FpFmt) (p q : Bool) :
    fadd fmt (F64.make p 0) (F64.make q 0) = F64.make (p && q) 0 := by
  rw [fadd_make_zero q (F64.isFinite_make_zero p) (F64.holds_make_zero fmt p)]
  cases p with
  | true => simp
  | false => simp [show F64.make false 0 ≠ F64.make true 0 by decide]

/-- Adding two zeros one after the other is adding their sum. -/
theorem fadd_make_zero_twice {fmt : FpFmt} {x : F64} (p q : Bool) (hfin : F64.isFinite x = true)
    (hf : F64.holds fmt x = true) :
    fadd fmt (fadd fmt x (F64.make p 0)) (F64.make q 0) = fadd fmt x (F64.make (p && q) 0) := by
  rw [fadd_make_zero p hfin hf, fadd_make_zero (p && q) hfin hf]
  split_ifs with hx
  · exact fadd_make_zero_make_zero fmt p q
  · rw [fadd_make_zero q hfin hf, if_neg hx]

/-- Each lane under Identity: the lane plus the sum of the other two lanes' zeros. -/
theorem applyMatrix_identity {fmt : FpFmt} {v : Lanes F64} (hr : F64.isFinite v.r = true)
    (hg : F64.isFinite v.g = true) (hb : F64.isFinite v.b = true) (hfr : F64.holds fmt v.r = true)
    (hfg : F64.holds fmt v.g = true) (hfb : F64.holds fmt v.b = true) :
    applyMatrix fmt identityMatrix v =
      ⟨fadd fmt v.r (F64.make (F64.sign v.g && F64.sign v.b) 0),
       fadd fmt v.g (F64.make (F64.sign v.r && F64.sign v.b) 0),
       fadd fmt v.b (F64.make (F64.sign v.r && F64.sign v.g) 0)⟩ := by
  change Lanes.mk
    (fadd fmt (fadd fmt (fmul fmt F64.one v.r) (fmul fmt F64.posZero v.g)) (fmul fmt F64.posZero v.b))
    (fadd fmt (fadd fmt (fmul fmt F64.posZero v.r) (fmul fmt F64.one v.g)) (fmul fmt F64.posZero v.b))
    (fadd fmt (fadd fmt (fmul fmt F64.posZero v.r) (fmul fmt F64.posZero v.g)) (fmul fmt F64.one v.b)) = _
  rw [one_fmul_of_isFinite hr hfr, one_fmul_of_isFinite hg hfg, one_fmul_of_isFinite hb hfb,
    zero_fmul_of_isFinite fmt hr, zero_fmul_of_isFinite fmt hg, zero_fmul_of_isFinite fmt hb,
    fadd_comm_of_isFinite fmt (F64.isFinite_make_zero (F64.sign v.r)) hg, fadd_make_zero_twice _ _ hr hfr,
    fadd_make_zero_twice _ _ hg hfg, fadd_make_zero_make_zero,
    fadd_comm_of_isFinite fmt (F64.isFinite_make_zero _) hb]

/-- Settles O30: a lane plus a zero is the lane, or the zero when the lane is -0.0. -/
theorem identityMatrixKeepsFiniteLanes : Obligations.IdentityMatrixKeepsFiniteLanes := by
  intro fmt v hr hg hb hfr hfg hfb out
  have hout (own other1 other2 : F64) (hfin : F64.isFinite own = true) (hf : F64.holds fmt own = true) :
      fadd fmt own (F64.make (F64.sign other1 && F64.sign other2) 0) = out own other1 other2 := by
    rw [fadd_make_zero _ hfin hf]
    simp only [out]
    cases F64.sign other1 && F64.sign other2 with
    | true => rfl
    | false => rfl
  rw [applyMatrix_identity hr hg hb hfr hfg hfb, hout _ v.g v.b hr hfr, hout _ v.r v.b hg hfg,
    hout _ v.r v.g hb hfb]

end Sys2Proof.Machine
end

section
/-! PROOFS. The conversion of a pixel (42_pipeline R140, R141): PIXEL and its errors, the three commands it stands for,
Identity on the LUT path; the two decode paths (40_gamma R111) and the issue of RUN (42_pipeline R144). -/

namespace Sys2Proof.Machine

/-! ## Decoding (40_gamma R111) -/

/-- Settles O27: the table's entry is the power of R107, which is the Power path's decode. -/
theorem decodePathsAgreeWhileTablesCurrent : Obligations.DecodePathsAgreeWhileTablesCurrent := by
  intro s x hcur hlut
  obtain ⟨hgi, -, -, -⟩ := hcur hlut
  have hentry (g : Strategy) (hdec : State.canDecode { s with strategy := g }) :
      State.decodeSample { s with strategy := g } x = decodeEntry s.fpFmt s.gi x.toNat :=
    (State.decodeSample_of_current (s := { s with strategy := g }) hdec hcur).2 x
  rw [hentry .lut (.inl ⟨rfl, hlut⟩), hentry .power (.inr ⟨rfl, hgi⟩)]

theorem decodeEntry_inUnit (fmt : FpFmt) {gi : F64} (hgi : validGamma gi = true) (x : Sample) :
    F64.inUnit (decodeEntry fmt gi x.toNat) = true :=
  pow_inUnit fmt (scale_65535.fdiv_inUnit (by decide) fmt (Nat.le_of_lt_succ x.isLt)) hgi

/-- With current tables a decoded sample is a value of the format in [+0.0, 1.0]. -/
theorem State.decodeSample_inUnit {s : State} (hdec : s.canDecode) (hcur : s.TablesCurrent) (x : Sample) :
    F64.inUnit (s.decodeSample x) = true ∧ F64.holds s.fpFmt (s.decodeSample x) = true := by
  obtain ⟨hgi, hentry⟩ := State.decodeSample_of_current hdec hcur
  rw [hentry]
  exact ⟨decodeEntry_inUnit s.fpFmt hgi x, decodeEntry_holds s.fpFmt hgi (Nat.le_of_lt_succ x.isLt)⟩

/-! ## PIXEL (42_pipeline R141) -/

theorem pixelBody_of_canConvert {s : State} {m : Matrix3} (hm : matrixRom s.fpFmt s.msel = some m)
    (hdec : s.canDecode) (henc : s.canEncode) :
    pixelBody s = .ok { s with pixOut := s.convPixel m s.pixIn } := by
  rcases hdec with ⟨hs, hlut⟩ | ⟨hs, hgi⟩
  · simp [pixelBody, hm, hs, hlut]
  · have hgo : validGamma s.go = true := by simpa [State.canEncode, hs] using henc
    simp [pixelBody, hm, hs, hgi, hgo]

theorem exec_pixel_of_canConvert {s : State} {m : Matrix3} (hm : matrixRom s.fpFmt s.msel = some m)
    (hdec : s.canDecode) (henc : s.canEncode) :
    exec .pixel s = .next { s with err := .none, wign := false, pixOut := s.convPixel m s.pixIn } :=
  runCommand_of_ok (pixelBody_of_canConvert (s := s.beginCommand) hm hdec henc)

theorem exec_pixel_badMatrix {s : State} (h : s.msel = 3) :
    exec .pixel s = .next { s with err := .badMatrix, wign := false } :=
  runCommand_of_error (by simp [pixelBody, (matrixRom_eq_none_iff _ _).mpr h])

theorem exec_pixel_invalidGamma {s : State} (hmsel : s.msel ≠ 3) (hs : s.strategy = .power)
    (h : validGamma s.gi = false ∨ validGamma s.go = false) :
    exec .pixel s = .next { s with err := .invalidGamma, wign := false } := by
  obtain ⟨m, hm⟩ := exists_matrixRom s.fpFmt hmsel
  have hboth : validGamma s.gi = true → validGamma s.go = false := fun hgi => by simpa [hgi] using h
  exact runCommand_of_error (by simpa [pixelBody, hm, hs] using hboth)

theorem exec_pixel_lutNotBuilt {s : State} (hmsel : s.msel ≠ 3) (hs : s.strategy = .lut)
    (hlut : s.lutValid = false) : exec .pixel s = .next { s with err := .lutNotBuilt, wign := false } := by
  obtain ⟨m, hm⟩ := exists_matrixRom s.fpFmt hmsel
  exact runCommand_of_error (by simp [pixelBody, hm, hs, hlut])

/-- Settles O36: PIXEL's four answers, each lane the encoding of its clamped result. -/
theorem pixelConvertsOnePixel : Obligations.PixelConvertsOnePixel := by
  refine ⟨by decide, fun s => ⟨fun m hm hdec henc => ?_, exec_pixel_badMatrix, exec_pixel_invalidGamma,
    exec_pixel_lutNotBuilt⟩⟩
  refine ⟨_, exec_pixel_of_canConvert hm hdec henc, rfl, _, rfl, fun p hp => ?_⟩
  rw [Lanes.snd_eq_of_mem_pairs (fun v => s.encodeValue (clamp v)) _ hp]
  exact ⟨fun hs => State.encodeValue_lut hs _, fun hs => State.encodeValue_power hs _⟩

/-! ## PIXEL as DEC3, MAT3, ENC3 (42_pipeline R141) -/

/-- What DEC3 writes to FV reads back as the decoded samples. -/
theorem lanes_dec3 {s : State} (hdec : s.canDecode) (hcur : s.TablesCurrent) :
    ((s.pixIn.map s.decodeSample).map Pair.ofF64).map (Pair.f64 s.fpFmt) = s.pixIn.map s.decodeSample := by
  have hlane (x : Sample) : (Pair.ofF64 (s.decodeSample x)).f64 s.fpFmt = s.decodeSample x :=
    Pair.f64_ofF64 (State.decodeSample_inUnit hdec hcur x).2
  simp [Lanes.map, hlane]

/-- What MAT3 writes to FV reads back as the product, when the lanes were in [+0.0, 1.0]. -/
theorem lanes_afterMat3 {s : State} {m : Matrix3} (hm : matrixRom s.fpFmt s.msel = some m)
    (hr : F64.inUnit s.lanes.r = true) (hg : F64.inUnit s.lanes.g = true) (hb : F64.inUnit s.lanes.b = true) :
    (s.afterMat3 m).lanes = applyMatrix s.fpFmt m s.lanes := by
  have hrow := matrixRom_inUnit hm
  have hlane (bits : F64) {row : Lanes F64} (hmem : row ∈ [m.r, m.g, m.b]) :
      (Pair.ofF64 (settleNaN bits (dot3 s.fpFmt row s.lanes))).f64 s.fpFmt = dot3 s.fpFmt row s.lanes := by
    rw [f64_ofF64_settleNaN_dot3,
      settleNaN_of_not_isNaN (F64.isNaN_of_nonneg (dot3_nonneg s.fpFmt (hrow row hmem) hr hg hb))]
  change Lanes.mk _ _ _ = Lanes.mk _ _ _
  exact congr (congrArg₂ Lanes.mk (hlane _ (by simp)) (hlane _ (by simp))) (hlane _ (by simp))

/-- A state whose lanes are not negative has no NaN in FV. -/
theorem State.fvHasNaN_of_nonneg {s : State} (h : ∀ o ∈ [s.lanes.r, s.lanes.g, s.lanes.b], F64.nonneg o = true) :
    s.fvHasNaN = false := by
  simp only [List.mem_cons, List.not_mem_nil, or_false, forall_eq_or_imp, forall_eq] at h
  obtain ⟨hr, hg, hb⟩ := h
  simp [State.fvHasNaN, F64.isNaN_of_nonneg hr, F64.isNaN_of_nonneg hg, F64.isNaN_of_nonneg hb]

/-- Settles O37: each command leaves in FV what the next one of PIXEL's steps takes, so ENC3 encodes the same lanes. -/
theorem pixelEqualsDec3Mat3Enc3 : Obligations.PixelEqualsDec3Mat3Enc3 := by
  intro s m hcur hm hdec henc
  have hunit (x : Sample) := (State.decodeSample_inUnit hdec hcur x).1
  generalize ht1 : ({ s with
    err := .none, wign := false, fv := (s.pixIn.map s.decodeSample).map Pair.ofF64 } : State) = t1
  have hlanes1 : t1.lanes = s.pixIn.map s.decodeSample := by rw [← ht1]; exact lanes_dec3 hdec hcur
  have hfmt : t1.fpFmt = s.fpFmt := by rw [← ht1]
  have hm1 : matrixRom t1.fpFmt t1.msel = some m := by rw [← ht1]; exact hm
  have hr : F64.inUnit t1.lanes.r = true := by rw [hlanes1]; exact hunit _
  have hg : F64.inUnit t1.lanes.g = true := by rw [hlanes1]; exact hunit _
  have hb : F64.inUnit t1.lanes.b = true := by rw [hlanes1]; exact hunit _
  have hlanes2 := lanes_afterMat3 hm1 hr hg hb
  have henc2 : (t1.afterMat3 m).canEncode := by rw [← ht1]; exact henc
  have hnan : (t1.afterMat3 m).fvHasNaN = false :=
    State.fvHasNaN_of_nonneg (by rw [hlanes2]; exact applyMatrix_nonneg hm1 hr hg hb)
  refine ⟨t1, t1.afterMat3 m, _, _, ?_, exec_mat3_of_matrix hm1, exec_enc3_of_canEncode henc2 hnan,
    exec_pixel_of_canConvert hm hdec henc, ?_, rfl, ?_, rfl, rfl, rfl⟩
  · rw [exec_dec3_of_canDecode hdec, ht1]
  · have hencode : (t1.afterMat3 m).encodeValue = s.encodeValue := by rw [← ht1]; rfl
    simp only [State.convPixel, hlanes2, hlanes1, hfmt, hencode]
  · rw [← ht1]

/-! ## Identity on the LUT path (42_pipeline R140) -/

/-- Identity keeps lanes in [+0.0, 1.0]. -/
theorem applyMatrix_identity_of_inUnit {fmt : FpFmt} {v : Lanes F64} (hr : F64.inUnit v.r = true)
    (hg : F64.inUnit v.g = true) (hb : F64.inUnit v.b = true) (hfr : F64.holds fmt v.r = true)
    (hfg : F64.holds fmt v.g = true) (hfb : F64.holds fmt v.b = true) :
    applyMatrix fmt identityMatrix v = v := by
  have hfin {x : F64} (hx : F64.inUnit x = true) : F64.isFinite x = true :=
    decide_eq_true ((F64.nonneg_iff x).1 (F64.nonneg_of_inUnit hx)).2
  have hne {x : F64} (hx : F64.inUnit x = true) : x ≠ 0x8000000000000000 := by
    rintro rfl
    exact absurd hx (by decide)
  rw [identityMatrixKeepsFiniteLanes fmt v (hfin hr) (hfin hg) (hfin hb) hfr hfg hfb]
  simp only [hne hr, hne hg, hne hb, if_false]

/-- Settles O38: decoded samples are in [+0.0, 1.0], where Identity and clamp change nothing. -/
theorem identityLutConversionIsPerChannel : Obligations.IdentityLutConversionIsPerChannel := by
  intro s px hcur hlut hs
  have hunit (x : Sample) := State.decodeSample_inUnit (.inl ⟨hs, hlut⟩) hcur x
  have hlane (x : Sample) : s.encodeValue (clamp (s.decodeSample x)) =
      s.elut.read elutBits (quant24 s.fpFmt (s.dlut.read dlutBits x.toNat)).toNat := by
    rw [clamp_of_inUnit (hunit x).1, State.encodeValue_lut hs, State.decodeSample_lut hs, encLut]
  have hid : applyMatrix s.fpFmt identityMatrix (px.map s.decodeSample) = px.map s.decodeSample :=
    applyMatrix_identity_of_inUnit (hunit px.r).1 (hunit px.g).1 (hunit px.b).1 (hunit px.r).2 (hunit px.g).2
      (hunit px.b).2
  rw [State.convPixel, hid]
  simp only [Lanes.map, hlane]

/-! ## RUN (42_pipeline R144) -/

/-- Settles O39: the issue of RUN, written out. -/
theorem runStartsAFreshRun : Obligations.RunStartsAFreshRun :=
  ⟨by decide, fun _ => rfl⟩

end Sys2Proof.Machine
end

section
/-! PROOFS. The host's accesses (10_state R22 to R26, R42, R47, 20_memory R54, R55, 30_encoding R72, R76): reads,
stores, command words and the fields of the registers; the Normalizer (40_gamma R100 to R102). -/

namespace Sys2Proof.Machine

/-! ## Command words (10_state R25, 30_encoding R72) -/

/-- Settles O1: the seven words, decoded. -/
theorem opcodeMapWordsDecode : Obligations.OpcodeMapWordsDecode := by
  unfold Obligations.OpcodeMapWordsDecode
  decide

/-- With BUSY = 0 a write of a command's word to CMD runs the command. -/
theorem hostWrite_cmd_of_decode {s : State} {i : Instr} {w : Word} (hb : s.busy = false) (hw : decode w = .ok i) :
    hostWrite 0x008 w s = exec i s := by
  change hostWrite Reg.cmd.offset w s = exec i s
  rw [hostWrite_offset, hostWriteReg_cmd w hb, issueCommand, hw]

/-- When an agent moves, the step is its turn with the turn taken off the schedule. -/
theorem step_of_mover {s : State} {a : Agent} (h : s.mover = some a) :
    step s = turn a { s with sched := s.sched.tail } := by
  cases hs : s.sched with
  | cons b rest =>
    obtain rfl : b = a := by simpa [State.mover, hs] using h
    simp [step, machineStep, hs]
  | nil =>
    have hdef : defaultAgent s = some a := by simpa [State.mover, hs] using h
    have hsame : ({ s with sched := [] } : State) = s := by rw [← hs]
    simp [step, machineStep, hs, hdef, hsame]

/-- Settles O4: the host's turn is its line's write, and the write to CMD is the command. -/
theorem stepIssuesTheDecodedCommand : Obligations.StepIssuesTheDecodedCommand := by
  intro s i w rest hmover hhost hb hw
  rw [step_of_mover hmover]
  change hostStep { s with sched := s.sched.tail } = _
  rw [hostStep_write (s := { s with sched := s.sched.tail }) (by decide) hhost]
  exact hostWrite_cmd_of_decode hb hw

/-- Settles O5: the placed word is the host's next line, and the host moves next. -/
theorem placedCommandRunsNext : Obligations.PlacedCommandRunsNext := by
  intro s i hb
  have hword : BitVec.ofNat 32 ((encode i).toNat % 2 ^ 32) = encode i := by
    rw [Nat.mod_eq_of_lt (encode i).isLt, BitVec.ofNat_toNat, BitVec.setWidth_eq]
  have hdec : decode (encode i) = .ok i := (decode_eq_ok_iff_eq_encode _ i).2 rfl
  have hstep := stepIssuesTheDecodedCommand (s.withFetchWord 32 (encode i).toNat) i (encode i) s.host rfl
    (by rw [State.withFetchWord, hword]; rfl) rfl hdec
  rw [hstep]
  change exec i { s with busy := false } = exec i s
  rw [← hb]

/-! ## Reads (20_memory R55, 30_encoding R76) -/

/-- Settles O9: each read gives the host the register's value and leaves the block, so the second gives the same. -/
theorem readsHaveNoSideEffect : Obligations.ReadsHaveNoSideEffect := by
  intro s a rest ha hhost
  exact ⟨_, _, hostStep_read ha hhost, hostStep_read ha rfl, rfl⟩

/-- Settles O58: each literal is its register's offset. -/
theorem eachOffsetReadsItsRegister : Obligations.EachOffsetReadsItsRegister := by
  intro s
  have hctrl : s.readAt 0x004 = (0 : BitVec 29) ++ s.msel ++ BitVec.ofBool (s.strategy == .power) := by
    change (0 : BitVec 29) ++ s.msel ++ BitVec.ofBool s.strategy.bit = _
    cases s.strategy <;> rfl
  exact ⟨rfl, hctrl, rfl, rfl, rfl, rfl, rfl, rfl, rfl, rfl, rfl, rfl, rfl, rfl, rfl, rfl, rfl, rfl, rfl, rfl, rfl, rfl,
    rfl, rfl, rfl, rfl, rfl⟩

/-! ## STATUS (10_state R26, R46, 60_exceptions R170) -/

/-- The fields of the concatenation that STATUS is, each at its bits. -/
theorem statusFields_of_append (err : BitVec 4) (wign trunc lutValid busy : Bool) (stage : BitVec 3)
    {v : BitVec (16 + 4 + 4 + 1 + 1 + 1 + 1 + 1 + 3)}
    (hv : v = 0#16 ++ err ++ 0#4 ++ BitVec.ofBool wign ++ BitVec.ofBool trunc ++ BitVec.ofBool lutValid ++
      BitVec.ofBool busy ++ 0#1 ++ stage) :
    v.extractLsb' 0 3 = stage ∧ v.getLsbD 3 = false ∧ v.getLsbD 4 = busy ∧ v.getLsbD 5 = lutValid ∧
      v.getLsbD 6 = trunc ∧ v.getLsbD 7 = wign ∧ v.extractLsb' 8 4 = 0#4 ∧ v.extractLsb' 12 4 = err ∧
      v.extractLsb' 16 16 = 0#16 := by
  subst hv
  refine ⟨BitVec.extractLsb'_append_eq_right, ?_⟩
  simp only [BitVec.getLsbD_append, BitVec.getLsbD_ofBool, BitVec.extractLsb'_append_eq_of_le, Nat.reduceLT,
    Nat.reduceLeDiff, Nat.reduceSub, if_true, if_false]
  exact ⟨by simp, by simp, by simp, by simp, by simp, BitVec.extractLsb'_append_eq_right,
    BitVec.extractLsb'_append_eq_right, by simp⟩

theorem getLsbD_four_statusWord (s : State) : s.statusWord.getLsbD 4 = s.busy := by
  obtain ⟨-, -, hbusy, -⟩ := statusFields_of_append s.err.code s.wign s.trunc s.lutValid s.busy s.stage.code
    (v := s.statusWord) rfl
  exact hbusy

/-- Settles O16: the bit WAIT polls is BUSY. -/
theorem waitRepeatsUntilNotBusy : Obligations.WaitRepeatsUntilNotBusy := by
  intro s rest hhost
  have hbusy : busyBit (s.readAt Reg.status.offset) = s.busy := by
    rw [State.readAt_offset]
    exact getLsbD_four_statusWord s
  simp only [hostStep, hhost, hbusy, State.hostRead, State.readAt_setHost]
  rw [State.readAt_offset]
  cases s.busy with
  | false => rfl
  | true => rfl

/-- Settles O15: the bits of the concatenation, field by field. -/
theorem statusFieldsStandAtTheirBits : Obligations.StatusFieldsStandAtTheirBits := by
  intro s
  obtain ⟨hstage, hzero3, hbusy, hlut, htrunc, hwign, hzero8, herr, hzero16⟩ := statusFields_of_append s.err.code
    s.wign s.trunc s.lutValid s.busy s.stage.code (v := s.statusWord) rfl
  refine ⟨s.statusWord, rfl, ?_, hzero3, hbusy, hlut, htrunc, hwign, hzero8, ?_, hzero16⟩
  · refine (congrArg BitVec.toNat hstage).trans ?_
    cases s.stage <;> rfl
  · refine (congrArg BitVec.toNat herr).trans ?_
    cases s.err <;> rfl

/-! ## Stores (10_state R22, R24, R42, R47, 20_memory R54) -/

theorem Strategy.bit_ofBit (b : Bool) : (Strategy.ofBit b).bit = b := by
  cases b <;> rfl

/-- CTRL as stored: bits 2:0 of the word (10_state R24). -/
theorem ctrlFields_eq_and (w : Word) :
    (0 : BitVec 29) ++ w.extractLsb' 1 2 ++ BitVec.ofBool (w.getLsbD 0) = w &&& 0x00000007 := by
  have hmask : ∀ i < 32, (0x00000007 : Word).getLsbD i = decide (i < 3) := by decide
  apply BitVec.eq_of_getLsbD_eq
  intro i hi
  rw [BitVec.getLsbD_and, hmask i hi]
  simp only [BitVec.getLsbD_append, BitVec.getLsbD_ofBool, BitVec.getLsbD_extractLsb']
  rcases i with _ | _ | _ | i <;> simp

/-- META_FLAGS as stored: bits 1:0 of the word (10_state R31). -/
theorem metaFlagsFields_eq_and (w : Word) :
    (0 : BitVec 30) ++ BitVec.ofBool (w.getLsbD 1) ++ BitVec.ofBool (w.getLsbD 0) = w &&& 0x00000003 := by
  have hmask : ∀ i < 32, (0x00000003 : Word).getLsbD i = decide (i < 2) := by decide
  apply BitVec.eq_of_getLsbD_eq
  intro i hi
  rw [BitVec.getLsbD_and, hmask i hi]
  simp only [BitVec.getLsbD_append, BitVec.getLsbD_ofBool]
  rcases i with _ | _ | i <;> simp

/-- PIX_IN as stored: bits 15:0 of the word (10_state R36). -/
theorem sampleField_eq_and (w : Word) : (w.extractLsb' 0 16).zeroExtend 32 = w &&& 0x0000FFFF := by
  have hmask : ∀ i < 32, (0x0000FFFF : Word).getLsbD i = decide (i < 16) := by decide
  apply BitVec.eq_of_getLsbD_eq
  intro i hi
  rw [BitVec.getLsbD_and, hmask i hi, BitVec.getLsbD_setWidth, BitVec.getLsbD_extractLsb', Nat.zero_add]
  simp [hi, Bool.and_comm]

/-- A read-write register reads its writable bits of the word stored. -/
theorem readReg_writeReg_same {r : Reg} (hr : r.kind = .rw) (s : State) (w : Word) :
    (s.writeReg r w).readReg r = w &&& r.writableBits := by
  have hall : w = w &&& 0xFFFFFFFF := BitVec.and_allOnes.symm
  cases r with
  | ctrl =>
    change (0 : BitVec 29) ++ w.extractLsb' 1 2 ++ BitVec.ofBool (Strategy.ofBit (w.getLsbD 0)).bit = _
    rw [Strategy.bit_ofBit]
    exact ctrlFields_eq_and w
  | metaFlags => exact metaFlagsFields_eq_and w
  | pixInR | pixInG | pixInB => exact sampleField_eq_and w
  | id | cmd | status | rowsDone | pixOutR | pixOutG | pixOutB => cases hr
  | _ => exact hall

/-- Every other register but STATUS reads as before. -/
theorem readReg_writeReg_other {r r' : Reg} (hne : r' ≠ r) (hstatus : r' ≠ .status) (s : State) (w : Word) :
    (s.writeReg r w).readReg r' = s.readReg r' := by
  cases r <;> cases r' <;> try contradiction
  all_goals rfl

/-- STATUS reads as before but for LUT_VALID after a GAMMA half. -/
theorem statusWord_writeReg {r : Reg} (hr : r.isGammaHalf = false) (s : State) (w : Word) :
    (s.writeReg r w).readReg .status = s.readReg .status := by
  cases r with
  | gammaInLo | gammaInHi | gammaOutLo | gammaOutHi => cases hr
  | _ => rfl

theorem writeReg_of_ro {r : Reg} (hr : r.kind = .ro) (s : State) (w : Word) : s.writeReg r w = s := by
  cases r with
  | id | status | rowsDone | pixOutR | pixOutG | pixOutB => rfl
  | _ => cases hr

/-- With BUSY = 0 a host write at the offset of a register other than CMD is its store. -/
theorem hostWrite_offset_of_ne_cmd {s : State} {r : Reg} (w : Word) (hb : s.busy = false) (hr : r ≠ .cmd) :
    hostWrite r.offset w s = .next (s.writeReg r w) := by
  rw [hostWrite_offset, hostWriteReg_of_ne_cmd w hb hr]

/-- Settles O10: the store of the register, read back and read elsewhere; a read-only register stores nothing. -/
theorem registersHoldTheirWritableBits : Obligations.RegistersHoldTheirWritableBits := by
  intro s r w hb
  refine ⟨fun hr => ?_, fun hr => ?_⟩
  · refine ⟨s.writeReg r w, hostWrite_offset_of_ne_cmd w hb (by rintro rfl; cases hr), readReg_writeReg_same hr s w,
      fun r' hne hstatus => readReg_writeReg_other hne hstatus s w, fun hg => statusWord_writeReg hg s w, ?_⟩
    cases r <;> simp [State.writeReg, State.sameOutside]
  · rw [hostWrite_offset_of_ne_cmd w hb (by rintro rfl; cases hr), writeReg_of_ro hr]

/-- Settles O11: the store of CTRL. -/
theorem ctrlWriteSetsStrategyAndMatrix : Obligations.CtrlWriteSetsStrategyAndMatrix := by
  intro s w hb
  refine ⟨s.writeReg .ctrl w, hostWrite_offset_of_ne_cmd (r := .ctrl) w hb (by decide), rfl, fun h0 => ?_,
    fun h1 => ?_,
    readReg_writeReg_same (r := .ctrl) rfl s w⟩
  · exact congrArg Strategy.ofBit h0
  · exact congrArg Strategy.ofBit h1

/-- Settles O12: the store of a GAMMA half. -/
theorem gammaWriteClearsLutValid : Obligations.GammaWriteClearsLutValid := by
  intro s r w hb hg
  cases r with
  | gammaInLo | gammaInHi | gammaOutLo | gammaOutHi =>
    exact ⟨_, hostWrite_offset_of_ne_cmd w hb (by decide), rfl, rfl⟩
  | _ => cases hg

/-- Settles O14: a store to one half leaves the other. -/
theorem tornPairIsHalfNewHalfOld : Obligations.TornPairIsHalfNewHalfOld :=
  fun _ _ => ⟨rfl, rfl, rfl, rfl, rfl, rfl, rfl, rfl, rfl, rfl⟩

/-! ## The Normalizer (40_gamma R100 to R102) -/

/-- Settles O22: the two widenings sample by sample. -/
theorem normalizerWidensByMode : Obligations.NormalizerWidensByMode := by
  intro mode row
  refine ⟨rfl, ?_, rfl, fun x hx => ?_, fun bps h8 h16 => ?_⟩
  · exact congrArg some (List.map_id row)
  · rw [BitVec.toNat_shiftLeft, Nat.shiftLeft_eq]
    omega
  · rw [normalizeRow, if_neg h8, if_neg h16]

end Sys2Proof.Machine
end
